-- ==== Sys2Proof/Word.lean ====
section
/-! DEFINITION. The two word types of the block (00_scope.md R6): bytes of the image and of the text,
16-bit words of the register file, of addresses, displacements and immediates. -/

namespace Sys2Proof

/-- A byte: 8 bits, bit 0 the least significant (R6). -/
abbrev Byte := BitVec 8

/-- A word of `XLEN` = 16 bits (R5, D1). -/
abbrev Word := BitVec 16

end Sys2Proof
end

