-- ==== Sys2Proof/Config.lean ====
section
/-! DEFINITION. The parameters of the block (00_scope.md R5). They are data of a model, not constants:
a claim that quantifies over states quantifies over every parameter value. -/

namespace Sys2Proof

/-- The parameters of R5 that are not fixed by the spec, and `TRACE`.
`XLEN` = 16 is the type `Word`, the sentinel 0x00 stands in the decoder. -/
structure Config where
  /-- `MEM_SIZE`: capacity of the memory image in bytes. -/
  memSize : Nat
  /-- `PROGRAM_START`: where programs load and where reset sets the instruction pointer. -/
  programStart : Nat
  /-- `OUT_CAP`: capacity of the trace buffer in characters, supplied by the caller per session. -/
  outCap : Nat
  /-- `TRACE`: whether the trace stage exists. -/
  trace : Bool
  /-- `STACK_SIZE`: size of the separate stack region; used by no rule. -/
  stackSize : Nat
  /-- `STACK_BASE`: place of the separate stack region; used by no rule. -/
  stackBase : Nat
  deriving DecidableEq, Repr

/-- The constraints R5 puts on the parameters. Outside them the spec gives a session no meaning (U3). -/
abbrev Config.Valid (c : Config) : Prop :=
  2 ≤ c.memSize ∧ c.memSize ≤ 65536 ∧ 1 ≤ c.programStart ∧ c.programStart < c.memSize

/-- The parameter values of the reset state: `MEM_SIZE` is the spec's default and `TRACE` is fixed (R5).
DESIGN CHOICE (log entries 2, 3, 4): `PROGRAM_START` 0x0100 and `OUT_CAP` 4096 are the values the vectors
of 95_test_vectors.md use, the stack parameters are the model's. -/
def Config.atReset : Config where
  memSize := 65536
  programStart := 0x0100
  outCap := 4096
  trace := true
  stackSize := 4096
  stackBase := 0

end Sys2Proof
end

