-- ==== Sys2Proof/Syntax.lean ====
section
/-! DEFINITION. The syntax of the block: its closed enumerations (10_state.md R23, R24), the raw operand
bytes of an instruction, and `Instr`, one constructor per row of opcode_table.json (the 21 rows of
unrecognised bytes are one constructor over its byte, log entry 8). -/

namespace Sys2Proof

/-- The eight arithmetic and logic operations, in the order of their operation index (30_encoding.md R69). -/
inductive AluOp where
  | add | or | adc | sbb | and | sub | xor | cmp
  deriving DecidableEq, Repr

/-- `Tag`, the instruction tag (10_state.md R23): 36 values, written by family as R92 writes them.
`rmReg .and` is the spec's `AND_RM_REG`, `accImm .and` its `AND_ACC_IMM`, `rmImm .and` its `AND_RM_IMM`. -/
inductive Tag where
  | rmReg (op : AluOp)
  | accImm (op : AluOp)
  | rmImm (op : AluOp)
  | movRmReg
  | movRegImm
  | nop | hlt | cmc | clc | stc | cli | sti | cld | std
  | unrecognized
  deriving DecidableEq, Repr

/-- `Format`, the encoding shape of a tag (10_state.md R24, 30_encoding.md R62). -/
inductive Format where
  | std | rmImm | accImm | regImm | noOperand
  deriving DecidableEq, Repr

/-- `AddrMode`, the addressing mode resolved from mod and rm (10_state.md R24). -/
inductive AddrMode where
  | regDirect | memNoDisp | memDisp8 | memDisp16 | memDirect | noModrm
  deriving DecidableEq, Repr

/-- `SizeTag`, the byte-size tag of a displacement or an immediate (10_state.md R24). -/
inductive SizeTag where
  | szNone | szOne | szTwo
  deriving DecidableEq, Repr

/-- The displacement bytes of an instruction as they are encoded (30_encoding.md R66):
none, one byte, or the little-endian word of two. -/
inductive Disp where
  | none
  | byte (v : Byte)
  | word (v : Word)
  deriving DecidableEq, Repr

/-- The immediate bytes of an instruction as they are encoded (30_encoding.md R68). -/
inductive Imm where
  | byte (v : Byte)
  | word (v : Word)
  deriving DecidableEq, Repr

/-- The instructions, with the fields of their encodings (30_encoding.md R62, R63). `d`, `w` and `s` are the
direction, width and sign-extend bits, `mod`, `reg` and `rm` the fields of the addressing byte. -/
inductive Instr where
  /-- `ADD_RM_REG` (R144). -/
  | addRmReg (d w : Bool) (mod : BitVec 2) (reg rm : BitVec 3) (disp : Disp)
  /-- `OR_RM_REG` (R145). -/
  | orRmReg (d w : Bool) (mod : BitVec 2) (reg rm : BitVec 3) (disp : Disp)
  /-- `ADC_RM_REG` (R146). -/
  | adcRmReg (d w : Bool) (mod : BitVec 2) (reg rm : BitVec 3) (disp : Disp)
  /-- `SBB_RM_REG` (R147). -/
  | sbbRmReg (d w : Bool) (mod : BitVec 2) (reg rm : BitVec 3) (disp : Disp)
  /-- `AND_RM_REG` (R148). -/
  | andRmReg (d w : Bool) (mod : BitVec 2) (reg rm : BitVec 3) (disp : Disp)
  /-- `SUB_RM_REG` (R149). -/
  | subRmReg (d w : Bool) (mod : BitVec 2) (reg rm : BitVec 3) (disp : Disp)
  /-- `XOR_RM_REG` (R150). -/
  | xorRmReg (d w : Bool) (mod : BitVec 2) (reg rm : BitVec 3) (disp : Disp)
  /-- `CMP_RM_REG` (R151). -/
  | cmpRmReg (d w : Bool) (mod : BitVec 2) (reg rm : BitVec 3) (disp : Disp)
  /-- `MOV_RM_REG` (R152). -/
  | movRmReg (d w : Bool) (mod : BitVec 2) (reg rm : BitVec 3) (disp : Disp)
  /-- `ADD_ACC_IMM` (R163). -/
  | addAccImm (w : Bool) (imm : Imm)
  /-- `OR_ACC_IMM` (R164). -/
  | orAccImm (w : Bool) (imm : Imm)
  /-- `ADC_ACC_IMM` (R165). -/
  | adcAccImm (w : Bool) (imm : Imm)
  /-- `SBB_ACC_IMM` (R166). -/
  | sbbAccImm (w : Bool) (imm : Imm)
  /-- `AND_ACC_IMM` (R167). -/
  | andAccImm (w : Bool) (imm : Imm)
  /-- `SUB_ACC_IMM` (R168). -/
  | subAccImm (w : Bool) (imm : Imm)
  /-- `XOR_ACC_IMM` (R169). -/
  | xorAccImm (w : Bool) (imm : Imm)
  /-- `CMP_ACC_IMM` (R170). -/
  | cmpAccImm (w : Bool) (imm : Imm)
  /-- `ADD_RM_IMM` (R172); the sub-opcode is the constructor. -/
  | addRmImm (s w : Bool) (mod : BitVec 2) (rm : BitVec 3) (disp : Disp) (imm : Imm)
  /-- `OR_RM_IMM` (R173); the sub-opcode is the constructor. -/
  | orRmImm (s w : Bool) (mod : BitVec 2) (rm : BitVec 3) (disp : Disp) (imm : Imm)
  /-- `ADC_RM_IMM` (R174); the sub-opcode is the constructor. -/
  | adcRmImm (s w : Bool) (mod : BitVec 2) (rm : BitVec 3) (disp : Disp) (imm : Imm)
  /-- `SBB_RM_IMM` (R175); the sub-opcode is the constructor. -/
  | sbbRmImm (s w : Bool) (mod : BitVec 2) (rm : BitVec 3) (disp : Disp) (imm : Imm)
  /-- `AND_RM_IMM` (R176); the sub-opcode is the constructor. -/
  | andRmImm (s w : Bool) (mod : BitVec 2) (rm : BitVec 3) (disp : Disp) (imm : Imm)
  /-- `SUB_RM_IMM` (R177); the sub-opcode is the constructor. -/
  | subRmImm (s w : Bool) (mod : BitVec 2) (rm : BitVec 3) (disp : Disp) (imm : Imm)
  /-- `XOR_RM_IMM` (R178); the sub-opcode is the constructor. -/
  | xorRmImm (s w : Bool) (mod : BitVec 2) (rm : BitVec 3) (disp : Disp) (imm : Imm)
  /-- `CMP_RM_IMM` (R179); the sub-opcode is the constructor. -/
  | cmpRmImm (s w : Bool) (mod : BitVec 2) (rm : BitVec 3) (disp : Disp) (imm : Imm)
  /-- `MOV_REG_IMM` (R181). -/
  | movRegImm (w : Bool) (reg : BitVec 3) (imm : Imm)
  /-- `NOP` (R183). -/
  | nop
  /-- `HLT` (R184). -/
  | hlt
  /-- `CMC` (R185). -/
  | cmc
  /-- `CLC` (R186). -/
  | clc
  /-- `STC` (R187). -/
  | stc
  /-- `CLI` (R188). -/
  | cli
  /-- `STI` (R189). -/
  | sti
  /-- `CLD` (R190). -/
  | cld
  /-- `STD` (R191). -/
  | std
  /-- The end-of-program byte 0x00 at an instruction boundary (R201): the table's loop-level row. -/
  | sentinel
  /-- `UNRECOGNIZED` (R192): an opcode byte outside the recognised set, one of the 175 values of R74.
  The table's 21 rows for it are 21 blocks of the one byte field (log entry 8). -/
  | unrecognized (b0 : Byte)
  deriving DecidableEq, Repr

/-- One row of opcode_table.json (30_encoding.md R78): it matches `b0 ++ b1` when the bits under `mask`
are those of `pattern`. -/
structure TableRow where
  mask : Word
  pattern : Word
  tag : Tag
  deriving DecidableEq, Repr

/-- What decoding a byte sequence gives: an instruction and the bytes after it, or the rejection of a
sequence that ends inside the instruction, with the number of bytes the successful fetches consumed. -/
inductive DecodeResult where
  | ok (i : Instr) (rest : List Byte)
  | truncated (consumed : Nat)
  deriving DecidableEq, Repr

end Sys2Proof
end

