-- ==== Sys2Proof/Decode.lean ====
section
/-! DEFINITION. The decoder and the encoder. First the pure sub-blocks of the spec: the resolver
(40_opcode_resolver.md), the splitter (41), the addressing-mode parser (42), the displacement extractor
(43) on a sequence of bytes; then the handlers and the two entry points, `decodeOne` (R161) and `decode`
with the loop's sentinel test (R201); then the encoder, the opcode table as data, and the reading of the
table's words. Everything is total on any bytes. -/

namespace Sys2Proof

/-! ### Bit fields, extension, byte order -/

/-- `sext_16` of a byte (00_scope.md R6, R9). -/
def sext16 (b : Byte) : Word := b.signExtend 16

/-- `zext_16` of a byte (R6, R9). -/
def zext16 (b : Byte) : Word := b.setWidth 16

/-- The little-endian word of two bytes, `lo` at the lower address (20_memory.md R42). -/
def joinBytes (lo hi : Byte) : Word := hi ++ lo

/-- Bits 7 to 0 of a word. -/
def lowByte (v : Word) : Byte := v.extractLsb' 0 8

/-- Bits 15 to 8 of a word. -/
def highByte (v : Word) : Byte := v.extractLsb' 8 8

/-- `signed_16`: a word read as two's complement (R6). -/
def signed16 (v : Word) : Int := if v.toNat < 0x8000 then (v.toNat : Int) else (v.toNat : Int) - 65536

/-- `Bytes` of a size tag (10_state.md R24). -/
def SizeTag.bytes : SizeTag → Nat
  | .szNone => 0
  | .szOne => 1
  | .szTwo => 2

/-! ### The splitter and the addressing-mode parser -/

/-- The three fields of an addressing byte. `Split` (41_modrm_splitter.md R110): mod, reg, rm. -/
def split (m : Byte) : BitVec 2 × BitVec 3 × BitVec 3 :=
  (m.extractLsb' 6 2, m.extractLsb' 3 3, m.extractLsb' 0 3)

/-- `ParseMode` (42_addressing_mode_parser.md R121). The numbers are the spec's decision D13. -/
def parseMode (mod : BitVec 2) (rm : BitVec 3) : AddrMode × SizeTag :=
  if mod = 3 then (.regDirect, .szNone)
  else if mod = 0 ∧ rm = 6 then (.memDirect, .szTwo)
  else if mod = 0 then (.memNoDisp, .szNone)
  else if mod = 1 then (.memDisp8, .szOne)
  else (.memDisp16, .szTwo)

/-! ### The resolver -/

/-- The `ALU` table of R92: the operation of an operation index (30_encoding.md R69, D15). -/
def AluOp.ofIndex (i : BitVec 3) : AluOp :=
  [AluOp.add, .or, .adc, .sbb, .and, .sub, .xor, .cmp].getD i.toNat .cmp

/-- The operation index of an operation (R69). -/
def AluOp.index : AluOp → BitVec 3
  | .add => 0
  | .or => 1
  | .adc => 2
  | .sbb => 3
  | .and => 4
  | .sub => 5
  | .xor => 6
  | .cmp => 7

/-- `NeedsSecond` (R91). -/
def needsSecond (b0 : Byte) : Bool := b0 &&& 0xFC == 0x80

/-- `Resolve` (R92), in the order of the spec: exact bytes, ranges of the opcode byte, then the sub-opcode of
the following byte (R65). -/
def resolve (b0 b1 : Byte) : Tag :=
  if b0 = 0x90 then .nop
  else if b0 = 0xF4 then .hlt
  else if b0 = 0xF5 then .cmc
  else if b0 = 0xF8 then .clc
  else if b0 = 0xF9 then .stc
  else if b0 = 0xFA then .cli
  else if b0 = 0xFB then .sti
  else if b0 = 0xFC then .cld
  else if b0 = 0xFD then .std
  else if b0 &&& 0xC4 = 0x00 then .rmReg (AluOp.ofIndex (b0.extractLsb' 3 3))
  else if b0 &&& 0xC6 = 0x04 then .accImm (AluOp.ofIndex (b0.extractLsb' 3 3))
  else if b0 &&& 0xFC = 0x88 then .movRmReg
  else if b0 &&& 0xF0 = 0xB0 then .movRegImm
  else if b0 &&& 0xFC = 0x80 then .rmImm (AluOp.ofIndex (b1.extractLsb' 3 3))
  else .unrecognized

/-- `FormatOf` (R96). -/
def formatOf : Tag → Option Format
  | .rmReg _ => some .std
  | .movRmReg => some .std
  | .rmImm _ => some .rmImm
  | .accImm _ => some .accImm
  | .movRegImm => some .regImm
  | .nop => some .noOperand
  | .hlt => some .noOperand
  | .cmc => some .noOperand
  | .clc => some .noOperand
  | .stc => some .noOperand
  | .cli => some .noOperand
  | .sti => some .noOperand
  | .cld => some .noOperand
  | .std => some .noOperand
  | .unrecognized => none

/-! ### Displacements and immediates of an instruction -/

/-- The size tag of encoded displacement bytes. -/
def Disp.size : Disp → SizeTag
  | .none => .szNone
  | .byte _ => .szOne
  | .word _ => .szTwo

/-- The 16-bit displacement of a record (43_displacement_extractor.md R130, R131): one byte is sign-extended
to 16 bits whatever the operand width, two bytes are taken as they are. -/
def Disp.value : Disp → Word
  | .none => 0
  | .byte v => sext16 v
  | .word v => v

/-- The displacement bytes in address order. -/
def Disp.encoded : Disp → List Byte
  | .none => []
  | .byte v => [v]
  | .word v => [lowByte v, highByte v]

/-- The `Fetch` calls that read the displacement (R130): none, `Fetch(1)`, or one `Fetch(2)`. -/
def Disp.fetches : Disp → List Nat
  | .none => []
  | .byte _ => [1]
  | .word _ => [2]

/-- The size tag of encoded immediate bytes. -/
def Imm.size : Imm → SizeTag
  | .byte _ => .szOne
  | .word _ => .szTwo

/-- The 16-bit immediate of a record (30_encoding.md R68): a byte is sign-extended when `s` and `w` are both 1,
else zero-extended; a word is taken as it is. -/
def Imm.value (signExtend : Bool) : Imm → Word
  | .byte v => if signExtend then sext16 v else zext16 v
  | .word v => v

/-- The immediate bytes in address order. -/
def Imm.encoded : Imm → List Byte
  | .byte v => [v]
  | .word v => [lowByte v, highByte v]

/-- The one `Fetch` call that reads the immediate (R68). -/
def Imm.fetches : Imm → List Nat
  | .byte _ => [1]
  | .word _ => [2]

/-- `ExtractDisp` (R130) on the bytes after the addressing byte: a two-byte read with one byte left is no read
(R133). -/
def takeDisp : SizeTag → List Byte → Option (Disp × List Byte)
  | .szNone, bs => some (.none, bs)
  | .szOne, [] => none
  | .szOne, b :: bs => some (.byte b, bs)
  | .szTwo, [] => none
  | .szTwo, [_] => none
  | .szTwo, lo :: hi :: bs => some (.word (joinBytes lo hi), bs)

/-- The immediate of one byte, or of two when `two` holds (R68). -/
def takeImm (two : Bool) (bs : List Byte) : Option (Imm × List Byte) :=
  match two, bs with
  | false, b :: rest => some (.byte b, rest)
  | true, lo :: hi :: rest => some (.word (joinBytes lo hi), rest)
  | _, _ => none

/-! ### Instructions by family -/

/-- The `*_RM_REG` instruction of an operation. -/
def aluRmReg : AluOp → Bool → Bool → BitVec 2 → BitVec 3 → BitVec 3 → Disp → Instr
  | .add => .addRmReg
  | .or => .orRmReg
  | .adc => .adcRmReg
  | .sbb => .sbbRmReg
  | .and => .andRmReg
  | .sub => .subRmReg
  | .xor => .xorRmReg
  | .cmp => .cmpRmReg

/-- The `*_ACC_IMM` instruction of an operation. -/
def aluAccImm : AluOp → Bool → Imm → Instr
  | .add => .addAccImm
  | .or => .orAccImm
  | .adc => .adcAccImm
  | .sbb => .sbbAccImm
  | .and => .andAccImm
  | .sub => .subAccImm
  | .xor => .xorAccImm
  | .cmp => .cmpAccImm

/-- The `*_RM_IMM` instruction of an operation. -/
def aluRmImm : AluOp → Bool → Bool → BitVec 2 → BitVec 3 → Disp → Imm → Instr
  | .add => .addRmImm
  | .or => .orRmImm
  | .adc => .adcRmImm
  | .sbb => .sbbRmImm
  | .and => .andRmImm
  | .sub => .subRmImm
  | .xor => .xorRmImm
  | .cmp => .cmpRmImm

/-! ### The handlers -/

/-- `DecodeStd` (44_standard_format.md R141): `rest` are the bytes after the opcode byte, `mk` the instruction of
the tag. -/
def decodeStd (mk : Bool → Bool → BitVec 2 → BitVec 3 → BitVec 3 → Disp → Instr) (b0 : Byte)
    (rest : List Byte) : DecodeResult :=
  match rest with
  | [] => .truncated 1
  | m :: rest =>
    match takeDisp (parseMode (split m).1 (split m).2.2).2 rest with
    | none => .truncated 2
    | some (disp, rest) =>
      .ok (mk (b0.getLsbD 1) (b0.getLsbD 0) (split m).1 (split m).2.1 (split m).2.2 disp) rest

/-- `DecodeRmImm` (45_irregular_formats.md R171): `m` is the byte the resolver saw, `rest` the bytes after it.
The displacement comes first, then the immediate of two bytes when `s` = 0 and `w` = 1, else of one. -/
def decodeRmImm (op : AluOp) (b0 m : Byte) (rest : List Byte) : DecodeResult :=
  match takeDisp (parseMode (split m).1 (split m).2.2).2 rest with
  | none => .truncated 2
  | some (disp, rest) =>
    match takeImm (!b0.getLsbD 1 && b0.getLsbD 0) rest with
    | none => .truncated (2 + disp.size.bytes)
    | some (imm, rest) =>
      .ok (aluRmImm op (b0.getLsbD 1) (b0.getLsbD 0) (split m).1 (split m).2.2 disp imm) rest

/-- `DecodeAccImm` (R162): an immediate of the operand's width. -/
def decodeAccImm (op : AluOp) (b0 : Byte) (rest : List Byte) : DecodeResult :=
  match takeImm (b0.getLsbD 0) rest with
  | none => .truncated 1
  | some (imm, rest) => .ok (aluAccImm op (b0.getLsbD 0) imm) rest

/-- `DecodeRegImm` (R180): the width is bit 3 of the opcode byte, the register bits 2 to 0. -/
def decodeRegImm (b0 : Byte) (rest : List Byte) : DecodeResult :=
  match takeImm (b0.getLsbD 3) rest with
  | none => .truncated 1
  | some (imm, rest) => .ok (.movRegImm (b0.getLsbD 3) (b0.extractLsb' 0 3) imm) rest

/-- The dispatch on the tag (R160, R161): `rest` are the bytes after b0, and after b1 where the resolver needed
it. An unrecognised byte is the instruction that raises `UNRESOLVED_TAG` (R192). -/
def decodeTag (tag : Tag) (b0 b1 : Byte) (rest : List Byte) : DecodeResult :=
  match tag with
  | .rmReg op => decodeStd (aluRmReg op) b0 rest
  | .movRmReg => decodeStd .movRmReg b0 rest
  | .rmImm op => decodeRmImm op b0 b1 rest
  | .accImm op => decodeAccImm op b0 rest
  | .movRegImm => decodeRegImm b0 rest
  | .nop => .ok .nop rest
  | .hlt => .ok .hlt rest
  | .cmc => .ok .cmc rest
  | .clc => .ok .clc rest
  | .stc => .ok .stc rest
  | .cli => .ok .cli rest
  | .sti => .ok .sti rest
  | .cld => .ok .cld rest
  | .std => .ok .std rest
  | .unrecognized => .ok (.unrecognized b0) rest

/-- `DecodeRest` (R161): the second byte is taken once, and only when the resolver needs it (R93). -/
def decodeRest (b0 : Byte) (rest : List Byte) : DecodeResult :=
  match needsSecond b0, rest with
  | true, [] => .truncated 1
  | true, b1 :: rest => decodeTag (resolve b0 b1) b0 b1 rest
  | false, rest => decodeTag (resolve b0 0) b0 0 rest

/-- `DecodeOne` (R161): the stand-alone entry, without the sentinel test. -/
def decodeOne : List Byte → DecodeResult
  | [] => .truncated 0
  | b0 :: rest => decodeRest b0 rest

/-- The decoder of the loop (46_fetch_decode_loop.md R201, R202): the byte 0x00 at an instruction boundary is the
sentinel, every other first byte is decoded as `DecodeOne` decodes it (R214). -/
def decode : List Byte → DecodeResult
  | [] => .truncated 0
  | b0 :: rest => if b0 = 0x00 then .ok .sentinel rest else decodeRest b0 rest

/-! ### The encoder -/

/-- The opcode byte `00ooo0dw` of an operation with register and r/m operand (30_encoding.md R63). -/
def aluStdOpcode (op : AluOp) (d w : Bool) : Byte :=
  0b00#2 ++ op.index ++ 0b0#1 ++ BitVec.ofBool d ++ BitVec.ofBool w

/-- The opcode byte `100010dw` of `MOV_RM_REG` (R63). -/
def movStdOpcode (d w : Bool) : Byte := 0b100010#6 ++ BitVec.ofBool d ++ BitVec.ofBool w

/-- The opcode byte `00ooo10w` of an operation on the accumulator (R63). -/
def accImmOpcode (op : AluOp) (w : Bool) : Byte := 0b00#2 ++ op.index ++ 0b10#2 ++ BitVec.ofBool w

/-- The opcode byte `100000sw` of the 0x80 to 0x83 family (R63). -/
def rmImmOpcode (s w : Bool) : Byte := 0b100000#6 ++ BitVec.ofBool s ++ BitVec.ofBool w

/-- The opcode byte `1011wrrr` of `MOV_REG_IMM` (R63). -/
def regImmOpcode (w : Bool) (reg : BitVec 3) : Byte := 0b1011#4 ++ BitVec.ofBool w ++ reg

/-- The addressing byte of its three fields, m = 64·mod + 8·reg + rm (R64). -/
def modRmByte (mod : BitVec 2) (reg rm : BitVec 3) : Byte := mod ++ reg ++ rm

/-- The bytes of a standard-format instruction (R62). -/
def encodeStd (opcode : Byte) (mod : BitVec 2) (reg rm : BitVec 3) (disp : Disp) : List Byte :=
  opcode :: modRmByte mod reg rm :: disp.encoded

/-- The bytes of a register/memory-with-immediate instruction (R62); the reg field is the sub-opcode. -/
def encodeRmImm (op : AluOp) (s w : Bool) (mod : BitVec 2) (rm : BitVec 3) (disp : Disp) (imm : Imm) :
    List Byte :=
  rmImmOpcode s w :: modRmByte mod op.index rm :: (disp.encoded ++ imm.encoded)

/-- The bytes of an instruction in address order, from the encodings of 30_encoding.md R62 and R63. -/
def encode : Instr → List Byte
  | .addRmReg d w mod reg rm disp => encodeStd (aluStdOpcode .add d w) mod reg rm disp
  | .orRmReg d w mod reg rm disp => encodeStd (aluStdOpcode .or d w) mod reg rm disp
  | .adcRmReg d w mod reg rm disp => encodeStd (aluStdOpcode .adc d w) mod reg rm disp
  | .sbbRmReg d w mod reg rm disp => encodeStd (aluStdOpcode .sbb d w) mod reg rm disp
  | .andRmReg d w mod reg rm disp => encodeStd (aluStdOpcode .and d w) mod reg rm disp
  | .subRmReg d w mod reg rm disp => encodeStd (aluStdOpcode .sub d w) mod reg rm disp
  | .xorRmReg d w mod reg rm disp => encodeStd (aluStdOpcode .xor d w) mod reg rm disp
  | .cmpRmReg d w mod reg rm disp => encodeStd (aluStdOpcode .cmp d w) mod reg rm disp
  | .movRmReg d w mod reg rm disp => encodeStd (movStdOpcode d w) mod reg rm disp
  | .addAccImm w imm => accImmOpcode .add w :: imm.encoded
  | .orAccImm w imm => accImmOpcode .or w :: imm.encoded
  | .adcAccImm w imm => accImmOpcode .adc w :: imm.encoded
  | .sbbAccImm w imm => accImmOpcode .sbb w :: imm.encoded
  | .andAccImm w imm => accImmOpcode .and w :: imm.encoded
  | .subAccImm w imm => accImmOpcode .sub w :: imm.encoded
  | .xorAccImm w imm => accImmOpcode .xor w :: imm.encoded
  | .cmpAccImm w imm => accImmOpcode .cmp w :: imm.encoded
  | .addRmImm s w mod rm disp imm => encodeRmImm .add s w mod rm disp imm
  | .orRmImm s w mod rm disp imm => encodeRmImm .or s w mod rm disp imm
  | .adcRmImm s w mod rm disp imm => encodeRmImm .adc s w mod rm disp imm
  | .sbbRmImm s w mod rm disp imm => encodeRmImm .sbb s w mod rm disp imm
  | .andRmImm s w mod rm disp imm => encodeRmImm .and s w mod rm disp imm
  | .subRmImm s w mod rm disp imm => encodeRmImm .sub s w mod rm disp imm
  | .xorRmImm s w mod rm disp imm => encodeRmImm .xor s w mod rm disp imm
  | .cmpRmImm s w mod rm disp imm => encodeRmImm .cmp s w mod rm disp imm
  | .movRegImm w reg imm => regImmOpcode w reg :: imm.encoded
  | .nop => [0x90]
  | .hlt => [0xF4]
  | .cmc => [0xF5]
  | .clc => [0xF8]
  | .stc => [0xF9]
  | .cli => [0xFA]
  | .sti => [0xFB]
  | .cld => [0xFC]
  | .std => [0xFD]
  | .sentinel => [0x00]
  | .unrecognized b0 => [b0]

/-- `DispBytes` of an addressing byte (R61). -/
def dispBytes (m : Byte) : Nat :=
  if m.extractLsb' 6 2 = 3 then 0
  else if m.extractLsb' 6 2 = 0 then (if m.extractLsb' 0 3 = 6 then 2 else 0)
  else if m.extractLsb' 6 2 = 1 then 1
  else 2

/-- `Length` (R61), from the format, the opcode byte and the addressing byte. -/
def lengthOf (f : Format) (m b0 : Byte) : Nat :=
  match f with
  | .std => 2 + dispBytes m
  | .rmImm => 2 + dispBytes m + (if b0.extractLsb' 0 2 = 1 then 2 else 1)
  | .accImm => 1 + (if b0.getLsbD 0 then 2 else 1)
  | .regImm => 1 + (if b0.getLsbD 3 then 2 else 1)
  | .noOperand => 1

/-! ### The opcode table -/

/-- The table's row of one tag, from its `match` and `mask` numbers (R78). -/
def row (pattern mask : Word) (tag : Tag) : TableRow := ⟨mask, pattern, tag⟩

/-- The rows of single opcode bytes of opcode_table.json (R78). -/
def exactRows : List TableRow :=
  [ row 0x9000 0xFF00 .nop
  , row 0xF400 0xFF00 .hlt
  , row 0xF500 0xFF00 .cmc
  , row 0xF800 0xFF00 .clc
  , row 0xF900 0xFF00 .stc
  , row 0xFA00 0xFF00 .cli
  , row 0xFB00 0xFF00 .sti
  , row 0xFC00 0xFF00 .cld
  , row 0xFD00 0xFF00 .std ]

/-- The rows of the 0x80 to 0x83 family of opcode_table.json (R78). -/
def rmImmRows : List TableRow :=
  [ row 0x8000 0xFC38 (.rmImm .add)
  , row 0x8008 0xFC38 (.rmImm .or)
  , row 0x8010 0xFC38 (.rmImm .adc)
  , row 0x8018 0xFC38 (.rmImm .sbb)
  , row 0x8020 0xFC38 (.rmImm .and)
  , row 0x8028 0xFC38 (.rmImm .sub)
  , row 0x8030 0xFC38 (.rmImm .xor)
  , row 0x8038 0xFC38 (.rmImm .cmp) ]

/-- The accumulator rows of opcode_table.json (R78). -/
def accImmRows : List TableRow :=
  [ row 0x0400 0xFE00 (.accImm .add)
  , row 0x0C00 0xFE00 (.accImm .or)
  , row 0x1400 0xFE00 (.accImm .adc)
  , row 0x1C00 0xFE00 (.accImm .sbb)
  , row 0x2400 0xFE00 (.accImm .and)
  , row 0x2C00 0xFE00 (.accImm .sub)
  , row 0x3400 0xFE00 (.accImm .xor)
  , row 0x3C00 0xFE00 (.accImm .cmp) ]

/-- The standard-format and register-immediate rows of opcode_table.json (R78). -/
def stdRows : List TableRow :=
  [ row 0x0000 0xFC00 (.rmReg .add)
  , row 0x0800 0xFC00 (.rmReg .or)
  , row 0x1000 0xFC00 (.rmReg .adc)
  , row 0x1800 0xFC00 (.rmReg .sbb)
  , row 0x2000 0xFC00 (.rmReg .and)
  , row 0x2800 0xFC00 (.rmReg .sub)
  , row 0x3000 0xFC00 (.rmReg .xor)
  , row 0x3800 0xFC00 (.rmReg .cmp)
  , row 0x8800 0xFC00 .movRmReg
  , row 0xB000 0xF000 .movRegImm ]

/-- The rows of unrecognised opcode bytes of opcode_table.json (R78). -/
def unrecognizedRows : List TableRow :=
  [ row 0x0600 0xFE00 .unrecognized
  , row 0x0E00 0xFE00 .unrecognized
  , row 0x1600 0xFE00 .unrecognized
  , row 0x1E00 0xFE00 .unrecognized
  , row 0x2600 0xFE00 .unrecognized
  , row 0x2E00 0xFE00 .unrecognized
  , row 0x3600 0xFE00 .unrecognized
  , row 0x3E00 0xFE00 .unrecognized
  , row 0x4000 0xC000 .unrecognized
  , row 0x8400 0xFC00 .unrecognized
  , row 0x8C00 0xFC00 .unrecognized
  , row 0x9100 0xFF00 .unrecognized
  , row 0x9200 0xFE00 .unrecognized
  , row 0x9400 0xFC00 .unrecognized
  , row 0x9800 0xF800 .unrecognized
  , row 0xA000 0xF000 .unrecognized
  , row 0xC000 0xE000 .unrecognized
  , row 0xE000 0xF000 .unrecognized
  , row 0xF000 0xFC00 .unrecognized
  , row 0xF600 0xFE00 .unrecognized
  , row 0xFE00 0xFE00 .unrecognized ]

/-- The 56 rows of opcode_table.json that apply at every entry; the sentinel row (`match` 0x0000, `mask` 0xFF00)
applies only at an instruction boundary inside the loop and stands in `decode` (R78). -/
def opcodeTable : List TableRow := exactRows ++ rmImmRows ++ accImmRows ++ stdRows ++ unrecognizedRows

/-- Whether a row matches `b0 ++ b1` (R78). -/
def TableRow.hits (r : TableRow) (b0 b1 : Byte) : Bool := (b0 ++ b1 : Word) &&& r.mask == r.pattern

/-- The tag of the first row that matches (R78). -/
def tableTag (b0 b1 : Byte) : Option Tag := (opcodeTable.find? fun r => r.hits b0 b1).map (·.tag)

/-! ### The table's words -/

/-- Byte `k` of a number, byte 0 the least significant. -/
def natByte (v k : Nat) : Byte := BitVec.ofNat 8 (v / 256 ^ k)

/-- The bytes of an instruction whose bits are `v` as opcode_table.json numbers them: its words are 16 bits,
b0 in bits 15 to 8 and the following byte in bits 7 to 0 (R78), and a later word counts on from there.
A row of 8 bits is the one byte b0. Six bytes, the longest instruction; bits above `nbits` are 0 (log entry 7). -/
def tableBytes (nbits v : Nat) : List Byte :=
  let u := v % 2 ^ nbits
  if nbits ≤ 8 then [natByte u 0, 0, 0, 0, 0, 0]
  else [natByte u 1, natByte u 0, natByte u 3, natByte u 2, natByte u 5, natByte u 4]

/-- The instruction the loop's decoder reads from a word of opcode_table.json. -/
def decodeTableWord (nbits w : Nat) : Option Instr :=
  match decode (tableBytes nbits w) with
  | .ok i _ => some i
  | .truncated _ => none

end Sys2Proof
end

