-- ==== Sys2Proof/Machine/State.lean ====
section
/-! DEFINITION. The state of the machine (10_state.md): everything R10 lists, as plain data, with its reset
value (R31), and the reasons a step can stop without a next state. -/

namespace Sys2Proof.Machine

/-- A buffer of bytes by address: addresses strictly rising, no entry equal to what an unlisted address reads as
(`Memory.unlisted` of Machine/Ops.lean). It holds the image, the trace buffer and the stack region. -/
abbrev Memory := List Host.Cell

/-- The loop state (R12): `FETCHING`, `CONTINUE`, `DONE`, `FAILED`. -/
inductive LoopState where
  | fetching | continuing | done | failed
  deriving DecidableEq, Repr

/-- `ErrKind`, the error kind of the session (R13). No input raises `malformedAddressing` (R254). -/
inductive ErrKind where
  | none | outOfBounds | unresolvedTag | bufferExhausted | malformedAddressing
  deriving DecidableEq, Repr

/-- The general registers (R17), 16 bits each; their byte halves are views (Machine/Operands.lean). -/
structure Regs where
  ax : Word
  bx : Word
  cx : Word
  dx : Word
  sp : Word
  bp : Word
  si : Word
  di : Word
  deriving DecidableEq, Repr

/-- The segment registers (R19). -/
structure SegRegs where
  es : Word
  cs : Word
  ss : Word
  ds : Word
  deriving DecidableEq, Repr

/-- `DecodedInstr`, the record of one instruction (R26), with the operand descriptor of R25 in it. -/
structure DecodedInstr where
  /-- Address of the opcode byte. -/
  addr : Nat
  /-- Bytes consumed. -/
  len : Nat
  tag : Tag
  /-- The opcode byte b0. -/
  opcode : Byte
  /-- Whether the instruction has an addressing byte. -/
  hasModrm : Bool
  /-- Direction: 1 when the r/m operand flows to the register. -/
  d : Bool
  /-- Width: 1 for 16-bit operands. -/
  w : Bool
  mod : BitVec 2
  reg : BitVec 3
  rm : BitVec 3
  amode : AddrMode
  dispSize : SizeTag
  disp : Word
  /-- Sign-extend bit of the 0x80 to 0x83 family. -/
  s : Bool
  immSize : SizeTag
  imm : Word
  deriving DecidableEq, Repr

/-- The whole state (R10). `cfg` holds the parameters of R5, which no step changes (log entry 1). -/
structure State where
  cfg : Config
  /-- The instruction pointer, a natural number that never wraps (R11). -/
  ip : Nat
  /-- The loop state `state` (R12). -/
  loop : LoopState
  /-- The error kind (R13). -/
  err : ErrKind
  /-- Address of the failing instruction (R14). -/
  errAddr : Nat
  /-- The trace buffer (R15). -/
  out : Memory
  /-- The cursor of the trace buffer (R15). -/
  cur : Nat
  /-- The records emitted, in decode order (R27). -/
  emitted : List DecodedInstr
  /-- The advisory events (R28). -/
  log : List (Nat × Byte)
  /-- The memory image (R16). -/
  mem : Memory
  /-- The general registers (R17). -/
  regs : Regs
  /-- The segment registers (R19). -/
  segs : SegRegs
  /-- The flags register (R20). -/
  flags : Word
  /-- The stack region beside the image (R22). -/
  stack : Memory
  deriving DecidableEq, Repr

/-- The machine never faults: every error of the block is a recorded outcome, the state `FAILED` (R250, R258, R260),
so this type has no constructor (log entry 16). -/
inductive Fault where
  deriving DecidableEq, Repr

/-- Why a step has no meaning in the model. -/
inductive Refusal where
  /-- Raised by `exec`'s arm of an instruction with no meaning yet (none is left); safe. -/
  | notModelled (mnemonic : String)
  /-- Raised by `step` when the parameters are outside the constraints of R5: U3 of
  93_implementation_defined.md treats that as `refuse`; safe (log entry 12). -/
  | parametersOutOfRange
  deriving DecidableEq, Repr

/-- What a step answers. -/
abbrev Result := Host.Outcome State Fault Refusal

/-- All general registers zero (R31). -/
def Regs.zero : Regs := ⟨0, 0, 0, 0, 0, 0, 0, 0⟩

/-- All segment registers zero (R31). -/
def SegRegs.zero : SegRegs := ⟨0, 0, 0, 0⟩

/-- The machine right after `Init` (R31, R280), for the parameters of `Config.atReset`.
DESIGN CHOICE (log entries 5, 6): the image and the trace buffer, which `Init` leaves as the environment
supplied them, list nothing here and so read as zero. -/
def State.reset : State where
  cfg := Config.atReset
  ip := Config.atReset.programStart
  loop := .fetching
  err := .none
  errAddr := 0
  out := []
  cur := 0
  emitted := []
  log := []
  mem := []
  regs := Regs.zero
  segs := SegRegs.zero
  flags := 0
  stack := []

end Sys2Proof.Machine
end

