-- ==== Sys2Proof/Machine/Ops.lean ====
section
/-! DEFINITION. The named operations over the state: bytes of a buffer, the accessor `Fetch` and the
model-level `MemRead` and `MemWrite` (20_memory.md), the entry into `FAILED` (60_exceptions.md R260) and the
only way out of it, `Init` (70_reset_and_hazards.md R280), the log, the loader and the status port. -/

namespace Sys2Proof.Machine

/-! ### Bytes of a buffer -/

/-- What an address that a buffer does not list reads as. DESIGN CHOICE (log entries 5, 6): every address holds
some byte (R16) and the spec gives no value where the environment wrote none (D38, U2). -/
def Memory.unlisted : Byte := 0

/-- The byte at an address. -/
def Memory.read : Memory → Nat → Byte
  | [], _ => Memory.unlisted
  | (b, v) :: rest, a => if b = a then v else Memory.read rest a

/-- The entry of an address in front of a buffer, left out when the buffer reads so without it. -/
def Memory.cons (a : Nat) (v : Byte) (m : Memory) : Memory :=
  if v = Memory.unlisted then m else (a, v) :: m

/-- A byte written; keeps the canonical form. -/
def Memory.write : Memory → Nat → Byte → Memory
  | [], a, v => Memory.cons a v []
  | (b, u) :: rest, a, v =>
    if a < b then Memory.cons a v ((b, u) :: rest)
    else if a = b then Memory.cons a v rest
    else (b, u) :: Memory.write rest a v

/-- Bytes written at rising addresses. -/
def Memory.writeAll : Memory → Nat → List Byte → Memory
  | m, _, [] => m
  | m, a, v :: vs => Memory.writeAll (Memory.write m a v) (a + 1) vs

/-- The bytes at `n` addresses from `a`. -/
def Memory.bytes (m : Memory) (a : Nat) : Nat → List Byte
  | 0 => []
  | n + 1 => Memory.read m a :: Memory.bytes m (a + 1) n

/-- The canonical form from address `lo` on, with every listed address below `bound`. -/
def Memory.wfFrom (bound : Nat) : Nat → Memory → Bool
  | _, [] => true
  | lo, (a, v) :: rest =>
    decide (lo ≤ a) && decide (a < bound) && decide (v ≠ Memory.unlisted) && Memory.wfFrom bound (a + 1) rest

/-- The canonical form of a buffer of `bound` bytes: addresses strictly rising and below `bound`, no entry equal to
what an unlisted address reads as. -/
def Memory.wf (bound : Nat) (m : Memory) : Bool := Memory.wfFrom bound 0 m

/-! ### Operations that may raise -/

/-- What an operation answers: a value, or one error kind (00_scope.md R7, `raise`), each with the state it leaves:
what was changed before a raise stands (R202). -/
inductive Attempt (α : Type) where
  | ok (a : α) (s : State)
  | raised (k : ErrKind) (s : State)

/-- `f(...)?` (R7): go on with the value, or propagate the error unchanged (R259). -/
def Attempt.bind {α β : Type} (x : Attempt α) (f : α → State → Attempt β) : Attempt β :=
  match x with
  | .ok a s => f a s
  | .raised k s => .raised k s

/-- `Fetch(n)` (20_memory.md R41): `n` = 1 or 2 bytes at the instruction pointer, little-endian; checked before any
byte is read, and on failure the state is unchanged. R41 gives n in {1, 2} only: for another `n` the answer is the
model's (DESIGN CHOICE, log entry 22). -/
def fetch (n : Nat) (s : State) : Attempt Word :=
  if s.cfg.memSize < s.ip + n then .raised .outOfBounds s
  else
    .ok (if n = 1 then zext16 (s.mem.read s.ip) else joinBytes (s.mem.read s.ip) (s.mem.read (s.ip + 1)))
      { s with ip := s.ip + n }

/-- `MemRead(addr, n)` (R43), `n` = 1 or 2: a bounds-checked read at any address; no rule of the block calls it. For
another `n` the answer is the model's (DESIGN CHOICE, log entry 22). -/
def memRead (addr n : Nat) (s : State) : Attempt Word :=
  if s.cfg.memSize < addr + n then .raised .outOfBounds s
  else .ok (if n = 1 then zext16 (s.mem.read addr) else joinBytes (s.mem.read addr) (s.mem.read (addr + 1))) s

/-- `MemWrite(addr, n, v)` (R44), `n` = 1 or 2: nothing is written when the access is out of bounds; the low byte goes to the lower
address. No rule of the block calls it. For another `n` the answer is the model's (DESIGN CHOICE, log entry 22). -/
def memWrite (addr n : Nat) (v : Word) (s : State) : Attempt Unit :=
  if s.cfg.memSize < addr + n then .raised .outOfBounds s
  else if n = 1 then .ok () { s with mem := s.mem.write addr (lowByte v) }
  else .ok () { s with mem := (s.mem.write addr (lowByte v)).write (addr + 1) (highByte v) }

/-- The `Fetch` calls of an instruction one after the other (30_encoding.md R62), for what they do to the instruction
pointer: the first that fails raises, with the advance of the ones before it kept (60_exceptions.md R261). -/
def consume : List Nat → State → Attempt Unit
  | [], s => .ok () s
  | n :: ns, s => (fetch n s).bind fun _ s => consume ns s

/-- The bytes the decoder looks at from the instruction pointer: the longest instruction has six (R61), and none lies
at or beyond `MEM_SIZE` (R45). Looking moves nothing; `consume` does (log entry 14). -/
def window (s : State) : List Byte := s.mem.bytes s.ip (min 6 (s.cfg.memSize - s.ip))

/-! ### Errors and reset -/

/-- Entry into `FAILED` (60_exceptions.md R260) on a raise of kind `k` in the step that began at `ip0`: the cause and
the address of the failing instruction are recorded, and nothing else changes. -/
def trap (k : ErrKind) (ip0 : Nat) (s : State) : State :=
  { s with loop := .failed, err := k, errAddr := ip0 }

/-- `Init` (70_reset_and_hazards.md R280): the image and the trace buffer stay (R281), everything else takes its reset
value. It is the only way out of `DONE` and `FAILED` (R208, R264). -/
def init (s : State) : State where
  cfg := s.cfg
  ip := s.cfg.programStart
  loop := .fetching
  err := .none
  errAddr := 0
  out := s.out
  cur := 0
  emitted := []
  log := []
  mem := s.mem
  regs := Regs.zero
  segs := SegRegs.zero
  flags := 0
  stack := []

/-- The event of an unrecognised opcode byte (60_exceptions.md R268). -/
def logEvent (addr : Nat) (b0 : Byte) (s : State) : State := { s with log := s.log ++ [(addr, b0)] }

/-- The external loader (70_reset_and_hazards.md R290 item 2): bytes put into the image from an address on, those that
lie inside it. -/
def loadBytes (addr : Nat) (bs : List Byte) (s : State) : State :=
  { s with mem := s.mem.writeAll addr (bs.take (s.cfg.memSize - addr)) }

/-! ### The status port -/

/-- Whether the loop may take a step: `FETCHING` or `CONTINUE` (R202). -/
def LoopState.running : LoopState → Bool
  | .fetching => true
  | .continuing => true
  | .done => false
  | .failed => false

/-- The 2-bit encoding of the loop state (R12, D8). -/
def LoopState.code : LoopState → BitVec 2
  | .fetching => 0
  | .continuing => 1
  | .done => 2
  | .failed => 3

/-- The 3-bit encoding of the error kind (R13, D9). -/
def ErrKind.code : ErrKind → BitVec 3
  | .none => 0
  | .outOfBounds => 1
  | .unresolvedTag => 2
  | .bufferExhausted => 3
  | .malformedAddressing => 4

/-- The 16-bit instruction-pointer field of the register file, `ip[15:0]` (R21). -/
def ipView (s : State) : Word := BitVec.ofNat 16 s.ip

/-- The text produced so far, `out[0 .. cur-1]` (R15). -/
def traceText (s : State) : List Byte := s.out.bytes 0 s.cur

end Sys2Proof.Machine
end

