-- ==== Sys2Proof/Machine/Operands.lean ====
section
/-! DEFINITION. Registers by id and width (10_state.md R17, R18), the effective-address description and
`EffectiveAddress` (42_addressing_mode_parser.md R123, R127), and the operands a record denotes
(30_encoding.md R67). The block reads and writes no register; these are the register file's own operations and
what a consumer of records uses. The numbers are the spec's decisions D13, D30, D31. -/

namespace Sys2Proof.Machine

/-- The word registers in the order of their ids (R18). -/
inductive Reg16 where
  | ax | cx | dx | bx | sp | bp | si | di
  deriving DecidableEq, Repr

/-- The byte registers in the order of their ids (R18). -/
inductive Reg8 where
  | al | cl | dl | bl | ah | ch | dh | bh
  deriving DecidableEq, Repr

/-- The word register of an id (R18, column w = 1). -/
def Reg16.ofId (id : BitVec 3) : Reg16 := [Reg16.ax, .cx, .dx, .bx, .sp, .bp, .si, .di].getD id.toNat .di

/-- The byte register of an id (R18, column w = 0). -/
def Reg8.ofId (id : BitVec 3) : Reg8 := [Reg8.al, .cl, .dl, .bl, .ah, .ch, .dh, .bh].getD id.toNat .bh

/-- The value of a word register. -/
def Regs.read16 (x : Regs) : Reg16 → Word
  | .ax => x.ax
  | .cx => x.cx
  | .dx => x.dx
  | .bx => x.bx
  | .sp => x.sp
  | .bp => x.bp
  | .si => x.si
  | .di => x.di

/-- A word register written. -/
def Regs.write16 (x : Regs) (v : Word) : Reg16 → Regs
  | .ax => { x with ax := v }
  | .cx => { x with cx := v }
  | .dx => { x with dx := v }
  | .bx => { x with bx := v }
  | .sp => { x with sp := v }
  | .bp => { x with bp := v }
  | .si => { x with si := v }
  | .di => { x with di := v }

/-- The word register a byte register is a half of (R17). -/
def Reg8.whole : Reg8 → Reg16
  | .al => .ax
  | .cl => .cx
  | .dl => .dx
  | .bl => .bx
  | .ah => .ax
  | .ch => .cx
  | .dh => .dx
  | .bh => .bx

/-- Whether a byte register is the high half, bits 15 to 8 (R17). -/
def Reg8.high : Reg8 → Bool
  | .al => false
  | .cl => false
  | .dl => false
  | .bl => false
  | .ah => true
  | .ch => true
  | .dh => true
  | .bh => true

/-- The value of a byte register: the half of the word register it aliases (R17). -/
def Regs.read8 (x : Regs) (r : Reg8) : Byte :=
  if r.high then highByte (x.read16 r.whole) else lowByte (x.read16 r.whole)

/-- A byte register written: the other half of the word register stays (R17). -/
def Regs.write8 (x : Regs) (v : Byte) (r : Reg8) : Regs :=
  if r.high then x.write16 (joinBytes (lowByte (x.read16 r.whole)) v) r.whole
  else x.write16 (joinBytes v (highByte (x.read16 r.whole))) r.whole

/-- The value of register `id` of width `w` (R18), a byte zero-extended. -/
def Regs.readId (x : Regs) (id : BitVec 3) (w : Bool) : Word :=
  if w then x.read16 (Reg16.ofId id) else zext16 (x.read8 (Reg8.ofId id))

/-- Register `id` of width `w` written (R18), a byte from bits 7 to 0. -/
def Regs.writeId (x : Regs) (id : BitVec 3) (w : Bool) (v : Word) : Regs :=
  if w then x.write16 v (Reg16.ofId id) else x.write8 (lowByte v) (Reg8.ofId id)

/-! ### The effective address -/

/-- `EaBase(rm)` (R123). -/
def eaBase (rm : BitVec 3) : Option Reg16 :=
  [some Reg16.bx, some .bx, some .bp, some .bp, none, none, some .bp, some .bx].getD rm.toNat none

/-- `EaIndex(rm)` (R123). -/
def eaIndex (rm : BitVec 3) : Option Reg16 :=
  [some Reg16.si, some .di, some .si, some .di, some .si, some .di, none, none].getD rm.toNat none

/-- The value of a register that may be absent: 0 then (R127). -/
def Regs.readOpt (x : Regs) : Option Reg16 → Word
  | some r => x.read16 r
  | none => 0

/-- The address that a mode, an rm field and a displacement describe, modulo 2^16 (R127). -/
def addressOf (amode : AddrMode) (rm : BitVec 3) (disp : Word) (x : Regs) : Word :=
  if amode = .memDirect then disp else x.readOpt (eaBase rm) + x.readOpt (eaIndex rm) + disp

/-- `EffectiveAddress(r, x)` (R127), for a record of a memory mode. For one of `REG_DIRECT` or `NO_MODRM`, which describes
no address, the answer is the model's (DESIGN CHOICE, log entry 23). -/
def effectiveAddress (r : DecodedInstr) (x : Regs) : Word := addressOf r.amode r.rm r.disp x

/-! ### Operands of a record -/

/-- An operand a record denotes (R67). -/
inductive Operand where
  /-- Register `id` of width `w`. -/
  | reg (id : BitVec 3) (w : Bool)
  /-- The memory operand of width `w` that (`amode`, `rm`, `disp`) describe. -/
  | memory (amode : AddrMode) (rm : BitVec 3) (disp : Word) (w : Bool)
  /-- An immediate. -/
  | imm (v : Word)
  deriving DecidableEq, Repr

/-- The r/m operand of a record of format `STD` or `RM_IMM` (R67, R142). The spec gives a `NO_MODRM` record none (R122): the
memory operand answered for one is the model's (DESIGN CHOICE, log entry 23). -/
def rmOperand (r : DecodedInstr) : Operand :=
  if r.amode = .regDirect then .reg r.rm r.w else .memory r.amode r.rm r.disp r.w

/-- Destination and source of a record, in that order (R67, R142); a single-byte instruction has no operands. -/
def operands (r : DecodedInstr) : Option (Operand × Operand) :=
  match formatOf r.tag with
  | some .std => if r.d then some (.reg r.reg r.w, rmOperand r) else some (rmOperand r, .reg r.reg r.w)
  | some .rmImm => some (rmOperand r, .imm r.imm)
  | some .accImm => some (.reg 0 r.w, .imm r.imm)
  | some .regImm => some (.reg r.reg r.w, .imm r.imm)
  | some .noOperand => none
  | none => none

/-- What a consumer of a record reads at its operand: a register, the memory at the effective address through `MemRead`
(R127, R43), or the immediate. -/
def operandValue (o : Operand) (s : State) : Attempt Word :=
  match o with
  | .reg id w => .ok (s.regs.readId id w) s
  | .imm v => .ok v s
  | .memory amode rm disp w => memRead (addressOf amode rm disp s.regs).toNat (if w then 2 else 1) s

end Sys2Proof.Machine
end

