-- ==== Sys2Proof/Machine/Formatter.lean ====
section
/-! DEFINITION. The trace stage (47_formatter.md): the text line of a record and the bounds-checked append. Text is a
list of 7-bit character codes, one per element of `out` (R221). The spelling is the spec's decision D20. -/

namespace Sys2Proof.Machine

/-- Character codes of a piece of text. -/
def ascii (cs : List Char) : List Byte := cs.map fun c => BitVec.ofNat 8 c.toNat

/-- The line feed, code 0x0A (R221). -/
def newline : Byte := 0x0A

/-! ### Names and numbers -/

/-- The operation names of R97. -/
def AluOp.text : AluOp → List Byte
  | .add => ascii ['a', 'd', 'd']
  | .or => ascii ['o', 'r']
  | .adc => ascii ['a', 'd', 'c']
  | .sbb => ascii ['s', 'b', 'b']
  | .and => ascii ['a', 'n', 'd']
  | .sub => ascii ['s', 'u', 'b']
  | .xor => ascii ['x', 'o', 'r']
  | .cmp => ascii ['c', 'm', 'p']

/-- `Mnemonic` (40_opcode_resolver.md R97); `UNRECOGNIZED` has none. -/
def mnemonic : Tag → Option (List Byte)
  | .rmReg op => some (AluOp.text op)
  | .accImm op => some (AluOp.text op)
  | .rmImm op => some (AluOp.text op)
  | .movRmReg => some (ascii ['m', 'o', 'v'])
  | .movRegImm => some (ascii ['m', 'o', 'v'])
  | .nop => some (ascii ['n', 'o', 'p'])
  | .hlt => some (ascii ['h', 'l', 't'])
  | .cmc => some (ascii ['c', 'm', 'c'])
  | .clc => some (ascii ['c', 'l', 'c'])
  | .stc => some (ascii ['s', 't', 'c'])
  | .cli => some (ascii ['c', 'l', 'i'])
  | .sti => some (ascii ['s', 't', 'i'])
  | .cld => some (ascii ['c', 'l', 'd'])
  | .std => some (ascii ['s', 't', 'd'])
  | .unrecognized => none

/-- The name of a byte register (R222). -/
def Reg8.text : Reg8 → List Byte
  | .al => ascii ['a', 'l']
  | .cl => ascii ['c', 'l']
  | .dl => ascii ['d', 'l']
  | .bl => ascii ['b', 'l']
  | .ah => ascii ['a', 'h']
  | .ch => ascii ['c', 'h']
  | .dh => ascii ['d', 'h']
  | .bh => ascii ['b', 'h']

/-- The name of a word register (R222). -/
def Reg16.text : Reg16 → List Byte
  | .ax => ascii ['a', 'x']
  | .cx => ascii ['c', 'x']
  | .dx => ascii ['d', 'x']
  | .bx => ascii ['b', 'x']
  | .sp => ascii ['s', 'p']
  | .bp => ascii ['b', 'p']
  | .si => ascii ['s', 'i']
  | .di => ascii ['d', 'i']

/-- `RegName(id, w)` (R222). -/
def regName (id : BitVec 3) (w : Bool) : List Byte :=
  if w then (Reg16.ofId id).text else (Reg8.ofId id).text

/-- The digits of `n` in front of `acc`, for at most `fuel` digits. -/
def decimalLoop : Nat → Nat → List Byte → List Byte
  | 0, _, acc => acc
  | fuel + 1, n, acc =>
    if n / 10 = 0 then BitVec.ofNat 8 (0x30 + n % 10) :: acc
    else decimalLoop fuel (n / 10) (BitVec.ofNat 8 (0x30 + n % 10) :: acc)

/-- `Decimal(n)` (R223): base-ten digits, most significant first, no leading zero; `n + 1` digits always suffice. -/
def decimal (n : Nat) : List Byte := decimalLoop (n + 1) n []

/-! ### Operands as text -/

/-- `EaText(rm)`: the "written" column of 42_addressing_mode_parser.md R123. -/
def eaText (rm : BitVec 3) : List Byte :=
  match eaBase rm, eaIndex rm with
  | some b, some i => b.text ++ ascii [' ', '+', ' '] ++ i.text
  | some b, none => b.text
  | none, some i => i.text
  | none, none => []

/-- A base and index with a signed displacement (R226): ` + ` or ` - ` and the magnitude. -/
def dispText (rm : BitVec 3) (disp : Word) : List Byte :=
  if 0 ≤ signed16 disp then
    ascii ['['] ++ eaText rm ++ ascii [' ', '+', ' '] ++ decimal (signed16 disp).toNat ++ ascii [']']
  else ascii ['['] ++ eaText rm ++ ascii [' ', '-', ' '] ++ decimal (-signed16 disp).toNat ++ ascii [']']

/-- `RmText(r)` (R226): the r/m operand; a displacement prints signed, a direct address unsigned (R227). A record
without an addressing byte has no r/m operand: its empty text is the model's (DESIGN CHOICE, log entry 23). -/
def rmText (r : DecodedInstr) : List Byte :=
  match r.amode with
  | .regDirect => regName r.rm r.w
  | .memDirect => ascii ['['] ++ decimal r.disp.toNat ++ ascii [']']
  | .memNoDisp => ascii ['['] ++ eaText r.rm ++ ascii [']']
  | .memDisp8 => dispText r.rm r.disp
  | .memDisp16 => dispText r.rm r.disp
  | .noModrm => []

/-- The r/m operand of the 0x80 to 0x83 family, with the size keyword in front of memory (R229). -/
def sizedRmText (r : DecodedInstr) : List Byte :=
  if r.amode = .regDirect then rmText r
  else if r.w then ascii ['w', 'o', 'r', 'd', ' '] ++ rmText r
  else ascii ['b', 'y', 't', 'e', ' '] ++ rmText r

/-- `mnemonic SP operand "," SP operand NL` (R221). -/
def twoOperandLine (mn a b : List Byte) : List Byte :=
  mn ++ ascii [' '] ++ a ++ ascii [',', ' '] ++ b ++ [newline]

/-- `Line(r)` (R224). A record never carries `UNRECOGNIZED`, which has no format and no mnemonic (R192): its text is
empty here. -/
def line (r : DecodedInstr) : List Byte :=
  match formatOf r.tag, mnemonic r.tag with
  | some .noOperand, some mn => mn ++ [newline]
  | some .std, some mn =>
    if r.d then twoOperandLine mn (regName r.reg r.w) (rmText r)
    else twoOperandLine mn (rmText r) (regName r.reg r.w)
  | some .rmImm, some mn => twoOperandLine mn (sizedRmText r) (decimal r.imm.toNat)
  | some .accImm, some mn => twoOperandLine mn (regName 0 r.w) (decimal r.imm.toNat)
  | some .regImm, some mn => twoOperandLine mn (regName r.reg r.w) (decimal r.imm.toNat)
  | none, _ => []
  | _, none => []

/-! ### The buffer -/

/-- `Append(t)` (R235): the whole text or nothing, checked against the remaining capacity before any write. -/
def append (t : List Byte) (s : State) : Attempt Unit :=
  if s.cfg.outCap - s.cur < t.length then .raised .bufferExhausted s
  else .ok () { s with out := s.out.writeAll s.cur t, cur := s.cur + t.length }

/-- The trace stage of one record: present when `TRACE` holds (R220). -/
def traceStage (r : DecodedInstr) (s : State) : Attempt Unit :=
  if s.cfg.trace then append (line r) s else .ok () s

end Sys2Proof.Machine
end

