-- ==== Sys2Proof/Machine/Record.lean ====
section
/-! DEFINITION. What every meaning is made of: the record of each format (30_encoding.md R62, 10_state.md R26) and what
the loop does with it (46_fetch_decode_loop.md R202). The meanings of the families differ in the record and in the
`Fetch` calls only (R153, R193). -/

namespace Sys2Proof.Machine

/-! ### Records of the formats -/

/-- The record with every field zero, `amode` = `NO_MODRM` and sizes `SZ_NONE` (R161): the canonical form's base (R26).
Its tag is set before it is used. -/
def emptyRecord : DecodedInstr where
  addr := 0
  len := 0
  tag := .unrecognized
  opcode := 0
  hasModrm := false
  d := false
  w := false
  mod := 0
  reg := 0
  rm := 0
  amode := .noModrm
  dispSize := .szNone
  disp := 0
  s := false
  immSize := .szNone
  imm := 0

/-- The record of format `STD` (44_standard_format.md R141). -/
def stdRecord (tag : Tag) (opcode : Byte) (d w : Bool) (mod : BitVec 2) (reg rm : BitVec 3) (disp : Disp) :
    DecodedInstr :=
  { emptyRecord with
    tag := tag, opcode := opcode, hasModrm := true, d := d, w := w, mod := mod, reg := reg, rm := rm,
    amode := (parseMode mod rm).1, dispSize := disp.size, disp := disp.value }

/-- The record of format `RM_IMM` (45_irregular_formats.md R171); `reg` is the sub-opcode. -/
def rmImmRecord (op : AluOp) (s w : Bool) (mod : BitVec 2) (rm : BitVec 3) (disp : Disp) (imm : Imm) :
    DecodedInstr :=
  { emptyRecord with
    tag := .rmImm op, opcode := rmImmOpcode s w, hasModrm := true, w := w, mod := mod, reg := op.index, rm := rm,
    amode := (parseMode mod rm).1, dispSize := disp.size, disp := disp.value, s := s,
    immSize := imm.size, imm := imm.value (s && w) }

/-- The record of format `ACC_IMM` (R162). -/
def accImmRecord (op : AluOp) (w : Bool) (imm : Imm) : DecodedInstr :=
  { emptyRecord with
    tag := .accImm op, opcode := accImmOpcode op w, w := w, immSize := imm.size, imm := imm.value false }

/-- The record of format `REG_IMM` (R180). -/
def regImmRecord (w : Bool) (reg : BitVec 3) (imm : Imm) : DecodedInstr :=
  { emptyRecord with
    tag := .movRegImm, opcode := regImmOpcode w reg, w := w, reg := reg, immSize := imm.size,
    imm := imm.value false }

/-- The record of format `NOOPERAND` (R182). -/
def noOperandRecord (tag : Tag) (opcode : Byte) : DecodedInstr := { emptyRecord with tag := tag, opcode := opcode }

/-! ### What the loop does with an instruction -/

/-- The record port (R27) and the transition to `CONTINUE` (R202). -/
def emit (r : DecodedInstr) (s : State) : State := { s with emitted := s.emitted ++ [r], loop := .continuing }

/-- The outcome of a step that began at `ip0` (R202): a raise enters `FAILED`; a record is traced, and emitted only when
its line was appended (R263). -/
def conclude (ip0 : Nat) : Attempt DecodedInstr → State
  | .raised k s => trap k ip0 s
  | .ok r s =>
    match traceStage r s with
    | .raised k s => trap k ip0 s
    | .ok _ s => emit r s

/-- One instruction from its boundary: its bytes are fetched in the order of its format, then its record, with the address
and the length measured (R161), is traced and emitted. -/
def retire (sizes : List Nat) (r : DecodedInstr) (s : State) : Result :=
  .next (conclude s.ip ((consume sizes s).bind fun _ t => .ok { r with addr := s.ip, len := t.ip - s.ip } t))

/-- An instruction of format `STD` (44_standard_format.md R141): b0, the addressing byte, the displacement. -/
def retireStd (tag : Tag) (opcode : Byte) (d w : Bool) (mod : BitVec 2) (reg rm : BitVec 3) (disp : Disp)
    (s : State) : Result :=
  retire ([1, 1] ++ disp.fetches) (stdRecord tag opcode d w mod reg rm disp) s

/-- An instruction of format `RM_IMM` (45_irregular_formats.md R171): b0, the addressing byte, the displacement, the
immediate. -/
def retireRmImm (op : AluOp) (sx w : Bool) (mod : BitVec 2) (rm : BitVec 3) (disp : Disp) (imm : Imm)
    (s : State) : Result :=
  retire ([1, 1] ++ disp.fetches ++ imm.fetches) (rmImmRecord op sx w mod rm disp imm) s

/-- An instruction of format `ACC_IMM` (R162): b0, the immediate. -/
def retireAccImm (op : AluOp) (w : Bool) (imm : Imm) (s : State) : Result :=
  retire ([1] ++ imm.fetches) (accImmRecord op w imm) s

/-- An instruction of format `NOOPERAND` (R182): b0 alone. -/
def retireNoOperand (tag : Tag) (opcode : Byte) (s : State) : Result :=
  retire [1] (noOperandRecord tag opcode) s

end Sys2Proof.Machine
end

