-- ==== Sys2Proof/Machine/AccImm.lean ====
section
/-! DEFINITION. The eight instructions of format `ACC_IMM` (45_irregular_formats.md R162 to R170): b0 = `00ooo10w` and an
immediate of the operand's width. They are decoded, not executed (R4 item 2). -/

namespace Sys2Proof.Machine

/-- `ADD_ACC_IMM` (R163). -/
def execAddAccImm (w : Bool) (imm : Imm) (s : State) : Result := retireAccImm .add w imm s

/-- `OR_ACC_IMM` (R164). -/
def execOrAccImm (w : Bool) (imm : Imm) (s : State) : Result := retireAccImm .or w imm s

/-- `ADC_ACC_IMM` (R165). -/
def execAdcAccImm (w : Bool) (imm : Imm) (s : State) : Result := retireAccImm .adc w imm s

/-- `SBB_ACC_IMM` (R166). -/
def execSbbAccImm (w : Bool) (imm : Imm) (s : State) : Result := retireAccImm .sbb w imm s

/-- `AND_ACC_IMM` (R167). -/
def execAndAccImm (w : Bool) (imm : Imm) (s : State) : Result := retireAccImm .and w imm s

/-- `SUB_ACC_IMM` (R168). -/
def execSubAccImm (w : Bool) (imm : Imm) (s : State) : Result := retireAccImm .sub w imm s

/-- `XOR_ACC_IMM` (R169). -/
def execXorAccImm (w : Bool) (imm : Imm) (s : State) : Result := retireAccImm .xor w imm s

/-- `CMP_ACC_IMM` (R170). -/
def execCmpAccImm (w : Bool) (imm : Imm) (s : State) : Result := retireAccImm .cmp w imm s

end Sys2Proof.Machine
end

