-- ==== Sys2Proof/Machine/Boundary.lean ====
section
/-! DEFINITION. The two rows of the table that end a session: the sentinel (46_fetch_decode_loop.md R201) and an
unrecognised opcode byte (45_irregular_formats.md R192). -/

namespace Sys2Proof.Machine

/-- The end of a step that met the sentinel (R202): `state` <- `DONE`; a raise of its one `Fetch` enters `FAILED`. -/
def concludeSentinel (ip0 : Nat) : Attempt Unit → State
  | .raised k s => trap k ip0 s
  | .ok _ s => { s with loop := .done }

/-- The sentinel byte 0x00 at an instruction boundary: consumed through `Fetch` (R206), no record, no line (R201). -/
def execSentinel (s : State) : Result := .next (concludeSentinel s.ip (consume [1] s))

/-- `UNRECOGNIZED` (R192): after b0 is fetched, the event (address, b0) is logged and `UNRESOLVED_TAG` is raised (R252,
R268). -/
def execUnrecognized (b0 : Byte) (s : State) : Result :=
  .next (conclude s.ip ((consume [1] s).bind fun _ t => .raised .unresolvedTag (logEvent s.ip b0 t)))

end Sys2Proof.Machine
end

