-- ==== Sys2Proof/Machine/NoOperand.lean ====
section
/-! DEFINITION. The nine single-byte instructions (45_irregular_formats.md R182 to R191). The block executes none of them:
`HLT` does not stop the loop, `CLI` and `STI` mask nothing, and the flag instructions leave the flags register
untouched (R182). -/

namespace Sys2Proof.Machine

/-- `NOP` (R183). -/
def execNop (s : State) : Result := retireNoOperand .nop 0x90 s

/-- `HLT` (R184). -/
def execHlt (s : State) : Result := retireNoOperand .hlt 0xF4 s

/-- `CMC` (R185). -/
def execCmc (s : State) : Result := retireNoOperand .cmc 0xF5 s

/-- `CLC` (R186). -/
def execClc (s : State) : Result := retireNoOperand .clc 0xF8 s

/-- `STC` (R187). -/
def execStc (s : State) : Result := retireNoOperand .stc 0xF9 s

/-- `CLI` (R188). -/
def execCli (s : State) : Result := retireNoOperand .cli 0xFA s

/-- `STI` (R189). -/
def execSti (s : State) : Result := retireNoOperand .sti 0xFB s

/-- `CLD` (R190). -/
def execCld (s : State) : Result := retireNoOperand .cld 0xFC s

/-- `STD` (R191). -/
def execStd (s : State) : Result := retireNoOperand .std 0xFD s

end Sys2Proof.Machine
end

