-- ==== Sys2Proof/Machine/RegImm.lean ====
section
/-! DEFINITION. The one instruction of format `REG_IMM` (45_irregular_formats.md R180, R181). It is decoded, not executed
(R4 item 2). -/

namespace Sys2Proof.Machine

/-- `MOV_REG_IMM` (R181): b0, then the immediate. -/
def execMovRegImm (w : Bool) (reg : BitVec 3) (imm : Imm) (s : State) : Result :=
  retire ([1] ++ imm.fetches) (regImmRecord w reg imm) s

end Sys2Proof.Machine
end

