-- ==== Sys2Proof/Machine/RmImm.lean ====
section
/-! DEFINITION. The eight instructions of format `RM_IMM`, the 0x80 to 0x83 family (45_irregular_formats.md R171 to
R179). They are decoded, not executed (R4 item 2). -/

namespace Sys2Proof.Machine

/-- `ADD_RM_IMM` (R172); sub-opcode 0. -/
def execAddRmImm (sx w : Bool) (mod : BitVec 2) (rm : BitVec 3) (disp : Disp) (imm : Imm) (s : State) : Result :=
  retireRmImm .add sx w mod rm disp imm s

/-- `OR_RM_IMM` (R173); sub-opcode 1. -/
def execOrRmImm (sx w : Bool) (mod : BitVec 2) (rm : BitVec 3) (disp : Disp) (imm : Imm) (s : State) : Result :=
  retireRmImm .or sx w mod rm disp imm s

/-- `ADC_RM_IMM` (R174); sub-opcode 2. -/
def execAdcRmImm (sx w : Bool) (mod : BitVec 2) (rm : BitVec 3) (disp : Disp) (imm : Imm) (s : State) : Result :=
  retireRmImm .adc sx w mod rm disp imm s

/-- `SBB_RM_IMM` (R175); sub-opcode 3. -/
def execSbbRmImm (sx w : Bool) (mod : BitVec 2) (rm : BitVec 3) (disp : Disp) (imm : Imm) (s : State) : Result :=
  retireRmImm .sbb sx w mod rm disp imm s

/-- `AND_RM_IMM` (R176); sub-opcode 4. -/
def execAndRmImm (sx w : Bool) (mod : BitVec 2) (rm : BitVec 3) (disp : Disp) (imm : Imm) (s : State) : Result :=
  retireRmImm .and sx w mod rm disp imm s

/-- `SUB_RM_IMM` (R177); sub-opcode 5. -/
def execSubRmImm (sx w : Bool) (mod : BitVec 2) (rm : BitVec 3) (disp : Disp) (imm : Imm) (s : State) : Result :=
  retireRmImm .sub sx w mod rm disp imm s

/-- `XOR_RM_IMM` (R178); sub-opcode 6. -/
def execXorRmImm (sx w : Bool) (mod : BitVec 2) (rm : BitVec 3) (disp : Disp) (imm : Imm) (s : State) : Result :=
  retireRmImm .xor sx w mod rm disp imm s

/-- `CMP_RM_IMM` (R179); sub-opcode 7. -/
def execCmpRmImm (sx w : Bool) (mod : BitVec 2) (rm : BitVec 3) (disp : Disp) (imm : Imm) (s : State) : Result :=
  retireRmImm .cmp sx w mod rm disp imm s

end Sys2Proof.Machine
end

