-- ==== Sys2Proof/Machine/Standard.lean ====
section
/-! DEFINITION. The nine instructions of format `STD` (44_standard_format.md). The block decodes them: it writes no
register, flag or memory (R4 item 2); what an instruction denotes on a processor is informative (R143). -/

namespace Sys2Proof.Machine

/-- `ADD_RM_REG` (R144); b0 = `00ooo0dw` with ooo = 0. -/
def execAddRmReg (d w : Bool) (mod : BitVec 2) (reg rm : BitVec 3) (disp : Disp) (s : State) : Result :=
  retireStd (.rmReg .add) (aluStdOpcode .add d w) d w mod reg rm disp s

/-- `OR_RM_REG` (R145); b0 = `00ooo0dw` with ooo = 1. -/
def execOrRmReg (d w : Bool) (mod : BitVec 2) (reg rm : BitVec 3) (disp : Disp) (s : State) : Result :=
  retireStd (.rmReg .or) (aluStdOpcode .or d w) d w mod reg rm disp s

/-- `ADC_RM_REG` (R146); b0 = `00ooo0dw` with ooo = 2. -/
def execAdcRmReg (d w : Bool) (mod : BitVec 2) (reg rm : BitVec 3) (disp : Disp) (s : State) : Result :=
  retireStd (.rmReg .adc) (aluStdOpcode .adc d w) d w mod reg rm disp s

/-- `SBB_RM_REG` (R147); b0 = `00ooo0dw` with ooo = 3. -/
def execSbbRmReg (d w : Bool) (mod : BitVec 2) (reg rm : BitVec 3) (disp : Disp) (s : State) : Result :=
  retireStd (.rmReg .sbb) (aluStdOpcode .sbb d w) d w mod reg rm disp s

/-- `AND_RM_REG` (R148); b0 = `00ooo0dw` with ooo = 4. -/
def execAndRmReg (d w : Bool) (mod : BitVec 2) (reg rm : BitVec 3) (disp : Disp) (s : State) : Result :=
  retireStd (.rmReg .and) (aluStdOpcode .and d w) d w mod reg rm disp s

/-- `SUB_RM_REG` (R149); b0 = `00ooo0dw` with ooo = 5. -/
def execSubRmReg (d w : Bool) (mod : BitVec 2) (reg rm : BitVec 3) (disp : Disp) (s : State) : Result :=
  retireStd (.rmReg .sub) (aluStdOpcode .sub d w) d w mod reg rm disp s

/-- `XOR_RM_REG` (R150); b0 = `00ooo0dw` with ooo = 6. -/
def execXorRmReg (d w : Bool) (mod : BitVec 2) (reg rm : BitVec 3) (disp : Disp) (s : State) : Result :=
  retireStd (.rmReg .xor) (aluStdOpcode .xor d w) d w mod reg rm disp s

/-- `CMP_RM_REG` (R151); b0 = `00ooo0dw` with ooo = 7. -/
def execCmpRmReg (d w : Bool) (mod : BitVec 2) (reg rm : BitVec 3) (disp : Disp) (s : State) : Result :=
  retireStd (.rmReg .cmp) (aluStdOpcode .cmp d w) d w mod reg rm disp s

/-- `MOV_RM_REG` (R152); b0 = `100010dw`. -/
def execMovRmReg (d w : Bool) (mod : BitVec 2) (reg rm : BitVec 3) (disp : Disp) (s : State) : Result :=
  retireStd .movRmReg (movStdOpcode d w) d w mod reg rm disp s

end Sys2Proof.Machine
end

