-- ==== Sys2Proof/Machine/Dispatch.lean ====
section
/-! DEFINITION. The dispatch: one arm per constructor of `Instr`, each a call of its meaning (45_irregular_formats.md R160).
`exec i s` is what the loop does with the instruction `i` standing at the instruction pointer of `s`. -/

namespace Sys2Proof.Machine

def exec (i : Instr) (s : State) : Host.Outcome State Fault Refusal :=
  match i with
  | .addRmReg d w mod reg rm disp => Sys2Proof.Machine.execAddRmReg d w mod reg rm disp s
  | .orRmReg d w mod reg rm disp => Sys2Proof.Machine.execOrRmReg d w mod reg rm disp s
  | .adcRmReg d w mod reg rm disp => Sys2Proof.Machine.execAdcRmReg d w mod reg rm disp s
  | .sbbRmReg d w mod reg rm disp => Sys2Proof.Machine.execSbbRmReg d w mod reg rm disp s
  | .andRmReg d w mod reg rm disp => Sys2Proof.Machine.execAndRmReg d w mod reg rm disp s
  | .subRmReg d w mod reg rm disp => Sys2Proof.Machine.execSubRmReg d w mod reg rm disp s
  | .xorRmReg d w mod reg rm disp => Sys2Proof.Machine.execXorRmReg d w mod reg rm disp s
  | .cmpRmReg d w mod reg rm disp => Sys2Proof.Machine.execCmpRmReg d w mod reg rm disp s
  | .movRmReg d w mod reg rm disp => Sys2Proof.Machine.execMovRmReg d w mod reg rm disp s
  | .addAccImm w imm => Sys2Proof.Machine.execAddAccImm w imm s
  | .orAccImm w imm => Sys2Proof.Machine.execOrAccImm w imm s
  | .adcAccImm w imm => Sys2Proof.Machine.execAdcAccImm w imm s
  | .sbbAccImm w imm => Sys2Proof.Machine.execSbbAccImm w imm s
  | .andAccImm w imm => Sys2Proof.Machine.execAndAccImm w imm s
  | .subAccImm w imm => Sys2Proof.Machine.execSubAccImm w imm s
  | .xorAccImm w imm => Sys2Proof.Machine.execXorAccImm w imm s
  | .cmpAccImm w imm => Sys2Proof.Machine.execCmpAccImm w imm s
  | .addRmImm sx w mod rm disp imm => Sys2Proof.Machine.execAddRmImm sx w mod rm disp imm s
  | .orRmImm sx w mod rm disp imm => Sys2Proof.Machine.execOrRmImm sx w mod rm disp imm s
  | .adcRmImm sx w mod rm disp imm => Sys2Proof.Machine.execAdcRmImm sx w mod rm disp imm s
  | .sbbRmImm sx w mod rm disp imm => Sys2Proof.Machine.execSbbRmImm sx w mod rm disp imm s
  | .andRmImm sx w mod rm disp imm => Sys2Proof.Machine.execAndRmImm sx w mod rm disp imm s
  | .subRmImm sx w mod rm disp imm => Sys2Proof.Machine.execSubRmImm sx w mod rm disp imm s
  | .xorRmImm sx w mod rm disp imm => Sys2Proof.Machine.execXorRmImm sx w mod rm disp imm s
  | .cmpRmImm sx w mod rm disp imm => Sys2Proof.Machine.execCmpRmImm sx w mod rm disp imm s
  | .movRegImm w reg imm => Sys2Proof.Machine.execMovRegImm w reg imm s
  | .nop => Sys2Proof.Machine.execNop s
  | .hlt => Sys2Proof.Machine.execHlt s
  | .cmc => Sys2Proof.Machine.execCmc s
  | .clc => Sys2Proof.Machine.execClc s
  | .stc => Sys2Proof.Machine.execStc s
  | .cli => Sys2Proof.Machine.execCli s
  | .sti => Sys2Proof.Machine.execSti s
  | .cld => Sys2Proof.Machine.execCld s
  | .std => Sys2Proof.Machine.execStd s
  | .sentinel => Sys2Proof.Machine.execSentinel s
  | .unrecognized b0 => Sys2Proof.Machine.execUnrecognized b0 s

end Sys2Proof.Machine
end

