-- ==== Sys2Proof/Machine/Loop.lean ====
section
/-! DEFINITION. One step of the fetch-decode loop (46_fetch_decode_loop.md R202): the bytes at the instruction pointer are
decoded, and the instruction's meaning runs; a sequence that ends inside the image's last instruction raises
`OUT_OF_BOUNDS` with the advance of the fetches that succeeded (R251, R262). -/

namespace Sys2Proof.Machine

/-- The step of the loop. In a terminal state no step is taken and nothing changes (R208, log entry 11); parameters outside
their constraints are refused (U3, log entry 12). -/
def loopStep (s : State) : Result :=
  if s.cfg.Valid then
    if s.loop.running then
      match decode (window s) with
      | .ok i _ => exec i s
      | .truncated n => .next (trap .outOfBounds s.ip { s with ip := s.ip + n })
    else .next s
  else .refused .parametersOutOfRange

end Sys2Proof.Machine
end

