-- ==== Sys2Proof/Machine/Step.lean ====
section
/-! DEFINITION. The step function of the machine, and a state with a word of opcode_table.json where the next step fetches. -/

namespace Sys2Proof.Machine

/-- `Step` (46_fetch_decode_loop.md R202). -/
def step (s : State) : Host.Outcome State Fault Refusal := loopStep s

/-- The state with an instruction stored at the instruction pointer, as the external loader would store it (R290 item 2,
log entry 7): six bytes, those of the word and zeros after it, as far as the image reaches. -/
def State.withFetchWord (s : State) (nbits w : Nat) : State := loadBytes s.ip (tableBytes nbits w) s

end Sys2Proof.Machine
end

