-- ==== Sys2Proof/Machine/Flags.lean ====
section
/-! DEFINITION. The flags register (10_state.md R20): nine named masks and the two documented mutations, set and clear
by mask. No rule of the block sets, clears or reads a flag, since no decoded instruction is executed (R4 item 2, D2);
so no instruction computes a flag. The bit positions are the spec's decision D37. -/

namespace Sys2Proof.Machine

/-- The nine named flags (R20). -/
inductive Flag where
  | carry | parity | auxiliaryCarry | zero | sign | trap | interruptEnable | direction | overflow
  deriving DecidableEq, Repr

/-- The bit position of a flag (R20). -/
def Flag.bit : Flag → Nat
  | .carry => 0
  | .parity => 2
  | .auxiliaryCarry => 4
  | .zero => 6
  | .sign => 7
  | .trap => 8
  | .interruptEnable => 9
  | .direction => 10
  | .overflow => 11

/-- The mask of a flag (R20). -/
def Flag.mask (f : Flag) : Word := 1#16 <<< f.bit

/-- Whether a flag is set. -/
def flagSet (f : Flag) (s : State) : Bool := s.flags.getLsbD f.bit

/-- The bit-set operation of R20. -/
def setFlag (f : Flag) (s : State) : State := { s with flags := s.flags ||| f.mask }

/-- The bit-clear operation of R20. -/
def clearFlag (f : Flag) (s : State) : State := { s with flags := s.flags &&& ~~~f.mask }

end Sys2Proof.Machine
end

