-- ==== Sys2Proof/Machine/Pseudocode.lean ====
section
/-! DEFINITION. The decoder as the spec writes it: the pseudocode of rules R130, R134, R141, R161, R162, R171, R180 and R202
transcribed over the state, every byte through `Fetch`. It is the clear form beside which the machine of
Machine/Loop.lean is held (an obligation states that they agree), and it holds the stand-alone `DecodeOne`, which is an
entry point of its own (R161, R214). -/

namespace Sys2Proof.Machine

/-- `ExtractDisp(size)` (43_displacement_extractor.md R130). -/
def specExtractDisp (size : SizeTag) (s : State) : Attempt Word :=
  match size with
  | .szNone => .ok 0 s
  | .szOne => (fetch 1 s).bind fun v s => .ok (if v.toNat < 0x80 then v else v + 0xFF00) s
  | .szTwo => (fetch 2 s).bind fun v s => .ok v s

/-- `DecodeOperand(m)` (R134), filling the operand fields of the record under construction. -/
def specDecodeOperand (m : Byte) (r : DecodedInstr) (s : State) : Attempt DecodedInstr :=
  let mod := (split m).1
  let reg := (split m).2.1
  let rm := (split m).2.2
  (specExtractDisp (parseMode mod rm).2 s).bind fun disp s =>
    .ok { r with mod := mod, reg := reg, rm := rm, amode := (parseMode mod rm).1,
                 dispSize := (parseMode mod rm).2, disp := disp } s

/-- `DecodeStd(b0, tag, rec)` (44_standard_format.md R141). -/
def specDecodeStd (b0 : Byte) (r : DecodedInstr) (s : State) : Attempt DecodedInstr :=
  (fetch 1 s).bind fun m s =>
    (specDecodeOperand (lowByte m) { r with w := b0.getLsbD 0, d := b0.getLsbD 1 } s).bind fun r s =>
      .ok { r with hasModrm := true } s

/-- `DecodeRmImm(b0, b1, rec)` (45_irregular_formats.md R171). -/
def specDecodeRmImm (b0 b1 : Byte) (r : DecodedInstr) (s : State) : Attempt DecodedInstr :=
  (specDecodeOperand b1 { r with w := b0.getLsbD 0, s := b0.getLsbD 1 } s).bind fun r s =>
    if r.s = false ∧ r.w = true then
      (fetch 2 s).bind fun v s => .ok { r with hasModrm := true, immSize := .szTwo, imm := v } s
    else
      (fetch 1 s).bind fun v s =>
        .ok { r with hasModrm := true, immSize := .szOne,
                     imm := if r.s = true ∧ r.w = true then sext16 (lowByte v) else v } s

/-- An immediate of the width `r.w` (R162, R180). -/
def specImmediate (r : DecodedInstr) (s : State) : Attempt DecodedInstr :=
  if r.w = false then (fetch 1 s).bind fun v s => .ok { r with immSize := .szOne, imm := v } s
  else (fetch 2 s).bind fun v s => .ok { r with immSize := .szTwo, imm := v } s

/-- `DecodeAccImm(b0, rec)` (R162). -/
def specDecodeAccImm (b0 : Byte) (r : DecodedInstr) (s : State) : Attempt DecodedInstr :=
  specImmediate { r with w := b0.getLsbD 0, reg := 0 } s

/-- `DecodeRegImm(b0, rec)` (R180). -/
def specDecodeRegImm (b0 : Byte) (r : DecodedInstr) (s : State) : Attempt DecodedInstr :=
  specImmediate { r with w := b0.getLsbD 3, reg := b0.extractLsb' 0 3 } s

/-- The second byte, fetched when the resolver needs it, else 0 (R161, R93). -/
def specSecondByte (b0 : Byte) (s : State) : Attempt Byte :=
  if needsSecond b0 then (fetch 1 s).bind fun v s => .ok (lowByte v) s else .ok 0 s

/-- The handler of a format (R160). -/
def specHandler (f : Format) (b0 b1 : Byte) (r : DecodedInstr) (s : State) : Attempt DecodedInstr :=
  match f with
  | .std => specDecodeStd b0 r s
  | .rmImm => specDecodeRmImm b0 b1 r s
  | .accImm => specDecodeAccImm b0 r s
  | .regImm => specDecodeRegImm b0 r s
  | .noOperand => .ok r s

/-- `DecodeRest(ip0, b0)` (R161). -/
def specDecodeRest (ip0 : Nat) (b0 : Byte) (s : State) : Attempt DecodedInstr :=
  (specSecondByte b0 s).bind fun b1 s =>
    match formatOf (resolve b0 b1) with
    | none => .raised .unresolvedTag (logEvent ip0 b0 s)
    | some f =>
      (specHandler f b0 b1 { emptyRecord with addr := ip0, opcode := b0, tag := resolve b0 b1 } s).bind
        fun r s => .ok { r with len := s.ip - ip0 } s

/-- `DecodeOne` (R161): the stand-alone entry. -/
def specDecodeOne (s : State) : Attempt DecodedInstr :=
  (fetch 1 s).bind fun b0 t => specDecodeRest s.ip (lowByte b0) t

/-- The attempt of `Step` (46_fetch_decode_loop.md R202): no record is the sentinel. -/
def specAttempt (s : State) : Attempt (Option DecodedInstr) :=
  (fetch 1 s).bind fun b0 t =>
    if lowByte b0 = 0x00 then .ok none t
    else
      (specDecodeRest s.ip (lowByte b0) t).bind fun r t =>
        if t.cfg.trace then (append (line r) t).bind fun _ t => .ok (some r) t else .ok (some r) t

/-- `Step` (R202), from a state in `FETCHING` or `CONTINUE`. -/
def specStep (s : State) : State :=
  match specAttempt s with
  | .ok none t => { t with loop := .done }
  | .ok (some r) t => { t with emitted := t.emitted ++ [r], loop := .continuing }
  | .raised k t => { t with loop := .failed, err := k, errAddr := s.ip }

end Sys2Proof.Machine
end

