-- ==== Sys2Proof/Machine/Session.lean ====
section
/-! DEFINITION. A session (70_reset_and_hazards.md R284): `Run` repeats `Step` until a terminal state
(46_fetch_decode_loop.md R204), and its result (R205). -/

namespace Sys2Proof.Machine

/-- `Step` repeated while `state` is `FETCHING` or `CONTINUE`, at most `n` times (R204). -/
def runFor : Nat → State → Result
  | 0, s => .next s
  | n + 1, s =>
    if s.loop.running then
      match step s with
      | .next t => runFor n t
      | .fault r => .fault r
      | .refused r => .refused r
    else .next s

/-- `Run` (R204): a session takes at most `MEM_SIZE` - `PROGRAM_START` + 1 steps (R209). -/
def run (s : State) : Result := runFor (s.cfg.memSize - s.cfg.programStart + 1) s

/-- The result of `Run`: success iff it reached `DONE` (R204, R205). -/
def succeeded (s : State) : Bool := decide (s.loop = .done)

end Sys2Proof.Machine
end

