-- ==== Sys2Proof/WellFormed.lean ====
section
/-! DEFINITION. Which terms of `Instr` are instructions: the displacement and the immediate have the sizes the
encoding gives them, and an unrecognised byte is one (30_encoding.md R61, R68, R74). -/

namespace Sys2Proof

/-- The displacement has the size `ParseMode` gives for mod and rm (42_addressing_mode_parser.md R121). -/
def dispFits (mod : BitVec 2) (rm : BitVec 3) (disp : Disp) : Bool :=
  decide (disp.size = (parseMode mod rm).2)

/-- The immediate has two bytes when `two` holds, else one (30_encoding.md R68). -/
def immFits (two : Bool) (imm : Imm) : Bool :=
  decide (imm.size = if two then .szTwo else .szOne)

/-- The check of a term of `Instr`. -/
def Instr.wellFormed : Instr → Bool
  | .addRmReg _ _ mod _ rm disp => dispFits mod rm disp
  | .orRmReg _ _ mod _ rm disp => dispFits mod rm disp
  | .adcRmReg _ _ mod _ rm disp => dispFits mod rm disp
  | .sbbRmReg _ _ mod _ rm disp => dispFits mod rm disp
  | .andRmReg _ _ mod _ rm disp => dispFits mod rm disp
  | .subRmReg _ _ mod _ rm disp => dispFits mod rm disp
  | .xorRmReg _ _ mod _ rm disp => dispFits mod rm disp
  | .cmpRmReg _ _ mod _ rm disp => dispFits mod rm disp
  | .movRmReg _ _ mod _ rm disp => dispFits mod rm disp
  | .addAccImm w imm => immFits w imm
  | .orAccImm w imm => immFits w imm
  | .adcAccImm w imm => immFits w imm
  | .sbbAccImm w imm => immFits w imm
  | .andAccImm w imm => immFits w imm
  | .subAccImm w imm => immFits w imm
  | .xorAccImm w imm => immFits w imm
  | .cmpAccImm w imm => immFits w imm
  | .addRmImm s w mod rm disp imm => dispFits mod rm disp && immFits (!s && w) imm
  | .orRmImm s w mod rm disp imm => dispFits mod rm disp && immFits (!s && w) imm
  | .adcRmImm s w mod rm disp imm => dispFits mod rm disp && immFits (!s && w) imm
  | .sbbRmImm s w mod rm disp imm => dispFits mod rm disp && immFits (!s && w) imm
  | .andRmImm s w mod rm disp imm => dispFits mod rm disp && immFits (!s && w) imm
  | .subRmImm s w mod rm disp imm => dispFits mod rm disp && immFits (!s && w) imm
  | .xorRmImm s w mod rm disp imm => dispFits mod rm disp && immFits (!s && w) imm
  | .cmpRmImm s w mod rm disp imm => dispFits mod rm disp && immFits (!s && w) imm
  | .movRegImm w _ imm => immFits w imm
  | .nop => true
  | .hlt => true
  | .cmc => true
  | .clc => true
  | .stc => true
  | .cli => true
  | .sti => true
  | .cld => true
  | .std => true
  | .sentinel => true
  | .unrecognized b0 => decide (resolve b0 0 = .unrecognized)

/-- A well-formed instruction. -/
abbrev Instr.WellFormed (i : Instr) : Prop := i.wellFormed = true

/-- The first byte of the instruction is the sentinel byte 0x00 although it is not the sentinel: `ADD_RM_REG` with
d = 0 and w = 0. The loop never decodes it (30_encoding.md R77). -/
def Instr.shadowed : Instr → Bool
  | .addRmReg d w _ _ _ _ => !d && !w
  | .orRmReg _ _ _ _ _ _ => false
  | .adcRmReg _ _ _ _ _ _ => false
  | .sbbRmReg _ _ _ _ _ _ => false
  | .andRmReg _ _ _ _ _ _ => false
  | .subRmReg _ _ _ _ _ _ => false
  | .xorRmReg _ _ _ _ _ _ => false
  | .cmpRmReg _ _ _ _ _ _ => false
  | .movRmReg _ _ _ _ _ _ => false
  | .addAccImm _ _ => false
  | .orAccImm _ _ => false
  | .adcAccImm _ _ => false
  | .sbbAccImm _ _ => false
  | .andAccImm _ _ => false
  | .subAccImm _ _ => false
  | .xorAccImm _ _ => false
  | .cmpAccImm _ _ => false
  | .addRmImm _ _ _ _ _ _ => false
  | .orRmImm _ _ _ _ _ _ => false
  | .adcRmImm _ _ _ _ _ _ => false
  | .sbbRmImm _ _ _ _ _ _ => false
  | .andRmImm _ _ _ _ _ _ => false
  | .subRmImm _ _ _ _ _ _ => false
  | .xorRmImm _ _ _ _ _ _ => false
  | .cmpRmImm _ _ _ _ _ _ => false
  | .movRegImm _ _ _ => false
  | .nop => false
  | .hlt => false
  | .cmc => false
  | .clc => false
  | .stc => false
  | .cli => false
  | .sti => false
  | .cld => false
  | .std => false
  | .sentinel => false
  | .unrecognized _ => false

end Sys2Proof
end

