-- ==== Sys2Proof/Safety.lean ====
section
/-! DEFINITION. The terms claims are made in: the invariant of a session (10_state.md R32), what an instruction needs to
complete, and the tables of the families' instructions. -/

namespace Sys2Proof.Machine

/-! ### The invariant of a session -/

/-- Items 1 and 2 of R32: the instruction pointer and the cursor in their ranges, for legal parameters. -/
def PointersInRange (s : State) : Prop :=
  s.cfg.Valid ∧ s.cfg.programStart ≤ s.ip ∧ s.ip ≤ s.cfg.memSize ∧ s.cur ≤ s.cfg.outCap

/-- Item 3 of R32, with R14 and R254: `err` is set exactly in `FAILED`, never to `MALFORMED_ADDRESSING`, and `err_addr`
is 0 outside `FAILED`. -/
def ErrorsRecorded (s : State) : Prop :=
  (s.err = .none ↔ s.loop ≠ .failed) ∧ s.err ≠ .malformedAddressing ∧ (s.loop ≠ .failed → s.errAddr = 0)

/-- Item 4 of R32. -/
def FreshWhileFetching (s : State) : Prop :=
  s.loop = .fetching → s.emitted = [] ∧ s.cur = 0 ∧ s.ip = s.cfg.programStart

/-- Records that follow one another without a gap from address `a` to address `b`, each of 1 to 6 bytes. -/
def Tiles : Nat → List DecodedInstr → Nat → Prop
  | a, [], b => a = b
  | a, r :: rs, b => r.addr = a ∧ 1 ≤ r.len ∧ r.len ≤ 6 ∧ Tiles (a + r.len) rs b

/-- Where the records of a session end: at the instruction pointer, before the sentinel at `DONE` (R206), at the failing
instruction in `FAILED` (R261). -/
def EmittedTile (s : State) : Prop :=
  match s.loop with
  | .fetching => Tiles s.cfg.programStart s.emitted s.ip
  | .continuing => Tiles s.cfg.programStart s.emitted s.ip
  | .done => ∃ b, Tiles s.cfg.programStart s.emitted b ∧ s.ip = b + 1 ∧ s.mem.read b = 0
  | .failed => Tiles s.cfg.programStart s.emitted s.errAddr ∧ s.errAddr ≤ s.ip

/-- Item 6 of R32 (R233): the text is the lines of the records in order; without the trace stage there is none (R220). -/
def TextIsLines (s : State) : Prop :=
  traceText s = if s.cfg.trace then s.emitted.flatMap line else []

/-- The log holds the one event of an `UNRESOLVED_TAG`, else nothing (R268). -/
def LogHoldsEvent (s : State) : Prop :=
  s.log = if s.err = .unresolvedTag then [(s.errAddr, s.mem.read s.errAddr)] else []

/-- Item 7 of R32, with U16: the register file and the stack region hold their reset values. -/
def RegisterFileAtReset (s : State) : Prop :=
  s.regs = Regs.zero ∧ s.segs = SegRegs.zero ∧ s.flags = 0 ∧ s.stack = []

/-- The buffers are in canonical form, inside their capacities. -/
def BuffersCanonical (s : State) : Prop :=
  s.mem.wf s.cfg.memSize = true ∧ s.out.wf s.cfg.outCap = true ∧ s.stack.wf s.cfg.stackSize = true

/-- The invariant of a session: R32 and what goes with it. -/
def SessionInv (s : State) : Prop :=
  PointersInRange s ∧ ErrorsRecorded s ∧ FreshWhileFetching s ∧ EmittedTile s ∧ TextIsLines s ∧
    LogHoldsEvent s ∧ RegisterFileAtReset s ∧ BuffersCanonical s

/-- Every emitted record is what the stand-alone decoder gives at its address in the image (R161, R263). -/
def RecordsFromImage (s : State) : Prop :=
  ∀ r ∈ s.emitted, ∃ t, specDecodeOne { s with ip := r.addr } = .ok r t

/-! ### What a step and an instruction need -/

/-- A step is taken (46_fetch_decode_loop.md R202): legal parameters, and `state` is `FETCHING` or `CONTINUE`. -/
def Ready (s : State) : Prop := s.cfg.Valid ∧ s.loop.running = true

/-- The bytes `bs` stand in the image at the instruction pointer. -/
def ImageHolds (s : State) (bs : List Byte) : Prop :=
  s.ip + bs.length ≤ s.cfg.memSize ∧ s.mem.bytes s.ip bs.length = bs

/-- The trace stage accepts `n` more characters (47_formatter.md R235, R220). -/
def LineFits (s : State) (n : Nat) : Prop := s.cfg.trace = true → n ≤ s.cfg.outCap - s.cur

/-- The state after an instruction of `n` bytes whose record is `r` (46_fetch_decode_loop.md R202, R203): the instruction
pointer has passed it, its line is appended when the trace stage exists, its record is emitted. -/
def retired (s : State) (n : Nat) (r : DecodedInstr) : State :=
  { s with
    ip := s.ip + n
    loop := .continuing
    out := if s.cfg.trace then s.out.writeAll s.cur (line r) else s.out
    cur := if s.cfg.trace then s.cur + (line r).length else s.cur
    emitted := s.emitted ++ [r] }

/-- The state after a failure in the step at `s` (60_exceptions.md R260, R262): `n` bytes were consumed. -/
def failedAt (s : State) (n : Nat) (k : ErrKind) : State :=
  { s with ip := s.ip + n, loop := .failed, err := k, errAddr := s.ip }

/-! ### The instructions of the families, with their tags and opcode bytes -/

/-- The nine instructions of format `STD`: constructor, tag, and the opcode byte with d = 0 and w = 0
(44_standard_format.md R144 to R152). -/
def stdInstructions : List ((Bool → Bool → BitVec 2 → BitVec 3 → BitVec 3 → Disp → Instr) × Tag × Byte) :=
  [ (.addRmReg, .rmReg .add, 0x00), (.orRmReg, .rmReg .or, 0x08), (.adcRmReg, .rmReg .adc, 0x10),
    (.sbbRmReg, .rmReg .sbb, 0x18), (.andRmReg, .rmReg .and, 0x20), (.subRmReg, .rmReg .sub, 0x28),
    (.xorRmReg, .rmReg .xor, 0x30), (.cmpRmReg, .rmReg .cmp, 0x38), (.movRmReg, .movRmReg, 0x88) ]

/-- The eight instructions of format `ACC_IMM`: constructor, tag, and the opcode byte with w = 0
(45_irregular_formats.md R163 to R170). -/
def accImmInstructions : List ((Bool → Imm → Instr) × Tag × Byte) :=
  [ (.addAccImm, .accImm .add, 0x04), (.orAccImm, .accImm .or, 0x0C), (.adcAccImm, .accImm .adc, 0x14),
    (.sbbAccImm, .accImm .sbb, 0x1C), (.andAccImm, .accImm .and, 0x24), (.subAccImm, .accImm .sub, 0x2C),
    (.xorAccImm, .accImm .xor, 0x34), (.cmpAccImm, .accImm .cmp, 0x3C) ]

/-- The eight instructions of format `RM_IMM`: constructor, tag, and sub-opcode (R172 to R179). -/
def rmImmInstructions :
    List ((Bool → Bool → BitVec 2 → BitVec 3 → Disp → Imm → Instr) × Tag × BitVec 3) :=
  [ (.addRmImm, .rmImm .add, 0), (.orRmImm, .rmImm .or, 1), (.adcRmImm, .rmImm .adc, 2),
    (.sbbRmImm, .rmImm .sbb, 3), (.andRmImm, .rmImm .and, 4), (.subRmImm, .rmImm .sub, 5),
    (.xorRmImm, .rmImm .xor, 6), (.cmpRmImm, .rmImm .cmp, 7) ]

/-- The nine single-byte instructions: constructor, tag, opcode byte (R183 to R191). -/
def noOperandInstructions : List (Instr × Tag × Byte) :=
  [ (.nop, .nop, 0x90), (.hlt, .hlt, 0xF4), (.cmc, .cmc, 0xF5), (.clc, .clc, 0xF8), (.stc, .stc, 0xF9),
    (.cli, .cli, 0xFA), (.sti, .sti, 0xFB), (.cld, .cld, 0xFC), (.std, .std, 0xFD) ]

/-- The value of a bit as a byte. -/
def bitByte (b : Bool) : Byte := if b then 1 else 0

end Sys2Proof.Machine
end

