-- ==== Sys2Proof/Certificates/Slice0/Obligations.lean ====
section
/-! DEFINITION. The statements about the model. Each says which rules of the spec it comes from; where a rule rests on a
decision D<n> of 92_eei_decisions.md, the decision is named. -/

open Sys2Proof Sys2Proof.Machine

/-! ### Encoding -/

/-- Words written out from the encodings of R63 and R70 decode to their instructions: one of each format, the sentinel
and an unrecognised byte. The opcode numbers are the spec's decisions D10, D14 and D15. -/
def Obligations.KnownWordsDecode : Prop :=
  decode [0b00100011, 0b11011001] = .ok (.andRmReg true true 3 3 1 .none) [] ∧
  decode [0b10001011, 0b01000111, 0xFF] = .ok (.movRmReg true true 1 0 7 (.byte 0xFF)) [] ∧
  decode [0b00100100, 0x0F] = .ok (.andAccImm false (.byte 0x0F)) [] ∧
  decode [0b10000001, 0b00100110, 0x34, 0x12, 0xF0, 0x0F] =
    .ok (.andRmImm false true 0 6 (.word 0x1234) (.word 0x0FF0)) [] ∧
  decode [0b10111001, 0x0C, 0x00] = .ok (.movRegImm true 1 (.word 0x000C)) [] ∧
  decode [0b11110100] = .ok .hlt [] ∧
  decode [0b00000000, 0xD8] = .ok .sentinel [0xD8] ∧
  decode [0b11101011, 0xFE] = .ok (.unrecognized 0xEB) [0xFE]

/-- Decode of encode is the instruction, for every well-formed instruction the loop can meet and whatever follows it
(R62, R63, R77). -/
def Obligations.DecodeInvertsEncode : Prop :=
  ∀ (i : Instr) (rest : List Byte), i.WellFormed → i.shadowed = false → decode (encode i ++ rest) = .ok i rest

/-- What the loop's decoder reads is the encoding of what it answers, and that is well formed and not the shadowed `ADD`:
no bit of the bytes read is dropped (R62, R63, R77). -/
def Obligations.EncodeInvertsDecode : Prop :=
  ∀ (bs rest : List Byte) (i : Instr), decode bs = .ok i rest →
    bs = encode i ++ rest ∧ i.WellFormed ∧ i.shadowed = false

/-- The stand-alone decoder reads every well-formed instruction but the sentinel, `ADD` with opcode 0x00 among them
(R161, R77). -/
def Obligations.StandaloneDecodeInvertsEncode : Prop :=
  ∀ (i : Instr) (rest : List Byte), i.WellFormed → i ≠ .sentinel → decodeOne (encode i ++ rest) = .ok i rest

/-- A sequence that ends inside an instruction is rejected, with no more bytes consumed than there are (R41, R133). -/
def Obligations.ProperPrefixIsTruncated : Prop :=
  ∀ (i : Instr) (n : Nat), i.WellFormed → i.shadowed = false → n < (encode i).length →
    ∃ k, k ≤ n ∧ decode ((encode i).take n) = .truncated k

/-- The loop and the stand-alone decoder differ only at the byte 0x00 (R214). -/
def Obligations.EntriesDifferOnlyAtSentinel : Prop :=
  (∀ (b0 : Byte) (rest : List Byte), b0 ≠ 0 → decode (b0 :: rest) = decodeOne (b0 :: rest)) ∧
  (∀ rest : List Byte, decode (0 :: rest) = .ok .sentinel rest) ∧
  (∀ (rest rest' : List Byte) (i : Instr), decodeOne (0 :: rest) = .ok i rest' →
    ∃ mod reg rm disp, i = .addRmReg false false mod reg rm disp)

/-! ### The resolver and the other pure sub-blocks -/

/-- `Resolve` is total; it answers `UNRECOGNIZED` exactly for the 175 opcode bytes of R74, whatever follows (R94). The
set is the spec's decision D10. -/
def Obligations.UnrecognizedOpcodes : Prop :=
  (∀ b0 b1 : Byte, resolve b0 b1 = .unrecognized ↔
    ∃ p ∈ [(0x06, 0x07), (0x0E, 0x0F), (0x16, 0x17), (0x1E, 0x1F), (0x26, 0x27), (0x2E, 0x2F), (0x36, 0x37),
      (0x3E, 0x7F), (0x84, 0x87), (0x8C, 0x8F), (0x91, 0xAF), (0xC0, 0xF3), (0xF6, 0xF7), (0xFE, 0xFF)],
      p.1 ≤ b0.toNat ∧ b0.toNat ≤ p.2) ∧
  ((List.range 256).filter fun n => decide (resolve (BitVec.ofNat 8 n) 0 = .unrecognized)).length = 175

/-- `NeedsSecond` (R91): true for the four opcode bytes 0x80 to 0x83. For every other opcode byte the following byte is not
an input of `Resolve`, need not exist, and is not fetched on the resolver's behalf; for the four it is, through its bits 5
to 3 only. -/
def Obligations.SecondByteNeededOnlyByFamily : Prop :=
  (∀ b0 : Byte, needsSecond b0 = true ↔ b0 = 0x80 ∨ b0 = 0x81 ∨ b0 = 0x82 ∨ b0 = 0x83) ∧
  (∀ b0 b1 b1' : Byte, needsSecond b0 = false → resolve b0 b1 = resolve b0 b1') ∧
  (∀ (b0 : Byte) (s : State), needsSecond b0 = false → specSecondByte b0 s = .ok 0 s) ∧
  (∀ b0 : Byte, needsSecond b0 = false → formatOf (resolve b0 0) = some .noOperand → ∃ i, decodeOne [b0] = .ok i []) ∧
  (∀ b0 b1 : Byte, needsSecond b0 = true → resolve b0 b1 = .rmImm (AluOp.ofIndex (b1.extractLsb' 3 3)))

/-- opcode_table.json as data and the resolver agree, and exactly one row matches each pair of bytes (R78). -/
def Obligations.TableIsTheResolver : Prop :=
  ∀ b0 b1 : Byte, tableTag b0 b1 = some (resolve b0 b1) ∧
    (opcodeTable.filter fun r => r.hits b0 b1).length = 1

/-- `Split` (R110): m = 64·mod + 8·reg + rm, a bijection; the reg field is the sub-opcode's three bits, and the decoded
operand fields of a record are exactly the addressing byte's. -/
def Obligations.SplitGivesTheFields : Prop :=
  (∀ m : Byte, m.toNat = 64 * (split m).1.toNat + 8 * (split m).2.1.toNat + (split m).2.2.toNat) ∧
  (∀ (mod : BitVec 2) (reg rm : BitVec 3), ∃ m, split m = (mod, reg, rm) ∧ ∀ m', split m' = (mod, reg, rm) → m' = m) ∧
  (∀ m : Byte, ((m &&& 0b00111000) >>> 3).toNat = (split m).2.1.toNat) ∧
  (∀ (m : Byte) (r r' : DecodedInstr) (s t : State), specDecodeOperand m r s = .ok r' t →
    (r'.mod, r'.reg, r'.rm) = split m)

/-- `ParseMode` (R121), the direct-address exception of mod 0 and rm 6 included, and the base and index registers of the
eight rm values (R123). The numbers and the table are the spec's decision D13. -/
def Obligations.AddressingModes : Prop :=
  (∀ (mod : BitVec 2) (rm : BitVec 3),
    (mod = 3 → parseMode mod rm = (.regDirect, .szNone)) ∧
    (mod = 0 → rm = 6 → parseMode mod rm = (.memDirect, .szTwo)) ∧
    (mod = 0 → rm ≠ 6 → parseMode mod rm = (.memNoDisp, .szNone)) ∧
    (mod = 1 → parseMode mod rm = (.memDisp8, .szOne)) ∧
    (mod = 2 → parseMode mod rm = (.memDisp16, .szTwo)) ∧
    (parseMode mod rm).1 ≠ .noModrm) ∧
  (eaBase 0 = some .bx ∧ eaIndex 0 = some .si) ∧ (eaBase 1 = some .bx ∧ eaIndex 1 = some .di) ∧
  (eaBase 2 = some .bp ∧ eaIndex 2 = some .si) ∧ (eaBase 3 = some .bp ∧ eaIndex 3 = some .di) ∧
  (eaBase 4 = none ∧ eaIndex 4 = some .si) ∧ (eaBase 5 = none ∧ eaIndex 5 = some .di) ∧
  (eaBase 6 = some .bp ∧ eaIndex 6 = none) ∧ (eaBase 7 = some .bx ∧ eaIndex 7 = none)

/-- `EffectiveAddress` (R127): the direct address itself, else base plus index plus displacement modulo 2^16; a one-byte
displacement acts as the signed number, so that 0xFF is −1 and not 255 (R131). The wrap is D30; for a record of no memory
mode the clauses state the model's choice (log entry 23). -/
def Obligations.EffectiveAddressIsSignedSum : Prop :=
  ∀ (r : DecodedInstr) (x : Regs),
    (r.amode = .memDirect → effectiveAddress r x = r.disp) ∧
    (r.amode ≠ .memDirect → (effectiveAddress r x).toNat =
      ((x.readOpt (eaBase r.rm)).toNat + (x.readOpt (eaIndex r.rm)).toNat + r.disp.toNat) % 65536) ∧
    (∀ v : Byte, r.amode ≠ .memDirect → r.disp = (Disp.byte v).value →
      ((effectiveAddress r x).toNat : Int) =
        ((x.readOpt (eaBase r.rm)).toNat + (x.readOpt (eaIndex r.rm)).toNat + v.toInt) % 65536)

/-! ### Memory and the accessor -/

/-- `Fetch(n)` (R41): out of bounds when `ip` + n > `MEM_SIZE`, with nothing changed; else the little-endian value, and
`ip` advances by n. -/
def Obligations.FetchReadsAndAdvances : Prop :=
  ∀ (s : State) (n : Nat), n = 1 ∨ n = 2 →
    (s.cfg.memSize < s.ip + n → fetch n s = .raised .outOfBounds s) ∧
    (s.ip + n ≤ s.cfg.memSize → ∃ v : Word, fetch n s = .ok v { s with ip := s.ip + n } ∧
      v.toNat = (s.mem.read s.ip).toNat + if n = 1 then 0 else 256 * (s.mem.read (s.ip + 1)).toNat)

/-- `ExtractDisp(size)` (R130): no fetch, one byte sign-extended to 16 bits, or two bytes; an out-of-bounds read
propagates and leaves `ip` where the fetch found it. -/
def Obligations.ExtractDispReads : Prop :=
  ∀ s : State,
    specExtractDisp .szNone s = .ok 0 s ∧
    (s.ip + 1 ≤ s.cfg.memSize →
      specExtractDisp .szOne s = .ok ((s.mem.read s.ip).signExtend 16) { s with ip := s.ip + 1 }) ∧
    (s.ip + 2 ≤ s.cfg.memSize →
      specExtractDisp .szTwo s = .ok (s.mem.read (s.ip + 1) ++ s.mem.read s.ip) { s with ip := s.ip + 2 }) ∧
    (s.cfg.memSize < s.ip + 1 → specExtractDisp .szOne s = .raised .outOfBounds s) ∧
    (s.cfg.memSize < s.ip + 2 → specExtractDisp .szTwo s = .raised .outOfBounds s)

/-- `MemWrite` (R44) then `MemRead` (R43) give the value back; every byte outside the written ones and everything but the
image is unchanged; an access with a + n > `MEM_SIZE` raises and changes nothing (R45). The little-endian order of the
two-byte forms is the spec's own inference from R42 (N16). -/
def Obligations.MemWriteThenMemRead : Prop :=
  ∀ (s : State) (a n : Nat) (v : Word), s.mem.wf s.cfg.memSize = true → n = 1 ∨ n = 2 →
    (s.cfg.memSize < a + n → memWrite a n v s = .raised .outOfBounds s ∧ memRead a n s = .raised .outOfBounds s) ∧
    (a + n ≤ s.cfg.memSize → ∃ m : Memory,
      memWrite a n v s = .ok () { s with mem := m } ∧
      memRead a n { s with mem := m } = .ok (if n = 1 then v &&& 0x00FF else v) { s with mem := m } ∧
      m.read a = v.extractLsb' 0 8 ∧
      (∀ b, b < a ∨ a + n ≤ b → m.read b = s.mem.read b) ∧
      m.wf s.cfg.memSize = true)

/-! ### Registers and flags -/

/-- The byte registers alias the halves of AX, BX, CX, DX (R17): a byte written reads back, and every other byte register
and every other word register is unchanged. The aliasing is the spec's decision D31. -/
def Obligations.ByteRegistersAlias : Prop :=
  ∀ (x : Regs) (v : Byte) (r : Reg8),
    (∀ q : Reg8, (x.write8 v r).read8 q = if q = r then v else x.read8 q) ∧
    (∀ q : Reg16, q ≠ r.whole → (x.write8 v r).read16 q = x.read16 q) ∧
    (x.write8 v r).read16 r.whole =
      if r.high then v ++ (x.read16 r.whole).extractLsb' 0 8 else (x.read16 r.whole).extractLsb' 8 8 ++ v

/-- A register id with a width names a register (R18): what is written through it is read through it, the other ids of
width 1 keep their words, and the 8-bit ids 0 to 3 are the low and 4 to 7 the high halves of the words 0 to 3 (R17). -/
def Obligations.RegisterIdsNameRegisters : Prop :=
  (∀ (x : Regs) (id : BitVec 3) (v : Word), (x.writeId id true v).readId id true = v) ∧
  (∀ (x : Regs) (id : BitVec 3) (v : Word), (x.writeId id false v).readId id false = v &&& 0x00FF) ∧
  (∀ (x : Regs) (id k : BitVec 3) (v : Word), k ≠ id → (x.writeId id true v).readId k true = x.readId k true) ∧
  (∀ (x : Regs) (id : BitVec 3), id.toNat < 4 → x.readId id false = x.readId id true &&& 0x00FF) ∧
  (∀ (x : Regs) (id : BitVec 3), id.toNat < 4 → x.readId (id + 4) false = x.readId id true >>> 8)

/-- The flags register is changed by its two operations at the named bit only (R20); the bit positions are D37. -/
def Obligations.FlagsChangeByMaskOnly : Prop :=
  ∀ (f : Flag) (s : State),
    (∀ k, (setFlag f s).flags.getLsbD k = (decide (k = f.bit) || s.flags.getLsbD k)) ∧
    (∀ k, (clearFlag f s).flags.getLsbD k = (!decide (k = f.bit) && s.flags.getLsbD k)) ∧
    (∃ w, setFlag f s = { s with flags := w }) ∧ (∃ w, clearFlag f s = { s with flags := w }) ∧
    (∀ g : Flag, g.bit = f.bit → g = f)

/-- The status port: distinct codes of the loop state and of the error kind (R12, R13, decisions D8 and D9), and the
16-bit view of the instruction pointer, which shows 0 at 65536 (R21). -/
def Obligations.StatusPort : Prop :=
  LoopState.fetching.code = 0 ∧ LoopState.continuing.code = 1 ∧ LoopState.done.code = 2 ∧ LoopState.failed.code = 3 ∧
  ErrKind.none.code = 0 ∧ ErrKind.outOfBounds.code = 1 ∧ ErrKind.unresolvedTag.code = 2 ∧
  ErrKind.bufferExhausted.code = 3 ∧ ErrKind.malformedAddressing.code = 4 ∧
  ∀ s : State, (ipView s).toNat = s.ip % 65536

/-! ### Reset -/

/-- `Init` (R280): registers, flags and stack region zero, `ip` at `PROGRAM_START`, the loop state and its records
cleared; the image and the trace buffer are unchanged. -/
def Obligations.InitSetsResetValues : Prop :=
  ∀ s : State,
    (init s).regs = ⟨0, 0, 0, 0, 0, 0, 0, 0⟩ ∧ (init s).segs = ⟨0, 0, 0, 0⟩ ∧ (init s).flags = 0 ∧
    (init s).ip = s.cfg.programStart ∧ (∀ a, (init s).stack.read a = 0) ∧ (init s).loop = .fetching ∧
    (init s).err = .none ∧ (init s).errAddr = 0 ∧ (init s).cur = 0 ∧ (init s).emitted = [] ∧ (init s).log = [] ∧
    (init s).mem = s.mem ∧ (init s).out = s.out

/-- `Init` twice is `Init` once (R283), it keeps the parameters, and the reset state is one it leaves unchanged. The
values the reset state has for the parameters, the image and the trace buffer are the model's choice (log entries 1 to
6) and no value of them is claimed here. -/
def Obligations.InitIsIdempotent : Prop :=
  (∀ s : State, init (init s) = init s ∧ (init s).cfg = s.cfg) ∧ init State.reset = State.reset

/-- The reset state satisfies the invariant of a session (R31, R32). Its parameters, image and trace buffer are the model's
choice (log entries 2 to 6); this says only that those choices are legal. -/
def Obligations.ResetSatisfiesInvariant : Prop := SessionInv State.reset ∧ RecordsFromImage State.reset

/-- `Init` starts a session in the invariant from any state with legal parameters and canonical buffers (R280, R32). -/
def Obligations.InitEstablishesInvariant : Prop :=
  ∀ s : State, s.cfg.Valid → s.mem.wf s.cfg.memSize = true → s.out.wf s.cfg.outCap = true →
    SessionInv (init s) ∧ RecordsFromImage (init s)

/-! ### What the instructions do -/

/-- The nine instructions of format `STD` complete (R141, R144 to R152, R202): for every operand form, when the bytes lie
in the image and the line fits, the next state has `ip` past the instruction, the line appended and this record emitted;
nothing else changes. No register, flag or memory byte is written. -/
def Obligations.StandardFormatCompletes : Prop :=
  ∀ c ∈ stdInstructions, ∀ (d w : Bool) (mod : BitVec 2) (reg rm : BitVec 3) (disp : Disp) (s : State)
    (r : DecodedInstr), disp.size = (parseMode mod rm).2 →
    r = { addr := s.ip, len := 2 + disp.size.bytes, tag := c.2.1, opcode := c.2.2 + 2 * bitByte d + bitByte w,
          hasModrm := true, d := d, w := w, mod := mod, reg := reg, rm := rm, amode := (parseMode mod rm).1,
          dispSize := disp.size, disp := disp.value, s := false, immSize := .szNone, imm := 0 } →
    s.ip + r.len ≤ s.cfg.memSize → LineFits s (line r).length →
    exec (c.1 d w mod reg rm disp) s = .next (retired s r.len r)

/-- The eight instructions of the 0x80 to 0x83 family complete (R171 to R179, R202). The immediate has two bytes when
s = 0 and w = 1, else one, and is sign-extended when s = w = 1 (R68, D16). -/
def Obligations.RegisterMemoryImmediateCompletes : Prop :=
  ∀ c ∈ rmImmInstructions, ∀ (sx w : Bool) (mod : BitVec 2) (rm : BitVec 3) (disp : Disp) (imm : Imm) (s : State)
    (r : DecodedInstr), disp.size = (parseMode mod rm).2 →
    imm.size = (if sx = false ∧ w = true then .szTwo else .szOne) →
    r = { addr := s.ip, len := 2 + disp.size.bytes + imm.size.bytes, tag := c.2.1,
          opcode := 0x80 + 2 * bitByte sx + bitByte w, hasModrm := true, d := false, w := w, mod := mod, reg := c.2.2,
          rm := rm, amode := (parseMode mod rm).1, dispSize := disp.size, disp := disp.value, s := sx,
          immSize := imm.size, imm := imm.value (sx && w) } →
    s.ip + r.len ≤ s.cfg.memSize → LineFits s (line r).length →
    exec (c.1 sx w mod rm disp imm) s = .next (retired s r.len r)

/-- The eight accumulator-with-immediate instructions complete (R162 to R170, R202): the immediate has the operand's width
and is never sign-extended. -/
def Obligations.AccumulatorImmediateCompletes : Prop :=
  ∀ c ∈ accImmInstructions, ∀ (w : Bool) (imm : Imm) (s : State) (r : DecodedInstr),
    imm.size = (if w then .szTwo else .szOne) →
    r = { addr := s.ip, len := 1 + imm.size.bytes, tag := c.2.1, opcode := c.2.2 + bitByte w, hasModrm := false,
          d := false, w := w, mod := 0, reg := 0, rm := 0, amode := .noModrm, dispSize := .szNone, disp := 0, s := false,
          immSize := imm.size, imm := imm.value false } →
    s.ip + r.len ≤ s.cfg.memSize → LineFits s (line r).length →
    exec (c.1 w imm) s = .next (retired s r.len r)

/-- `MOV_REG_IMM` completes (R180, R181, R202): the width is bit 3 and the register bits 2 to 0 of the opcode byte. -/
def Obligations.RegisterImmediateCompletes : Prop :=
  ∀ (w : Bool) (reg : BitVec 3) (imm : Imm) (s : State) (r : DecodedInstr),
    imm.size = (if w then .szTwo else .szOne) →
    r = { addr := s.ip, len := 1 + imm.size.bytes, tag := .movRegImm,
          opcode := 0xB0 + 8 * bitByte w + reg.setWidth 8, hasModrm := false, d := false, w := w, mod := 0, reg := reg,
          rm := 0, amode := .noModrm, dispSize := .szNone, disp := 0, s := false, immSize := imm.size,
          imm := imm.value false } →
    s.ip + r.len ≤ s.cfg.memSize → LineFits s (line r).length →
    exec (.movRegImm w reg imm) s = .next (retired s r.len r)

/-- The nine single-byte instructions complete (R182 to R191, R202): one byte, every operand field 0; `HLT` does not stop
the loop and no flag changes. -/
def Obligations.NoOperandCompletes : Prop :=
  ∀ c ∈ noOperandInstructions, ∀ (s : State) (r : DecodedInstr),
    r = { addr := s.ip, len := 1, tag := c.2.1, opcode := c.2.2, hasModrm := false, d := false, w := false, mod := 0,
          reg := 0, rm := 0, amode := .noModrm, dispSize := .szNone, disp := 0, s := false, immSize := .szNone,
          imm := 0 } →
    s.ip + 1 ≤ s.cfg.memSize → LineFits s (line r).length →
    exec c.1 s = .next (retired s 1 r)

/-- The sentinel ends the session (R201, R206): it is consumed, `state` is `DONE`, no record and no line, whatever the
buffer holds (R256); in the loop it is the byte 0x00 at the boundary. That it is consumed is the spec's decision D35. -/
def Obligations.SentinelEndsTheSession : Prop :=
  (∀ s : State, s.ip + 1 ≤ s.cfg.memSize → exec .sentinel s = .next { s with ip := s.ip + 1, loop := .done }) ∧
  (∀ s : State, Ready s → ImageHolds s [0x00] → step s = .next { s with ip := s.ip + 1, loop := .done })

/-- `UNRECOGNIZED` (R192): it has no format, no mnemonic and no record; the event (address, byte) is logged,
`UNRESOLVED_TAG` is recorded with the address of the byte, and exactly one byte is consumed. In the loop this holds
whatever follows, at the end of the image and with a full buffer. -/
def Obligations.UnrecognizedRaisesUnresolvedTag : Prop :=
  (formatOf .unrecognized = none ∧ mnemonic .unrecognized = none) ∧
  (∀ (b0 : Byte) (s : State), s.ip + 1 ≤ s.cfg.memSize →
    exec (.unrecognized b0) s =
      .next { s with ip := s.ip + 1, loop := .failed, err := .unresolvedTag, errAddr := s.ip,
                     log := s.log ++ [(s.ip, b0)] }) ∧
  (∀ (b0 : Byte) (s : State), Ready s → ImageHolds s [b0] → resolve b0 0 = .unrecognized →
    step s =
      .next { s with ip := s.ip + 1, loop := .failed, err := .unresolvedTag, errAddr := s.ip,
                     log := s.log ++ [(s.ip, b0)] })

/-- `BUFFER_EXHAUSTED` (R253): an instruction whose line does not fit has been consumed, but nothing of it is written or
emitted, and the cause is recorded with its address, for every recognised instruction; only when the trace stage exists. -/
def Obligations.NoRoomNoRecord : Prop :=
  (∀ c ∈ stdInstructions, ∀ (d w : Bool) (mod : BitVec 2) (reg rm : BitVec 3) (disp : Disp) (s : State),
    s.ip + 2 + disp.size.bytes ≤ s.cfg.memSize → s.cfg.trace = true →
    s.cfg.outCap - s.cur < (line (stdRecord c.2.1 c.2.2 d w mod reg rm disp)).length →
    exec (c.1 d w mod reg rm disp) s = .next (failedAt s (2 + disp.size.bytes) .bufferExhausted)) ∧
  (∀ op : AluOp, ∀ (sx w : Bool) (mod : BitVec 2) (rm : BitVec 3) (disp : Disp) (imm : Imm) (s : State),
    s.ip + 2 + disp.size.bytes + imm.size.bytes ≤ s.cfg.memSize → s.cfg.trace = true →
    s.cfg.outCap - s.cur < (line (rmImmRecord op sx w mod rm disp imm)).length →
    exec (aluRmImm op sx w mod rm disp imm) s =
      .next (failedAt s (2 + disp.size.bytes + imm.size.bytes) .bufferExhausted)) ∧
  (∀ op : AluOp, ∀ (w : Bool) (imm : Imm) (s : State),
    s.ip + 1 + imm.size.bytes ≤ s.cfg.memSize → s.cfg.trace = true →
    s.cfg.outCap - s.cur < (line (accImmRecord op w imm)).length →
    exec (aluAccImm op w imm) s = .next (failedAt s (1 + imm.size.bytes) .bufferExhausted)) ∧
  (∀ (w : Bool) (reg : BitVec 3) (imm : Imm) (s : State),
    s.ip + 1 + imm.size.bytes ≤ s.cfg.memSize → s.cfg.trace = true →
    s.cfg.outCap - s.cur < (line (regImmRecord w reg imm)).length →
    exec (.movRegImm w reg imm) s = .next (failedAt s (1 + imm.size.bytes) .bufferExhausted)) ∧
  (∀ c ∈ noOperandInstructions, ∀ s : State,
    s.ip + 1 ≤ s.cfg.memSize → s.cfg.trace = true →
    s.cfg.outCap - s.cur < (line (noOperandRecord c.2.1 c.2.2)).length →
    exec c.1 s = .next (failedAt s 1 .bufferExhausted)) ∧
  (∀ (i : Instr) (s t : State), exec i s = .next t → t.err = .bufferExhausted →
    s.err = .bufferExhausted ∨ s.cfg.trace = true)

/-- The frame of every instruction (R33, R51, R32 item 7): the parameters, every byte of the image, the general and segment
registers, the flags and the stack region are unchanged, whatever the instruction. -/
def Obligations.InstructionFrame : Prop :=
  ∀ (i : Instr) (s t : State), exec i s = .next t →
    t.cfg = s.cfg ∧ t.mem = s.mem ∧ (∀ a, t.mem.read a = s.mem.read a) ∧ t.regs = s.regs ∧ t.segs = s.segs ∧
    t.flags = s.flags ∧ t.stack = s.stack ∧ s.ip ≤ t.ip ∧
    (t.emitted = s.emitted ∨ ∃ r, t.emitted = s.emitted ++ [r]) ∧
    (t.log = s.log ∨ ∃ b0, i = .unrecognized b0 ∧ t.log = s.log ++ [(s.ip, b0)])

/-- What an instruction and a step write to the trace buffer (R234): the cursor never goes back and no element below it is
rewritten; `Init` sets it to 0. Beyond that rule: the cursor never passes the capacity, nothing at or beyond the new cursor changes,
and without the trace stage the buffer and the cursor do not change at all. -/
def Obligations.TraceBufferFrame : Prop :=
  (∀ (i : Instr) (s t : State), s.out.wf s.cfg.outCap = true → s.cur ≤ s.cfg.outCap → exec i s = .next t →
    s.cur ≤ t.cur ∧ t.cur ≤ s.cfg.outCap ∧ (∀ a, a < s.cur ∨ t.cur ≤ a → t.out.read a = s.out.read a) ∧
    t.out.wf s.cfg.outCap = true) ∧
  (∀ s t : State, s.out.wf s.cfg.outCap = true → s.cur ≤ s.cfg.outCap → step s = .next t →
    s.cur ≤ t.cur ∧ t.cur ≤ s.cfg.outCap ∧ (∀ a, a < s.cur ∨ t.cur ≤ a → t.out.read a = s.out.read a) ∧
    t.out.wf s.cfg.outCap = true) ∧
  (∀ (i : Instr) (s t : State), s.cfg.trace = false → exec i s = .next t → t.out = s.out ∧ t.cur = s.cur) ∧
  (∀ s : State, (init s).cur = 0)

/-- The record of an instruction carries its address and its measured length, which is the length of its encoding and the
`Length` of R61; the instruction pointer moves by it (R161). -/
def Obligations.RecordLengthIsEncodedLength : Prop :=
  ∀ (i : Instr) (s t : State) (r : DecodedInstr), i.WellFormed → exec i s = .next t → t.emitted = s.emitted ++ [r] →
    r.addr = s.ip ∧ r.len = (encode i).length ∧ t.ip = s.ip + r.len ∧ (encode i).head? = some r.opcode ∧
    ∃ f, formatOf r.tag = some f ∧ r.len = lengthOf f ((encode i).getD 1 0) r.opcode

/-! ### Text -/

/-- `Decimal` (R223): the digits denote the number, they are digits, and there is no leading zero. -/
def Obligations.DecimalDenotesTheNumber : Prop :=
  ∀ n : Nat, (decimal n).foldl (fun acc b => 10 * acc + (b.toNat - 0x30)) 0 = n ∧
    (∀ b ∈ decimal n, 0x30 ≤ b.toNat ∧ b.toNat ≤ 0x39) ∧ (0 < n → (decimal n).head? ≠ some 0x30) ∧
    decimal 0 = [0x30]

/-- A line is printable 7-bit text with one newline, at its end (R221). The spelling is the spec's decision D20. -/
def Obligations.LineIsOneLine : Prop :=
  ∀ r : DecodedInstr, r.tag ≠ .unrecognized →
    ∃ u, line r = u ++ [0x0A] ∧ ∀ b ∈ u, 0x20 ≤ b.toNat ∧ b.toNat < 0x7F

/-- Every line has 4 to 34 characters (R236). -/
def Obligations.LineLengthBounds : Prop :=
  ∀ (i : Instr) (s t : State) (r : DecodedInstr), i.WellFormed → exec i s = .next t → t.emitted = s.emitted ++ [r] →
    4 ≤ (line r).length ∧ (line r).length ≤ 34

/-- Destination and source of a record of the standard format (R142), every operand form included. Beyond that rule, the
order of its text: destination first (47_formatter.md). -/
def Obligations.OperandOrder : Prop :=
  ∀ c ∈ stdInstructions, ∀ (w : Bool) (mod : BitVec 2) (reg rm : BitVec 3) (disp : Disp) (opc : Byte),
    (∀ d : Bool, rmOperand (stdRecord c.2.1 opc d w mod reg rm disp) =
      if mod = 3 then .reg rm w else .memory (parseMode mod rm).1 rm disp.value w) ∧
    operands (stdRecord c.2.1 opc true w mod reg rm disp) =
      some (.reg reg w, rmOperand (stdRecord c.2.1 opc true w mod reg rm disp)) ∧
    operands (stdRecord c.2.1 opc false w mod reg rm disp) =
      some (rmOperand (stdRecord c.2.1 opc false w mod reg rm disp), .reg reg w) ∧
    ∃ mn, mnemonic c.2.1 = some mn ∧
      line (stdRecord c.2.1 opc true w mod reg rm disp) =
        twoOperandLine mn (regName reg w) (rmText (stdRecord c.2.1 opc true w mod reg rm disp)) ∧
      line (stdRecord c.2.1 opc false w mod reg rm disp) =
        twoOperandLine mn (rmText (stdRecord c.2.1 opc false w mod reg rm disp)) (regName reg w)

/-- The document's round trip of the AND family (R237): for 0x23 followed by a register-direct addressing byte, the record's
reg and rm are the byte's fields, and the text gains the two register names, destination first. -/
def Obligations.AndRegistersRoundTrip : Prop :=
  ∀ (reg rm : BitVec 3) (s : State), Ready s →
    ImageHolds s [0x23, 0xC0 + 8 * reg.setWidth 8 + rm.setWidth 8] → s.cfg.trace = true →
    s.out.wf s.cfg.outCap = true → s.cur + 11 ≤ s.cfg.outCap →
    ∃ t r, step s = .next t ∧ t.loop = .continuing ∧ t.emitted = s.emitted ++ [r] ∧ r.tag = .rmReg .and ∧
      r.reg = reg ∧ r.rm = rm ∧ r.mod = 3 ∧ t.ip = s.ip + 2 ∧
      traceText t = traceText s ++ ascii ['a', 'n', 'd', ' '] ++ regName reg true ++ ascii [',', ' '] ++
        regName rm true ++ [0x0A]

/-- `Append` (R235): the whole text is written at the cursor or nothing is, decided before any write. -/
def Obligations.AppendIsAllOrNothing : Prop :=
  ∀ (u : List Byte) (s : State), s.out.wf s.cfg.outCap = true → s.cur ≤ s.cfg.outCap →
    (s.cfg.outCap - s.cur < u.length → append u s = .raised .bufferExhausted s) ∧
    (u.length ≤ s.cfg.outCap - s.cur → ∃ o : Memory,
      append u s = .ok () { s with out := o, cur := s.cur + u.length } ∧
      (∀ k, k < u.length → o.read (s.cur + k) = u.getD k 0) ∧
      (∀ a, a < s.cur ∨ s.cur + u.length ≤ a → o.read a = s.out.read a))

/-- With fewer than 4 characters left, no step goes on to `CONTINUE` (R213, R236): nothing is written and nothing is
emitted. -/
def Obligations.NoRoomForAnyLine : Prop :=
  ∀ s t : State, Ready s → s.cfg.trace = true → s.cfg.outCap < s.cur + 4 → step s = .next t →
    t.loop ≠ .continuing ∧ t.out = s.out ∧ t.cur = s.cur ∧ t.emitted = s.emitted

/-! ### The step -/

/-- A step runs the decoded instruction: where the bytes at the instruction pointer decode, `step` is `exec` of the
instruction; where they end inside it, `OUT_OF_BOUNDS` is recorded (R202). -/
def Obligations.StepRunsDecodedInstruction : Prop :=
  ∀ s : State, Ready s →
    (∀ (i : Instr) (rest : List Byte), decode (window s) = .ok i rest → step s = exec i s) ∧
    (∀ n : Nat, decode (window s) = .truncated n → step s = .next (failedAt s n .outOfBounds))

/-- Where the image holds the encoding of a well-formed instruction at the instruction pointer, `step` is `exec` of it,
whatever the bytes around it are (R202, R62). -/
def Obligations.StepRunsInstructionAtPointer : Prop :=
  ∀ (i : Instr) (s : State), Ready s → i.WellFormed → i.shadowed = false → ImageHolds s (encode i) →
    step s = exec i s

/-- `Step` (R202): the machine's step is the spec's pseudocode, transcribed over `Fetch` in Machine/Pseudocode.lean. -/
def Obligations.StepIsTheSpecsStep : Prop := ∀ s : State, Ready s → step s = .next (specStep s)

/-- No partial record (R263): a record enters `emitted` only when the stand-alone decoder decodes its instruction completely
and, with the trace stage, its whole line was appended; a raise discards what a handler had filled. -/
def Obligations.RecordOnlyWhenDecodedAndTraced : Prop :=
  ∀ s t : State, step s = .next t → t.emitted = s.emitted ∨
    ∃ r u, specDecodeOne s = .ok r u ∧ t.emitted = s.emitted ++ [r] ∧ t.ip = u.ip ∧ t.loop = .continuing ∧
      (s.cfg.trace = true → (line r).length ≤ s.cfg.outCap - s.cur ∧ t.cur = s.cur + (line r).length ∧
        t.out = s.out.writeAll s.cur (line r))

/-- `DONE` and `FAILED` absorb (R208): no step changes anything, and `Run` returns at once. The spec's decision is D36;
that the model's step then answers the same state is log entry 11. -/
def Obligations.TerminalStatesAbsorb : Prop :=
  ∀ s : State, s.loop = .done ∨ s.loop = .failed →
    (s.cfg.Valid → step s = .next s) ∧ run s = .next s

/-- Parameters outside their constraints are refused (U3), and with legal parameters every step answers a next state
(R266). -/
def Obligations.StepAnswersNextForLegalParameters : Prop :=
  ∀ s : State, (s.cfg.Valid → ∃ t, step s = .next t) ∧
    (¬s.cfg.Valid → step s = .refused .parametersOutOfRange)

/-- The entry into `FAILED` (R260): on a raise of kind k in the step that began at `ip0`, the step sets `state`, `err` and
`err_addr` and changes nothing else of what the attempt left; `Run`'s result is then false. -/
def Obligations.TrapEntryRecordsCauseAndAddress : Prop :=
  (∀ (s u : State) (k : ErrKind), Ready s → specAttempt s = .raised k u → step s = .next (trap k s.ip u)) ∧
  (∀ (k : ErrKind) (ip0 : Nat) (u : State),
    (trap k ip0 u).loop = .failed ∧ (trap k ip0 u).err = k ∧ (trap k ip0 u).errAddr = ip0 ∧
    { trap k ip0 u with loop := u.loop, err := u.err, errAddr := u.errAddr } = u ∧ succeeded (trap k ip0 u) = false)

/-- A failing step is precise in the outputs (R261): the records and the text are those before the failing instruction, and
the recorded address is its own; the instruction pointer keeps the advance of the good fetches: it is where the spec's
pseudocode over `Fetch` leaves it at the raise, at most six bytes ahead (R262, decision D22). -/
def Obligations.FailureIsPrecise : Prop :=
  ∀ s t : State, Ready s → step s = .next t → t.loop = .failed →
    t.emitted = s.emitted ∧ t.out = s.out ∧ t.cur = s.cur ∧ t.errAddr = s.ip ∧ t.err ≠ .none ∧
    s.ip ≤ t.ip ∧ t.ip ≤ s.ip + 6 ∧ (t.err = .unresolvedTag ↔ t.log ≠ s.log) ∧
    ∃ k u, specAttempt s = .raised k u ∧ t.err = k ∧ t.ip = u.ip

/-- `OUT_OF_BOUNDS` inside an instruction, by the fetch that fails (R262, R256): how far the instruction pointer is from the
instruction's address. -/
def Obligations.OutOfBoundsByFetchSite : Prop :=
  ∀ s : State, Ready s →
    (s.ip = s.cfg.memSize → step s = .next (failedAt s 0 .outOfBounds)) ∧
    (∀ b0 : Byte, ImageHolds s [b0] → needsSecond b0 = true → s.ip + 1 = s.cfg.memSize →
      step s = .next (failedAt s 1 .outOfBounds)) ∧
    (∀ b0 : Byte, ImageHolds s [b0] → b0 ≠ 0 → formatOf (resolve b0 0) = some .std → s.ip + 1 = s.cfg.memSize →
      step s = .next (failedAt s 1 .outOfBounds)) ∧
    (∀ b0 m : Byte, ImageHolds s [b0, m] → b0 ≠ 0 →
      formatOf (resolve b0 m) = some .std ∨ formatOf (resolve b0 m) = some .rmImm →
      s.cfg.memSize < s.ip + 2 + dispBytes m → step s = .next (failedAt s 2 .outOfBounds)) ∧
    (∀ b0 : Byte, ImageHolds s [b0] → formatOf (resolve b0 0) = some .accImm →
      s.cfg.memSize < s.ip + lengthOf .accImm 0 b0 → step s = .next (failedAt s 1 .outOfBounds)) ∧
    (∀ b0 : Byte, ImageHolds s [b0] → formatOf (resolve b0 0) = some .regImm →
      s.cfg.memSize < s.ip + lengthOf .regImm 0 b0 → step s = .next (failedAt s 1 .outOfBounds)) ∧
    (∀ b0 m : Byte, ImageHolds s [b0, m] → formatOf (resolve b0 m) = some .rmImm →
      s.ip + 2 + dispBytes m ≤ s.cfg.memSize → s.cfg.memSize < s.ip + lengthOf .rmImm m b0 →
      step s = .next (failedAt s (2 + dispBytes m) .outOfBounds))

/-- No step reaches `DONE` but by the sentinel, and the sentinel always does (R203, R210). -/
def Obligations.DoneOnlyBySentinel : Prop :=
  ∀ s t : State, Ready s → step s = .next t →
    (t.loop = .done ↔ s.ip < s.cfg.memSize ∧ s.mem.read s.ip = 0x00)

/-- `MALFORMED_ADDRESSING` is never raised, by no instruction and by no step (R254, R112). -/
def Obligations.MalformedAddressingIsNeverRaised : Prop :=
  (∀ (i : Instr) (s t : State), exec i s = .next t → t.err = .malformedAddressing → s.err = .malformedAddressing) ∧
  (∀ s t : State, step s = .next t → t.err = .malformedAddressing → s.err = .malformedAddressing)

/-- A step that goes on advances the instruction pointer by 1 to 6 bytes, and none passes the end of the image (R54, R209,
R60). -/
def Obligations.StepMakesProgress : Prop :=
  ∀ s t : State, Ready s → s.ip ≤ s.cfg.memSize → step s = .next t →
    s.ip ≤ t.ip ∧ t.ip ≤ s.cfg.memSize ∧ (t.loop.running = true → s.ip + 1 ≤ t.ip ∧ t.ip ≤ s.ip + 6)

/-- Every step keeps the invariant of a session (R32). -/
def Obligations.StepKeepsInvariant : Prop := ∀ s t : State, SessionInv s → step s = .next t → SessionInv t

/-- Every step keeps it that each emitted record is what the stand-alone decoder gives at its address in the image (R161,
R263). -/
def Obligations.StepKeepsRecordsFromImage : Prop :=
  ∀ s t : State, RecordsFromImage s → step s = .next t → RecordsFromImage t

/-- `Run` is total (R266): after `Init`, for every image, every `OUT_CAP` and every legal parameter value it ends, within its
bound of steps, in `DONE` or in `FAILED` with one of the codes 1 to 3; so it does from every state of the invariant, and
keeps it. -/
def Obligations.RunReachesTerminalState : Prop :=
  (∀ s : State, SessionInv s → ∃ t, run s = .next t ∧ SessionInv t ∧
    (t.loop = .done ∧ t.err = .none ∨ t.loop = .failed ∧ 1 ≤ t.err.code.toNat ∧ t.err.code.toNat ≤ 3) ∧
    (succeeded t = true ↔ t.loop = .done)) ∧
  (∀ s : State, s.cfg.Valid → s.mem.wf s.cfg.memSize = true → s.out.wf s.cfg.outCap = true →
    ∃ t, run (init s) = .next t ∧
      (t.loop = .done ∧ t.err = .none ∨ t.loop = .failed ∧ 1 ≤ t.err.code.toNat ∧ t.err.code.toNat ≤ 3))

/-! ### What does not matter -/

/-- No register, flag or byte of the stack region influences a step, and none is changed by it. The interrupt-enable and
trap bits are storage only (R272): never read, unchanged by every instruction, `CLI` and `STI` included, and 0 after
reset. -/
def Obligations.RegisterFileDoesNotInfluence : Prop :=
  (∀ (s t : State) (x : Regs) (g : SegRegs) (f : Word) (k : Memory), step s = .next t →
    step { s with regs := x, segs := g, flags := f, stack := k } =
      .next { t with regs := x, segs := g, flags := f, stack := k }) ∧
  (∀ (i : Instr) (s t : State), exec i s = .next t → t.flags = s.flags) ∧
  (∀ (s : State) (f : Flag), flagSet f (init s) = false)

/-- The log is write-only (R269): what it holds changes nothing else, and a step only appends to it. -/
def Obligations.LogIsWriteOnly : Prop :=
  ∀ s t : State, step s = .next t → ∃ e, t.log = s.log ++ e ∧
    ∀ l, step { s with log := l } = .next { t with log := l ++ e }

/-- A step depends only on the bytes of the image from the instruction pointer to its end (R286, R291). -/
def Obligations.OnlyBytesAheadMatter : Prop :=
  ∀ (s t : State) (m : Memory), (∀ a, s.ip ≤ a → a < s.cfg.memSize → m.read a = s.mem.read a) → step s = .next t →
    step { s with mem := m } = .next { t with mem := m }

/-- The trace buffer is never read (R33, U2): its old content changes nothing but its new content. -/
def Obligations.TraceBufferIsNeverRead : Prop :=
  ∀ (s t : State) (o : Memory), step s = .next t → ∃ o', step { s with out := o } = .next { t with out := o' }
end

