-- ==== Sys2Proof/Laws/Decode.lean ====
section
/-! SUPPORT. The laws of the decoder's parts: byte order, the taking of displacements and immediates, and what the opcode
bytes of the encoder resolve to. -/

namespace Sys2Proof

@[simp] theorem joinBytes_low_high (v : Word) : joinBytes (lowByte v) (highByte v) = v := by
  unfold joinBytes lowByte highByte
  ext i hi
  simp only [BitVec.getElem_append, BitVec.getElem_extractLsb']
  split
  · rw [Nat.zero_add, BitVec.getLsbD_eq_getElem (by omega)]
  · rename_i h
    rw [BitVec.getLsbD_eq_getElem (by omega)]
    congr 1
    omega

@[simp] theorem lowByte_joinBytes (lo hi : Byte) : lowByte (joinBytes lo hi) = lo := by
  unfold joinBytes lowByte
  ext i h
  simp only [BitVec.getElem_extractLsb', BitVec.getLsbD_append]
  rw [if_pos (by omega), Nat.zero_add, BitVec.getLsbD_eq_getElem h]

@[simp] theorem highByte_joinBytes (lo hi : Byte) : highByte (joinBytes lo hi) = hi := by
  unfold joinBytes highByte
  ext i h
  simp only [BitVec.getElem_extractLsb', BitVec.getLsbD_append]
  rw [if_neg (by omega), show 8 + i - 8 = i by omega, BitVec.getLsbD_eq_getElem h]

/-- A zero-extended byte gives the byte back. -/
@[simp] theorem lowByte_zext16 (b : Byte) : lowByte (zext16 b) = b := by
  unfold lowByte zext16
  ext i h
  simp only [BitVec.getElem_extractLsb', BitVec.getLsbD_setWidth, Nat.zero_add]
  rw [BitVec.getLsbD_eq_getElem h]
  simp
  omega

/-- The addressing byte of three fields splits into them. -/
@[simp] theorem split_modRmByte (mod : BitVec 2) (reg rm : BitVec 3) : split (modRmByte mod reg rm) = (mod, reg, rm) := by
  revert mod reg rm; decide

/-- An addressing byte is the one of its fields. -/
@[simp] theorem modRmByte_split (m : Byte) : modRmByte (split m).1 (split m).2.1 (split m).2.2 = m := by
  revert m; decide

@[simp] theorem AluOp.ofIndex_index (op : AluOp) : AluOp.ofIndex op.index = op := by cases op <;> rfl

@[simp] theorem AluOp.index_ofIndex (i : BitVec 3) : (AluOp.ofIndex i).index = i := by revert i; decide

/-- Displacement bytes are taken back as they were encoded. -/
theorem takeDisp_encoded (disp : Disp) (rest : List Byte) :
    takeDisp disp.size (disp.encoded ++ rest) = some (disp, rest) := by
  cases disp <;> simp [Disp.size, Disp.encoded, takeDisp]

/-- What the taking of a displacement can give: the displacement of that size in front of the rest. -/
theorem takeDisp_some {size : SizeTag} {bs rest : List Byte} {disp : Disp} (h : takeDisp size bs = some (disp, rest)) :
    disp.size = size ∧ bs = disp.encoded ++ rest := by
  unfold takeDisp at h
  split at h <;> first | (cases h; simp [Disp.size, Disp.encoded]) | cases h

/-- No displacement is taken exactly when too few bytes are left. -/
theorem takeDisp_none {size : SizeTag} {bs : List Byte} (h : takeDisp size bs = none) : bs.length < size.bytes := by
  unfold takeDisp at h
  split at h <;> first | (cases h; done) | simp [SizeTag.bytes]

/-- Immediate bytes are taken back as they were encoded. -/
theorem takeImm_encoded {two : Bool} {imm : Imm} (h : immFits two imm = true) (rest : List Byte) :
    takeImm two (imm.encoded ++ rest) = some (imm, rest) := by
  cases two <;> cases imm <;> simp_all [immFits, Imm.size, Imm.encoded, takeImm]

/-- What the taking of an immediate can give. -/
theorem takeImm_some {two : Bool} {bs rest : List Byte} {imm : Imm} (h : takeImm two bs = some (imm, rest)) :
    immFits two imm = true ∧ bs = imm.encoded ++ rest := by
  unfold takeImm at h
  split at h <;> first | (cases h; simp [immFits, Imm.size, Imm.encoded]) | cases h

/-- No immediate is taken exactly when too few bytes are left. -/
theorem takeImm_none {two : Bool} {bs : List Byte} (h : takeImm two bs = none) :
    bs.length < if two then 2 else 1 := by
  match two, bs with
  | false, [] => simp
  | false, _ :: _ => simp [takeImm] at h
  | true, [] => simp
  | true, [_] => simp
  | true, _ :: _ :: _ => simp [takeImm] at h

/-! ### Opcode bytes -/

@[simp] theorem resolve_aluStdOpcode (op : AluOp) (d w : Bool) (b1 : Byte) :
    resolve (aluStdOpcode op d w) b1 = .rmReg op := by cases op <;> cases d <;> cases w <;> rfl

@[simp] theorem resolve_movStdOpcode (d w : Bool) (b1 : Byte) : resolve (movStdOpcode d w) b1 = .movRmReg := by
  cases d <;> cases w <;> rfl

@[simp] theorem resolve_accImmOpcode (op : AluOp) (w : Bool) (b1 : Byte) :
    resolve (accImmOpcode op w) b1 = .accImm op := by cases op <;> cases w <;> rfl

@[simp] theorem resolve_rmImmOpcode (s w : Bool) (b1 : Byte) :
    resolve (rmImmOpcode s w) b1 = .rmImm (AluOp.ofIndex (b1.extractLsb' 3 3)) := by cases s <;> cases w <;> rfl

@[simp] theorem resolve_regImmOpcode (w : Bool) (reg : BitVec 3) (b1 : Byte) :
    resolve (regImmOpcode w reg) b1 = .movRegImm := by
  have h : ∀ (w : Bool) (reg : BitVec 3), regImmOpcode w reg ≠ 144#8 ∧ regImmOpcode w reg ≠ 244#8 ∧
      regImmOpcode w reg ≠ 245#8 ∧ regImmOpcode w reg ≠ 248#8 ∧ regImmOpcode w reg ≠ 249#8 ∧
      regImmOpcode w reg ≠ 250#8 ∧ regImmOpcode w reg ≠ 251#8 ∧ regImmOpcode w reg ≠ 252#8 ∧
      regImmOpcode w reg ≠ 253#8 ∧ regImmOpcode w reg &&& 196#8 ≠ 0#8 ∧ regImmOpcode w reg &&& 198#8 ≠ 4#8 ∧
      regImmOpcode w reg &&& 252#8 ≠ 136#8 ∧ regImmOpcode w reg &&& 240#8 = 176#8 := by decide
  have := h w reg
  simp [resolve, this]

@[simp] theorem needsSecond_aluStdOpcode (op : AluOp) (d w : Bool) : needsSecond (aluStdOpcode op d w) = false := by
  cases op <;> cases d <;> cases w <;> rfl

@[simp] theorem needsSecond_movStdOpcode (d w : Bool) : needsSecond (movStdOpcode d w) = false := by
  cases d <;> cases w <;> rfl

@[simp] theorem needsSecond_accImmOpcode (op : AluOp) (w : Bool) : needsSecond (accImmOpcode op w) = false := by
  cases op <;> cases w <;> rfl

@[simp] theorem needsSecond_rmImmOpcode (s w : Bool) : needsSecond (rmImmOpcode s w) = true := by
  cases s <;> cases w <;> rfl

@[simp] theorem needsSecond_regImmOpcode (w : Bool) (reg : BitVec 3) : needsSecond (regImmOpcode w reg) = false := by
  revert w reg; decide

@[simp] theorem aluStdOpcode_d (op : AluOp) (d w : Bool) : (aluStdOpcode op d w).getLsbD 1 = d := by
  cases op <;> cases d <;> cases w <;> rfl

@[simp] theorem aluStdOpcode_w (op : AluOp) (d w : Bool) : (aluStdOpcode op d w).getLsbD 0 = w := by
  cases op <;> cases d <;> cases w <;> rfl

@[simp] theorem movStdOpcode_d (d w : Bool) : (movStdOpcode d w).getLsbD 1 = d := by cases d <;> cases w <;> rfl

@[simp] theorem movStdOpcode_w (d w : Bool) : (movStdOpcode d w).getLsbD 0 = w := by cases d <;> cases w <;> rfl

@[simp] theorem accImmOpcode_w (op : AluOp) (w : Bool) : (accImmOpcode op w).getLsbD 0 = w := by
  cases op <;> cases w <;> rfl

@[simp] theorem rmImmOpcode_s (s w : Bool) : (rmImmOpcode s w).getLsbD 1 = s := by cases s <;> cases w <;> rfl

@[simp] theorem rmImmOpcode_w (s w : Bool) : (rmImmOpcode s w).getLsbD 0 = w := by cases s <;> cases w <;> rfl

@[simp] theorem regImmOpcode_w (w : Bool) (reg : BitVec 3) : (regImmOpcode w reg).getLsbD 3 = w := by
  revert w reg; decide

/-! The same bits in the form `simp` brings them to. -/

@[simp] theorem aluStdOpcode_bit1 (op : AluOp) (d w : Bool) : (aluStdOpcode op d w)[1] = d := by
  cases op <;> cases d <;> cases w <;> rfl

@[simp] theorem aluStdOpcode_bit0 (op : AluOp) (d w : Bool) : (aluStdOpcode op d w)[0] = w := by
  cases op <;> cases d <;> cases w <;> rfl

@[simp] theorem movStdOpcode_bit1 (d w : Bool) : (movStdOpcode d w)[1] = d := by cases d <;> cases w <;> rfl

@[simp] theorem movStdOpcode_bit0 (d w : Bool) : (movStdOpcode d w)[0] = w := by cases d <;> cases w <;> rfl

@[simp] theorem accImmOpcode_bit0 (op : AluOp) (w : Bool) : (accImmOpcode op w)[0] = w := by
  cases op <;> cases w <;> rfl

@[simp] theorem rmImmOpcode_bit1 (s w : Bool) : (rmImmOpcode s w)[1] = s := by cases s <;> cases w <;> rfl

@[simp] theorem rmImmOpcode_bit0 (s w : Bool) : (rmImmOpcode s w)[0] = w := by cases s <;> cases w <;> rfl

@[simp] theorem regImmOpcode_bit3 (w : Bool) (reg : BitVec 3) : (regImmOpcode w reg)[3] = w := by
  revert w reg; decide

@[simp] theorem regImmOpcode_reg (w : Bool) (reg : BitVec 3) : (regImmOpcode w reg).extractLsb' 0 3 = reg := by
  revert w reg; decide

/-- The sub-opcode of an addressing byte is its reg field (30_encoding.md R65). -/
@[simp] theorem subOpcode_modRmByte (mod : BitVec 2) (reg rm : BitVec 3) :
    (modRmByte mod reg rm).extractLsb' 3 3 = reg := congrArg (·.2.1) (split_modRmByte mod reg rm)

end Sys2Proof
end

