-- ==== Sys2Proof/Laws/Memory.lean ====
section
/-! SUPPORT. The laws of buffers: a byte read after a write, the bytes of a written text, and that every operation keeps
the canonical form. -/

namespace Sys2Proof.Machine

@[simp] theorem Memory.read_nil (a : Nat) : Memory.read [] a = Memory.unlisted := rfl

theorem Memory.read_entry (b : Nat) (v : Byte) (m : Memory) (a : Nat) :
    Memory.read ((b, v) :: m) a = if b = a then v else Memory.read m a := rfl

/-- Entries from `lo` on say nothing about an address below `lo`. -/
theorem Memory.read_below {bound : Nat} {m : Memory} : ∀ {lo a : Nat}, Memory.wfFrom bound lo m = true → a < lo →
    Memory.read m a = Memory.unlisted := by
  induction m with
  | nil => intro lo a _ _; rfl
  | cons e rest ih =>
    obtain ⟨b, v⟩ := e
    intro lo a h ha
    simp only [Memory.wfFrom, Bool.and_eq_true, decide_eq_true_eq] at h
    rw [Memory.read_entry, if_neg (by omega)]
    exact ih h.2 (by omega)

/-- An address at or beyond the bound is not listed. -/
theorem Memory.read_beyond {bound : Nat} {m : Memory} : ∀ {lo a : Nat}, Memory.wfFrom bound lo m = true → bound ≤ a →
    Memory.read m a = Memory.unlisted := by
  induction m with
  | nil => intro lo a _ _; rfl
  | cons e rest ih =>
    obtain ⟨b, v⟩ := e
    intro lo a h ha
    simp only [Memory.wfFrom, Bool.and_eq_true, decide_eq_true_eq] at h
    rw [Memory.read_entry, if_neg (by omega)]
    exact ih h.2 ha

theorem Memory.read_cons (a : Nat) (v : Byte) (m : Memory) (h : Memory.read m a = Memory.unlisted) (b : Nat) :
    Memory.read (Memory.cons a v m) b = if a = b then v else Memory.read m b := by
  unfold Memory.cons
  by_cases hv : v = Memory.unlisted
  · by_cases hab : a = b
    · subst hab; simp [hv, h]
    · simp [hv, hab]
  · simp [hv, Memory.read_entry]

/-- A byte reads as it was last written, every other byte as before. -/
theorem Memory.read_write {bound : Nat} {m : Memory} : ∀ {lo : Nat}, Memory.wfFrom bound lo m = true →
    ∀ (a : Nat) (v : Byte) (b : Nat), Memory.read (Memory.write m a v) b = if a = b then v else Memory.read m b := by
  induction m with
  | nil => intro lo _ a v b; exact Memory.read_cons a v [] rfl b
  | cons e rest ih =>
    obtain ⟨c, u⟩ := e
    intro lo h a v b
    have h' := h
    simp only [Memory.wfFrom, Bool.and_eq_true, decide_eq_true_eq] at h
    unfold Memory.write
    by_cases hac : a < c
    · rw [if_pos hac]
      refine Memory.read_cons a v _ ?_ b
      rw [Memory.read_entry, if_neg (by omega)]
      exact Memory.read_below h.2 (by omega)
    · rw [if_neg hac]
      by_cases hc : a = c
      · subst hc
        rw [if_pos rfl, Memory.read_cons a v rest (Memory.read_below h.2 (by omega)) b, Memory.read_entry]
        split <;> rfl
      · rw [if_neg hc, Memory.read_entry, ih h.2 a v b, Memory.read_entry]
        by_cases hcb : c = b
        · rw [if_pos hcb, if_pos hcb, if_neg (by omega)]
        · rw [if_neg hcb, if_neg hcb]

theorem Memory.wfFrom_mono {bound : Nat} {m : Memory} {lo lo' : Nat} (h : Memory.wfFrom bound lo m = true) (hl : lo' ≤ lo) :
    Memory.wfFrom bound lo' m = true := by
  cases m with
  | nil => rfl
  | cons e rest =>
    obtain ⟨c, u⟩ := e
    simp only [Memory.wfFrom, Bool.and_eq_true, decide_eq_true_eq] at h ⊢
    exact ⟨⟨⟨by omega, h.1.1.2⟩, h.1.2⟩, h.2⟩

theorem Memory.wfFrom_cons {bound lo a : Nat} {v : Byte} {m : Memory} (hlo : lo ≤ a) (ha : a < bound)
    (h : Memory.wfFrom bound (a + 1) m = true) : Memory.wfFrom bound lo (Memory.cons a v m) = true := by
  unfold Memory.cons
  by_cases hv : v = Memory.unlisted
  · rw [if_pos hv]; exact Memory.wfFrom_mono h (by omega)
  · rw [if_neg hv]
    simp only [Memory.wfFrom, Bool.and_eq_true, decide_eq_true_eq]
    exact ⟨⟨⟨hlo, ha⟩, hv⟩, h⟩

theorem Memory.wfFrom_write {bound : Nat} {m : Memory} : ∀ {lo : Nat}, Memory.wfFrom bound lo m = true →
    ∀ {a : Nat} {v : Byte}, lo ≤ a → a < bound → Memory.wfFrom bound lo (Memory.write m a v) = true := by
  induction m with
  | nil => intro lo _ a v hlo ha; exact Memory.wfFrom_cons hlo ha rfl
  | cons e rest ih =>
    obtain ⟨c, u⟩ := e
    intro lo h a v hlo ha
    have h' := h
    simp only [Memory.wfFrom, Bool.and_eq_true, decide_eq_true_eq] at h
    unfold Memory.write
    by_cases hac : a < c
    · rw [if_pos hac]
      refine Memory.wfFrom_cons hlo ha ?_
      simp only [Memory.wfFrom, Bool.and_eq_true, decide_eq_true_eq]
      exact ⟨⟨⟨by omega, h.1.1.2⟩, h.1.2⟩, h.2⟩
    · rw [if_neg hac]
      by_cases hc : a = c
      · subst hc; rw [if_pos rfl]; exact Memory.wfFrom_cons hlo ha h.2
      · rw [if_neg hc]
        simp only [Memory.wfFrom, Bool.and_eq_true, decide_eq_true_eq]
        exact ⟨⟨⟨h.1.1.1, h.1.1.2⟩, h.1.2⟩, ih h.2 (by omega) ha⟩

/-- A write inside the buffer keeps the canonical form. -/
theorem Memory.wf_write {bound : Nat} {m : Memory} (h : m.wf bound = true) {a : Nat} {v : Byte} (ha : a < bound) :
    (m.write a v).wf bound = true :=
  Memory.wfFrom_write h (Nat.zero_le a) ha

/-- A text written inside the buffer keeps the canonical form. -/
theorem Memory.wf_writeAll {bound : Nat} (t : List Byte) : ∀ {m : Memory} {a : Nat}, m.wf bound = true →
    a + t.length ≤ bound → (m.writeAll a t).wf bound = true := by
  induction t with
  | nil => intro m a h _; exact h
  | cons v vs ih =>
    intro m a h ha
    simp only [List.length_cons] at ha
    exact ih (Memory.wf_write h (by omega)) (by omega)

/-- What a written text reads as, address by address. -/
theorem Memory.read_writeAll {bound : Nat} (t : List Byte) : ∀ {m : Memory} {a : Nat}, m.wf bound = true →
    a + t.length ≤ bound → ∀ b, (m.writeAll a t).read b =
      if a ≤ b ∧ b < a + t.length then t.getD (b - a) 0 else m.read b := by
  induction t with
  | nil => intro m a _ _ b; simp [Memory.writeAll, show ¬(a ≤ b ∧ b < a) by omega]
  | cons v vs ih =>
    intro m a h ha b
    simp only [List.length_cons] at ha ⊢
    rw [Memory.writeAll, ih (Memory.wf_write h (by omega)) (by omega), Memory.read_write h]
    by_cases hab : a = b
    · subst hab; simp
    · by_cases hb : a + 1 ≤ b ∧ b < a + 1 + vs.length
      · obtain ⟨k, rfl⟩ : ∃ k, b = a + 1 + k := ⟨b - (a + 1), by omega⟩
        rw [if_pos hb, if_pos (by omega), show a + 1 + k - (a + 1) = k by omega, show a + 1 + k - a = k + 1 by omega,
          List.getD_cons_succ]
      · rw [if_neg hb, if_neg hab, if_neg (by omega)]

@[simp] theorem Memory.bytes_length (m : Memory) (n : Nat) : ∀ a, (m.bytes a n).length = n := by
  induction n with
  | zero => intro a; rfl
  | succ n ih => intro a; simp [Memory.bytes, ih]

theorem Memory.bytes_congr {m m' : Memory} (n : Nat) : ∀ {a : Nat}, (∀ b, a ≤ b → b < a + n → m.read b = m'.read b) →
    m.bytes a n = m'.bytes a n := by
  induction n with
  | zero => intro a _; rfl
  | succ n ih =>
    intro a h
    rw [Memory.bytes, Memory.bytes, h a (by omega) (by omega), ih fun b hb hb' => h b (by omega) (by omega)]

theorem Memory.bytes_append (m : Memory) (n k : Nat) : ∀ a, m.bytes a (n + k) = m.bytes a n ++ m.bytes (a + n) k := by
  induction n with
  | zero => intro a; simp [Memory.bytes]
  | succ n ih =>
    intro a
    rw [show n + 1 + k = (n + k) + 1 by omega, Memory.bytes, Memory.bytes, ih, List.cons_append,
      show a + 1 + n = a + (n + 1) by omega]

/-- A written text reads back. -/
theorem Memory.bytes_writeAll {bound : Nat} (t : List Byte) {m : Memory} {a : Nat} (h : m.wf bound = true)
    (ha : a + t.length ≤ bound) : (m.writeAll a t).bytes a t.length = t := by
  have key : ∀ (u : List Byte) (b : Nat), (∀ k, k < u.length → (m.writeAll a t).read (b + k) = u.getD k 0) →
      (m.writeAll a t).bytes b u.length = u := by
    intro u
    induction u with
    | nil => intro b _; rfl
    | cons v vs ih =>
      intro b hb
      rw [List.length_cons, Memory.bytes]
      congr 1
      · simpa using hb 0 (by simp)
      · refine ih (b + 1) fun k hk => ?_
        have := hb (k + 1) (by simpa using hk)
        rwa [List.getD_cons_succ, show b + (k + 1) = b + 1 + k by omega] at this
  refine key t a fun k hk => ?_
  rw [Memory.read_writeAll t h ha, if_pos (by omega), Nat.add_sub_cancel_left]

/-- Writing a text changes no byte outside it. -/
theorem Memory.read_writeAll_outside {bound : Nat} (t : List Byte) {m : Memory} {a b : Nat} (h : m.wf bound = true)
    (ha : a + t.length ≤ bound) (hb : b < a ∨ a + t.length ≤ b) : (m.writeAll a t).read b = m.read b := by
  rw [Memory.read_writeAll t h ha, if_neg (by omega)]

end Sys2Proof.Machine
end

