-- ==== Sys2Proof/Laws/State.lean ====
section
/-! SUPPORT. What each named update of the state leaves in each field: one lemma per field per update, so that no proof
unfolds a record update. -/

namespace Sys2Proof.Machine

@[simp] theorem trap_cfg (k : ErrKind) (a : Nat) (s : State) : (trap k a s).cfg = s.cfg := rfl
@[simp] theorem trap_ip (k : ErrKind) (a : Nat) (s : State) : (trap k a s).ip = s.ip := rfl
@[simp] theorem trap_loop (k : ErrKind) (a : Nat) (s : State) : (trap k a s).loop = .failed := rfl
@[simp] theorem trap_err (k : ErrKind) (a : Nat) (s : State) : (trap k a s).err = k := rfl
@[simp] theorem trap_errAddr (k : ErrKind) (a : Nat) (s : State) : (trap k a s).errAddr = a := rfl
@[simp] theorem trap_out (k : ErrKind) (a : Nat) (s : State) : (trap k a s).out = s.out := rfl
@[simp] theorem trap_cur (k : ErrKind) (a : Nat) (s : State) : (trap k a s).cur = s.cur := rfl
@[simp] theorem trap_emitted (k : ErrKind) (a : Nat) (s : State) : (trap k a s).emitted = s.emitted := rfl
@[simp] theorem trap_log (k : ErrKind) (a : Nat) (s : State) : (trap k a s).log = s.log := rfl
@[simp] theorem trap_mem (k : ErrKind) (a : Nat) (s : State) : (trap k a s).mem = s.mem := rfl
@[simp] theorem trap_regs (k : ErrKind) (a : Nat) (s : State) : (trap k a s).regs = s.regs := rfl
@[simp] theorem trap_segs (k : ErrKind) (a : Nat) (s : State) : (trap k a s).segs = s.segs := rfl
@[simp] theorem trap_flags (k : ErrKind) (a : Nat) (s : State) : (trap k a s).flags = s.flags := rfl
@[simp] theorem trap_stack (k : ErrKind) (a : Nat) (s : State) : (trap k a s).stack = s.stack := rfl

@[simp] theorem emit_cfg (r : DecodedInstr) (s : State) : (emit r s).cfg = s.cfg := rfl
@[simp] theorem emit_ip (r : DecodedInstr) (s : State) : (emit r s).ip = s.ip := rfl
@[simp] theorem emit_loop (r : DecodedInstr) (s : State) : (emit r s).loop = .continuing := rfl
@[simp] theorem emit_err (r : DecodedInstr) (s : State) : (emit r s).err = s.err := rfl
@[simp] theorem emit_errAddr (r : DecodedInstr) (s : State) : (emit r s).errAddr = s.errAddr := rfl
@[simp] theorem emit_out (r : DecodedInstr) (s : State) : (emit r s).out = s.out := rfl
@[simp] theorem emit_cur (r : DecodedInstr) (s : State) : (emit r s).cur = s.cur := rfl
@[simp] theorem emit_emitted (r : DecodedInstr) (s : State) : (emit r s).emitted = s.emitted ++ [r] := rfl
@[simp] theorem emit_log (r : DecodedInstr) (s : State) : (emit r s).log = s.log := rfl
@[simp] theorem emit_mem (r : DecodedInstr) (s : State) : (emit r s).mem = s.mem := rfl
@[simp] theorem emit_regs (r : DecodedInstr) (s : State) : (emit r s).regs = s.regs := rfl
@[simp] theorem emit_segs (r : DecodedInstr) (s : State) : (emit r s).segs = s.segs := rfl
@[simp] theorem emit_flags (r : DecodedInstr) (s : State) : (emit r s).flags = s.flags := rfl
@[simp] theorem emit_stack (r : DecodedInstr) (s : State) : (emit r s).stack = s.stack := rfl

@[simp] theorem logEvent_cfg (a : Nat) (b : Byte) (s : State) : (logEvent a b s).cfg = s.cfg := rfl
@[simp] theorem logEvent_ip (a : Nat) (b : Byte) (s : State) : (logEvent a b s).ip = s.ip := rfl
@[simp] theorem logEvent_loop (a : Nat) (b : Byte) (s : State) : (logEvent a b s).loop = s.loop := rfl
@[simp] theorem logEvent_err (a : Nat) (b : Byte) (s : State) : (logEvent a b s).err = s.err := rfl
@[simp] theorem logEvent_errAddr (a : Nat) (b : Byte) (s : State) : (logEvent a b s).errAddr = s.errAddr := rfl
@[simp] theorem logEvent_out (a : Nat) (b : Byte) (s : State) : (logEvent a b s).out = s.out := rfl
@[simp] theorem logEvent_cur (a : Nat) (b : Byte) (s : State) : (logEvent a b s).cur = s.cur := rfl
@[simp] theorem logEvent_emitted (a : Nat) (b : Byte) (s : State) : (logEvent a b s).emitted = s.emitted := rfl
@[simp] theorem logEvent_log (a : Nat) (b : Byte) (s : State) : (logEvent a b s).log = s.log ++ [(a, b)] := rfl
@[simp] theorem logEvent_mem (a : Nat) (b : Byte) (s : State) : (logEvent a b s).mem = s.mem := rfl
@[simp] theorem logEvent_regs (a : Nat) (b : Byte) (s : State) : (logEvent a b s).regs = s.regs := rfl
@[simp] theorem logEvent_segs (a : Nat) (b : Byte) (s : State) : (logEvent a b s).segs = s.segs := rfl
@[simp] theorem logEvent_flags (a : Nat) (b : Byte) (s : State) : (logEvent a b s).flags = s.flags := rfl
@[simp] theorem logEvent_stack (a : Nat) (b : Byte) (s : State) : (logEvent a b s).stack = s.stack := rfl

@[simp] theorem setFlag_cfg (f : Flag) (s : State) : (setFlag f s).cfg = s.cfg := rfl
@[simp] theorem setFlag_ip (f : Flag) (s : State) : (setFlag f s).ip = s.ip := rfl
@[simp] theorem setFlag_loop (f : Flag) (s : State) : (setFlag f s).loop = s.loop := rfl
@[simp] theorem setFlag_err (f : Flag) (s : State) : (setFlag f s).err = s.err := rfl
@[simp] theorem setFlag_errAddr (f : Flag) (s : State) : (setFlag f s).errAddr = s.errAddr := rfl
@[simp] theorem setFlag_out (f : Flag) (s : State) : (setFlag f s).out = s.out := rfl
@[simp] theorem setFlag_cur (f : Flag) (s : State) : (setFlag f s).cur = s.cur := rfl
@[simp] theorem setFlag_emitted (f : Flag) (s : State) : (setFlag f s).emitted = s.emitted := rfl
@[simp] theorem setFlag_log (f : Flag) (s : State) : (setFlag f s).log = s.log := rfl
@[simp] theorem setFlag_mem (f : Flag) (s : State) : (setFlag f s).mem = s.mem := rfl
@[simp] theorem setFlag_regs (f : Flag) (s : State) : (setFlag f s).regs = s.regs := rfl
@[simp] theorem setFlag_segs (f : Flag) (s : State) : (setFlag f s).segs = s.segs := rfl
@[simp] theorem setFlag_flags (f : Flag) (s : State) : (setFlag f s).flags = s.flags ||| f.mask := rfl
@[simp] theorem setFlag_stack (f : Flag) (s : State) : (setFlag f s).stack = s.stack := rfl

@[simp] theorem clearFlag_cfg (f : Flag) (s : State) : (clearFlag f s).cfg = s.cfg := rfl
@[simp] theorem clearFlag_ip (f : Flag) (s : State) : (clearFlag f s).ip = s.ip := rfl
@[simp] theorem clearFlag_loop (f : Flag) (s : State) : (clearFlag f s).loop = s.loop := rfl
@[simp] theorem clearFlag_err (f : Flag) (s : State) : (clearFlag f s).err = s.err := rfl
@[simp] theorem clearFlag_errAddr (f : Flag) (s : State) : (clearFlag f s).errAddr = s.errAddr := rfl
@[simp] theorem clearFlag_out (f : Flag) (s : State) : (clearFlag f s).out = s.out := rfl
@[simp] theorem clearFlag_cur (f : Flag) (s : State) : (clearFlag f s).cur = s.cur := rfl
@[simp] theorem clearFlag_emitted (f : Flag) (s : State) : (clearFlag f s).emitted = s.emitted := rfl
@[simp] theorem clearFlag_log (f : Flag) (s : State) : (clearFlag f s).log = s.log := rfl
@[simp] theorem clearFlag_mem (f : Flag) (s : State) : (clearFlag f s).mem = s.mem := rfl
@[simp] theorem clearFlag_regs (f : Flag) (s : State) : (clearFlag f s).regs = s.regs := rfl
@[simp] theorem clearFlag_segs (f : Flag) (s : State) : (clearFlag f s).segs = s.segs := rfl
@[simp] theorem clearFlag_flags (f : Flag) (s : State) : (clearFlag f s).flags = s.flags &&& ~~~f.mask := rfl
@[simp] theorem clearFlag_stack (f : Flag) (s : State) : (clearFlag f s).stack = s.stack := rfl

@[simp] theorem loadBytes_cfg (a : Nat) (bs : List Byte) (s : State) : (loadBytes a bs s).cfg = s.cfg := rfl
@[simp] theorem loadBytes_ip (a : Nat) (bs : List Byte) (s : State) : (loadBytes a bs s).ip = s.ip := rfl
@[simp] theorem loadBytes_loop (a : Nat) (bs : List Byte) (s : State) : (loadBytes a bs s).loop = s.loop := rfl
@[simp] theorem loadBytes_err (a : Nat) (bs : List Byte) (s : State) : (loadBytes a bs s).err = s.err := rfl
@[simp] theorem loadBytes_errAddr (a : Nat) (bs : List Byte) (s : State) : (loadBytes a bs s).errAddr = s.errAddr := rfl
@[simp] theorem loadBytes_out (a : Nat) (bs : List Byte) (s : State) : (loadBytes a bs s).out = s.out := rfl
@[simp] theorem loadBytes_cur (a : Nat) (bs : List Byte) (s : State) : (loadBytes a bs s).cur = s.cur := rfl
@[simp] theorem loadBytes_emitted (a : Nat) (bs : List Byte) (s : State) : (loadBytes a bs s).emitted = s.emitted := rfl
@[simp] theorem loadBytes_log (a : Nat) (bs : List Byte) (s : State) : (loadBytes a bs s).log = s.log := rfl
@[simp] theorem loadBytes_mem (a : Nat) (bs : List Byte) (s : State) : (loadBytes a bs s).mem = s.mem.writeAll a (bs.take (s.cfg.memSize - a)) := rfl
@[simp] theorem loadBytes_regs (a : Nat) (bs : List Byte) (s : State) : (loadBytes a bs s).regs = s.regs := rfl
@[simp] theorem loadBytes_segs (a : Nat) (bs : List Byte) (s : State) : (loadBytes a bs s).segs = s.segs := rfl
@[simp] theorem loadBytes_flags (a : Nat) (bs : List Byte) (s : State) : (loadBytes a bs s).flags = s.flags := rfl
@[simp] theorem loadBytes_stack (a : Nat) (bs : List Byte) (s : State) : (loadBytes a bs s).stack = s.stack := rfl

@[simp] theorem init_cfg (s : State) : (init s).cfg = s.cfg := rfl
@[simp] theorem init_ip (s : State) : (init s).ip = s.cfg.programStart := rfl
@[simp] theorem init_loop (s : State) : (init s).loop = .fetching := rfl
@[simp] theorem init_err (s : State) : (init s).err = .none := rfl
@[simp] theorem init_errAddr (s : State) : (init s).errAddr = 0 := rfl
@[simp] theorem init_out (s : State) : (init s).out = s.out := rfl
@[simp] theorem init_cur (s : State) : (init s).cur = 0 := rfl
@[simp] theorem init_emitted (s : State) : (init s).emitted = [] := rfl
@[simp] theorem init_log (s : State) : (init s).log = [] := rfl
@[simp] theorem init_mem (s : State) : (init s).mem = s.mem := rfl
@[simp] theorem init_regs (s : State) : (init s).regs = Regs.zero := rfl
@[simp] theorem init_segs (s : State) : (init s).segs = SegRegs.zero := rfl
@[simp] theorem init_flags (s : State) : (init s).flags = 0 := rfl
@[simp] theorem init_stack (s : State) : (init s).stack = [] := rfl

@[simp] theorem failedAt_cfg (s : State) (n : Nat) (k : ErrKind) : (failedAt s n k).cfg = s.cfg := rfl
@[simp] theorem failedAt_ip (s : State) (n : Nat) (k : ErrKind) : (failedAt s n k).ip = s.ip + n := rfl
@[simp] theorem failedAt_loop (s : State) (n : Nat) (k : ErrKind) : (failedAt s n k).loop = .failed := rfl
@[simp] theorem failedAt_err (s : State) (n : Nat) (k : ErrKind) : (failedAt s n k).err = k := rfl
@[simp] theorem failedAt_errAddr (s : State) (n : Nat) (k : ErrKind) : (failedAt s n k).errAddr = s.ip := rfl
@[simp] theorem failedAt_out (s : State) (n : Nat) (k : ErrKind) : (failedAt s n k).out = s.out := rfl
@[simp] theorem failedAt_cur (s : State) (n : Nat) (k : ErrKind) : (failedAt s n k).cur = s.cur := rfl
@[simp] theorem failedAt_emitted (s : State) (n : Nat) (k : ErrKind) : (failedAt s n k).emitted = s.emitted := rfl
@[simp] theorem failedAt_log (s : State) (n : Nat) (k : ErrKind) : (failedAt s n k).log = s.log := rfl
@[simp] theorem failedAt_mem (s : State) (n : Nat) (k : ErrKind) : (failedAt s n k).mem = s.mem := rfl
@[simp] theorem failedAt_regs (s : State) (n : Nat) (k : ErrKind) : (failedAt s n k).regs = s.regs := rfl
@[simp] theorem failedAt_segs (s : State) (n : Nat) (k : ErrKind) : (failedAt s n k).segs = s.segs := rfl
@[simp] theorem failedAt_flags (s : State) (n : Nat) (k : ErrKind) : (failedAt s n k).flags = s.flags := rfl
@[simp] theorem failedAt_stack (s : State) (n : Nat) (k : ErrKind) : (failedAt s n k).stack = s.stack := rfl

@[simp] theorem retired_cfg (s : State) (n : Nat) (r : DecodedInstr) : (retired s n r).cfg = s.cfg := rfl
@[simp] theorem retired_ip (s : State) (n : Nat) (r : DecodedInstr) : (retired s n r).ip = s.ip + n := rfl
@[simp] theorem retired_loop (s : State) (n : Nat) (r : DecodedInstr) : (retired s n r).loop = .continuing := rfl
@[simp] theorem retired_err (s : State) (n : Nat) (r : DecodedInstr) : (retired s n r).err = s.err := rfl
@[simp] theorem retired_errAddr (s : State) (n : Nat) (r : DecodedInstr) : (retired s n r).errAddr = s.errAddr := rfl
@[simp] theorem retired_out (s : State) (n : Nat) (r : DecodedInstr) : (retired s n r).out = if s.cfg.trace then s.out.writeAll s.cur (line r) else s.out := rfl
@[simp] theorem retired_cur (s : State) (n : Nat) (r : DecodedInstr) : (retired s n r).cur = if s.cfg.trace then s.cur + (line r).length else s.cur := rfl
@[simp] theorem retired_emitted (s : State) (n : Nat) (r : DecodedInstr) : (retired s n r).emitted = s.emitted ++ [r] := rfl
@[simp] theorem retired_log (s : State) (n : Nat) (r : DecodedInstr) : (retired s n r).log = s.log := rfl
@[simp] theorem retired_mem (s : State) (n : Nat) (r : DecodedInstr) : (retired s n r).mem = s.mem := rfl
@[simp] theorem retired_regs (s : State) (n : Nat) (r : DecodedInstr) : (retired s n r).regs = s.regs := rfl
@[simp] theorem retired_segs (s : State) (n : Nat) (r : DecodedInstr) : (retired s n r).segs = s.segs := rfl
@[simp] theorem retired_flags (s : State) (n : Nat) (r : DecodedInstr) : (retired s n r).flags = s.flags := rfl
@[simp] theorem retired_stack (s : State) (n : Nat) (r : DecodedInstr) : (retired s n r).stack = s.stack := rfl

end Sys2Proof.Machine
end

