-- ==== Sys2Proof/Laws/Ops.lean ====
section
/-! SUPPORT. What the shared operations can do: `Fetch` and a sequence of fetches, the window, the append, and how a step
concludes. Later proofs cite these and do not unfold the operations. -/

namespace Sys2Proof.Machine

@[simp] theorem Attempt.bind_ok {α β : Type} (a : α) (s : State) (f : α → State → Attempt β) :
    (Attempt.ok a s).bind f = f a s := rfl

@[simp] theorem Attempt.bind_raised {α β : Type} (k : ErrKind) (s : State) (f : α → State → Attempt β) :
    (Attempt.raised k s : Attempt α).bind f = .raised k s := rfl

theorem fetch_out {n : Nat} {s : State} (h : s.cfg.memSize < s.ip + n) : fetch n s = .raised .outOfBounds s := by
  rw [fetch, if_pos h]

theorem fetch_in {n : Nat} {s : State} (h : s.ip + n ≤ s.cfg.memSize) :
    fetch n s = .ok (if n = 1 then zext16 (s.mem.read s.ip) else joinBytes (s.mem.read s.ip) (s.mem.read (s.ip + 1)))
      { s with ip := s.ip + n } := by
  rw [fetch, if_neg (by omega)]

/-- Fetches that all lie inside the image advance the instruction pointer by their sum and do nothing else. -/
theorem consume_in (ns : List Nat) : ∀ {s : State}, s.ip + ns.sum ≤ s.cfg.memSize →
    consume ns s = .ok () { s with ip := s.ip + ns.sum } := by
  induction ns with
  | nil => intro s _; rfl
  | cons n ns ih =>
    intro s h
    rw [List.sum_cons] at h
    rw [consume, fetch_in (by omega), Attempt.bind_ok, ih (by simpa [Nat.add_assoc] using h), List.sum_cons]
    simp [Nat.add_assoc]

/-- What a sequence of fetches can do: all succeed, or one is out of bounds and the advance of those before it stays. -/
theorem consume_cases (ns : List Nat) : ∀ (s : State),
    (s.ip + ns.sum ≤ s.cfg.memSize ∨ ns = []) ∧ consume ns s = .ok () { s with ip := s.ip + ns.sum } ∨
      ∃ k, k ≤ ns.sum ∧ (s.ip + k ≤ s.cfg.memSize ∨ k = 0) ∧
        consume ns s = .raised .outOfBounds { s with ip := s.ip + k } := by
  induction ns with
  | nil => intro s; exact .inl ⟨.inr rfl, rfl⟩
  | cons n ns ih =>
    intro s
    by_cases h : s.cfg.memSize < s.ip + n
    · exact .inr ⟨0, by omega, .inr rfl, by rw [consume, fetch_out h]; rfl⟩
    · rw [consume, fetch_in (by omega), Attempt.bind_ok, List.sum_cons]
      rcases ih { s with ip := s.ip + n } with ⟨hb, he⟩ | ⟨k, hk, hb, he⟩
      · refine .inl ⟨.inl ?_, by rw [he]; simp [Nat.add_assoc]⟩
        rcases hb with hb | rfl
        · simpa [Nat.add_assoc] using hb
        · simp; omega
      · refine .inr ⟨n + k, by omega, .inl ?_, by rw [he]; simp [Nat.add_assoc]⟩
        rcases hb with hb | rfl
        · simpa [Nat.add_assoc] using hb
        · omega

/-- What an append can do: the whole text or nothing (47_formatter.md R235). -/
theorem append_cases (t : List Byte) (s : State) :
    s.cfg.outCap - s.cur < t.length ∧ append t s = .raised .bufferExhausted s ∨
      t.length ≤ s.cfg.outCap - s.cur ∧
        append t s = .ok () { s with out := s.out.writeAll s.cur t, cur := s.cur + t.length } := by
  by_cases h : s.cfg.outCap - s.cur < t.length
  · exact .inl ⟨h, by rw [append, if_pos h]⟩
  · exact .inr ⟨by omega, by rw [append, if_neg h]⟩

/-- A record whose line fits is traced and emitted. -/
theorem conclude_fits {ip0 : Nat} {r : DecodedInstr} {s : State} (h : LineFits s (line r).length) :
    conclude ip0 (.ok r s) = retired s 0 r := by
  unfold conclude traceStage retired
  by_cases ht : s.cfg.trace = true
  · rcases append_cases (line r) s with ⟨hl, _⟩ | ⟨_, he⟩
    · have := h ht; omega
    · simp only [ht, he, if_true, emit, Nat.add_zero]
  · simp only [ht, emit, Nat.add_zero]
    rfl

/-- A record whose line does not fit enters `FAILED` and leaves nothing behind. -/
theorem conclude_exhausted {ip0 : Nat} {r : DecodedInstr} {s : State} (ht : s.cfg.trace = true)
    (h : s.cfg.outCap - s.cur < (line r).length) :
    conclude ip0 (.ok r s) = trap .bufferExhausted ip0 s := by
  simp only [conclude, traceStage, ht, append, h, if_true]

/-- What the loop can do with a record: trace and emit it, or fail for want of room. -/
theorem conclude_cases (ip0 : Nat) (r : DecodedInstr) (s : State) :
    LineFits s (line r).length ∧ conclude ip0 (.ok r s) = retired s 0 r ∨
      s.cfg.trace = true ∧ s.cfg.outCap - s.cur < (line r).length ∧
        conclude ip0 (.ok r s) = trap .bufferExhausted ip0 s := by
  by_cases h : LineFits s (line r).length
  · exact .inl ⟨h, conclude_fits h⟩
  · have ht : s.cfg.trace = true := by
      by_contra hc; exact h fun h' => absurd h' hc
    have hl : s.cfg.outCap - s.cur < (line r).length := by
      by_contra hc; exact h fun _ => by omega
    exact .inr ⟨ht, hl, conclude_exhausted ht hl⟩

/-- The record of an instruction at its boundary: its address, and its length measured (45_irregular_formats.md R161). -/
def placed (r : DecodedInstr) (s : State) (n : Nat) : DecodedInstr := { r with addr := s.ip, len := n }

/-- What an instruction can do: complete, run off the image, or find no room for its line. -/
theorem retire_cases (ns : List Nat) (r : DecodedInstr) (s : State) :
    (s.ip + ns.sum ≤ s.cfg.memSize ∨ ns = []) ∧ LineFits s (line (placed r s ns.sum)).length ∧
        retire ns r s = .next (retired s ns.sum (placed r s ns.sum)) ∨
      (s.ip + ns.sum ≤ s.cfg.memSize ∨ ns = []) ∧ s.cfg.trace = true ∧
        s.cfg.outCap - s.cur < (line (placed r s ns.sum)).length ∧
        retire ns r s = .next (failedAt s ns.sum .bufferExhausted) ∨
      ∃ k, k ≤ ns.sum ∧ (s.ip + k ≤ s.cfg.memSize ∨ k = 0) ∧
        retire ns r s = .next (failedAt s k .outOfBounds) := by
  rcases consume_cases ns s with ⟨hb, he⟩ | ⟨k, hk, hb, he⟩
  · have hr : retire ns r s = .next (conclude s.ip (.ok (placed r s ns.sum) { s with ip := s.ip + ns.sum })) := by
      simp [retire, he, placed]
    rcases conclude_cases s.ip (placed r s ns.sum) { s with ip := s.ip + ns.sum } with ⟨hf, hc⟩ | ⟨ht, hl, hc⟩
    · refine .inl ⟨hb, hf, ?_⟩
      rw [hr, hc]
      simp [retired]
    · exact .inr (.inl ⟨hb, ht, hl, by rw [hr, hc]; rfl⟩)
  · exact .inr (.inr ⟨k, hk, hb, by simp [retire, he, conclude, trap, failedAt]⟩)

/-- An instruction whose bytes lie in the image and whose line fits completes. -/
theorem retire_completes {ns : List Nat} {r : DecodedInstr} {s : State} (hb : s.ip + ns.sum ≤ s.cfg.memSize)
    (hf : LineFits s (line (placed r s ns.sum)).length) :
    retire ns r s = .next (retired s ns.sum (placed r s ns.sum)) := by
  have hc := @conclude_fits s.ip (placed r s ns.sum) { s with ip := s.ip + ns.sum } hf
  have hr : retire ns r s = .next (conclude s.ip (.ok (placed r s ns.sum) { s with ip := s.ip + ns.sum })) := by
    simp [retire, consume_in ns hb, placed]
  rw [hr, hc]
  simp [retired]

/-- An instruction whose bytes lie in the image and whose line does not fit is not emitted. -/
theorem retire_exhausted {ns : List Nat} {r : DecodedInstr} {s : State} (hb : s.ip + ns.sum ≤ s.cfg.memSize)
    (ht : s.cfg.trace = true) (hl : s.cfg.outCap - s.cur < (line (placed r s ns.sum)).length) :
    retire ns r s = .next (failedAt s ns.sum .bufferExhausted) := by
  have hc := @conclude_exhausted s.ip (placed r s ns.sum) { s with ip := s.ip + ns.sum } ht hl
  have hr : retire ns r s = .next (conclude s.ip (.ok (placed r s ns.sum) { s with ip := s.ip + ns.sum })) := by
    simp [retire, consume_in ns hb, placed]
  rw [hr, hc]
  rfl

/-- `line` reads neither the address, the length nor the opcode byte of a record (47_formatter.md R224). -/
@[simp] theorem line_placed (r : DecodedInstr) (s : State) (n : Nat) : line (placed r s n) = line r := rfl

/-! ### The loader -/

/-- The loader keeps the image canonical. -/
theorem loadBytes_wf {a : Nat} {bs : List Byte} {s : State} (h : s.mem.wf s.cfg.memSize = true)
    (ha : a ≤ s.cfg.memSize) : (loadBytes a bs s).mem.wf (loadBytes a bs s).cfg.memSize = true := by
  rw [loadBytes_mem, loadBytes_cfg]
  refine Memory.wf_writeAll _ h ?_
  rw [List.length_take]
  omega

/-- `MemWrite` keeps the image canonical. -/
theorem memWrite_wf {addr n : Nat} {v : Word} {s t : State} (h : s.mem.wf s.cfg.memSize = true) (hn : n = 1 ∨ n = 2)
    (hw : memWrite addr n v s = .ok () t) : t.mem.wf t.cfg.memSize = true := by
  unfold memWrite at hw
  split at hw
  · exact absurd hw (by simp)
  · rename_i hb
    split at hw
    · cases hw
      exact Memory.wf_write h (by omega)
    · cases hw
      exact Memory.wf_write (Memory.wf_write h (by omega)) (by omega)

end Sys2Proof.Machine
end

