-- ==== Sys2Proof/Laws/PerInstr.lean ====
section
/-! SUPPORT. Facts of every instruction as syntax, one lemma per constructor: how long its encoding is, and that only the
sentinel and the shadowed `ADD` begin with the byte 0x00. -/

namespace Sys2Proof

theorem Disp.encoded_length (d : Disp) : d.encoded.length = d.size.bytes := by cases d <;> rfl

theorem Imm.encoded_length (m : Imm) : m.encoded.length = m.size.bytes := by cases m <;> rfl

theorem Disp.fetches_sum (d : Disp) : d.fetches.sum = d.size.bytes := by cases d <;> rfl

theorem Imm.fetches_sum (m : Imm) : m.fetches.sum = m.size.bytes := by cases m <;> rfl

theorem Disp.bytes_le (d : Disp) : d.size.bytes ≤ 2 := by cases d <;> simp [Disp.size, SizeTag.bytes]

theorem Imm.bytes_range (m : Imm) : 1 ≤ m.size.bytes ∧ m.size.bytes ≤ 2 := by cases m <;> simp [Imm.size, SizeTag.bytes]

theorem encodeStd_length (c : Byte) (mod : BitVec 2) (reg rm : BitVec 3) (disp : Disp) :
    1 ≤ (encodeStd c mod reg rm disp).length ∧ (encodeStd c mod reg rm disp).length ≤ 6 := by
  have := Disp.bytes_le disp
  simp [encodeStd, Disp.encoded_length]
  omega

theorem encodeRmImm_length (op : AluOp) (s w : Bool) (mod : BitVec 2) (rm : BitVec 3) (disp : Disp) (imm : Imm) :
    1 ≤ (encodeRmImm op s w mod rm disp imm).length ∧ (encodeRmImm op s w mod rm disp imm).length ≤ 6 := by
  have := Disp.bytes_le disp
  have := Imm.bytes_range imm
  simp [encodeRmImm, Disp.encoded_length, Imm.encoded_length]
  omega

theorem withImm_length (c : Byte) (imm : Imm) : 1 ≤ (c :: imm.encoded).length ∧ (c :: imm.encoded).length ≤ 6 := by
  have := Imm.bytes_range imm
  simp [Imm.encoded_length]
  omega

/-- An instruction has 1 to 6 bytes (30_encoding.md R60, R61). -/
def Laws.Length.Statement (i : Instr) : Prop := 1 ≤ (encode i).length ∧ (encode i).length ≤ 6

theorem aluStdOpcode_eq_zero_iff (op : AluOp) (d w : Bool) : aluStdOpcode op d w = 0 ↔ op = .add ∧ d = false ∧ w = false := by
  cases op <;> cases d <;> cases w <;> decide

theorem movStdOpcode_ne_zero (d w : Bool) : movStdOpcode d w ≠ 0 := by cases d <;> cases w <;> decide

theorem accImmOpcode_ne_zero (op : AluOp) (w : Bool) : accImmOpcode op w ≠ 0 := by cases op <;> cases w <;> decide

theorem rmImmOpcode_ne_zero (s w : Bool) : rmImmOpcode s w ≠ 0 := by cases s <;> cases w <;> decide

theorem regImmOpcode_ne_zero (w : Bool) (reg : BitVec 3) : regImmOpcode w reg ≠ 0 := by revert w reg; decide

/-- A well-formed instruction that begins with the byte 0x00 is the sentinel or the shadowed `ADD` (30_encoding.md R77). -/
def Laws.FirstByte.Statement (i : Instr) : Prop :=
  i.WellFormed → i.shadowed = false → i ≠ .sentinel → ∃ b0 rest, encode i = b0 :: rest ∧ b0 ≠ 0

theorem Laws.Length.addRmReg (d w : Bool) (mod : BitVec 2) (reg rm : BitVec 3) (disp : Disp) : Length.Statement (.addRmReg d w mod reg rm disp) :=
  encodeStd_length _ _ _ _ _

theorem Laws.Length.orRmReg (d w : Bool) (mod : BitVec 2) (reg rm : BitVec 3) (disp : Disp) : Length.Statement (.orRmReg d w mod reg rm disp) :=
  encodeStd_length _ _ _ _ _

theorem Laws.Length.adcRmReg (d w : Bool) (mod : BitVec 2) (reg rm : BitVec 3) (disp : Disp) : Length.Statement (.adcRmReg d w mod reg rm disp) :=
  encodeStd_length _ _ _ _ _

theorem Laws.Length.sbbRmReg (d w : Bool) (mod : BitVec 2) (reg rm : BitVec 3) (disp : Disp) : Length.Statement (.sbbRmReg d w mod reg rm disp) :=
  encodeStd_length _ _ _ _ _

theorem Laws.Length.andRmReg (d w : Bool) (mod : BitVec 2) (reg rm : BitVec 3) (disp : Disp) : Length.Statement (.andRmReg d w mod reg rm disp) :=
  encodeStd_length _ _ _ _ _

theorem Laws.Length.subRmReg (d w : Bool) (mod : BitVec 2) (reg rm : BitVec 3) (disp : Disp) : Length.Statement (.subRmReg d w mod reg rm disp) :=
  encodeStd_length _ _ _ _ _

theorem Laws.Length.xorRmReg (d w : Bool) (mod : BitVec 2) (reg rm : BitVec 3) (disp : Disp) : Length.Statement (.xorRmReg d w mod reg rm disp) :=
  encodeStd_length _ _ _ _ _

theorem Laws.Length.cmpRmReg (d w : Bool) (mod : BitVec 2) (reg rm : BitVec 3) (disp : Disp) : Length.Statement (.cmpRmReg d w mod reg rm disp) :=
  encodeStd_length _ _ _ _ _

theorem Laws.Length.movRmReg (d w : Bool) (mod : BitVec 2) (reg rm : BitVec 3) (disp : Disp) : Length.Statement (.movRmReg d w mod reg rm disp) :=
  encodeStd_length _ _ _ _ _

theorem Laws.Length.addAccImm (w : Bool) (imm : Imm) : Length.Statement (.addAccImm w imm) := withImm_length _ _

theorem Laws.Length.orAccImm (w : Bool) (imm : Imm) : Length.Statement (.orAccImm w imm) := withImm_length _ _

theorem Laws.Length.adcAccImm (w : Bool) (imm : Imm) : Length.Statement (.adcAccImm w imm) := withImm_length _ _

theorem Laws.Length.sbbAccImm (w : Bool) (imm : Imm) : Length.Statement (.sbbAccImm w imm) := withImm_length _ _

theorem Laws.Length.andAccImm (w : Bool) (imm : Imm) : Length.Statement (.andAccImm w imm) := withImm_length _ _

theorem Laws.Length.subAccImm (w : Bool) (imm : Imm) : Length.Statement (.subAccImm w imm) := withImm_length _ _

theorem Laws.Length.xorAccImm (w : Bool) (imm : Imm) : Length.Statement (.xorAccImm w imm) := withImm_length _ _

theorem Laws.Length.cmpAccImm (w : Bool) (imm : Imm) : Length.Statement (.cmpAccImm w imm) := withImm_length _ _

theorem Laws.Length.addRmImm (s w : Bool) (mod : BitVec 2) (rm : BitVec 3) (disp : Disp) (imm : Imm) :
    Length.Statement (.addRmImm s w mod rm disp imm) := encodeRmImm_length _ _ _ _ _ _ _

theorem Laws.Length.orRmImm (s w : Bool) (mod : BitVec 2) (rm : BitVec 3) (disp : Disp) (imm : Imm) :
    Length.Statement (.orRmImm s w mod rm disp imm) := encodeRmImm_length _ _ _ _ _ _ _

theorem Laws.Length.adcRmImm (s w : Bool) (mod : BitVec 2) (rm : BitVec 3) (disp : Disp) (imm : Imm) :
    Length.Statement (.adcRmImm s w mod rm disp imm) := encodeRmImm_length _ _ _ _ _ _ _

theorem Laws.Length.sbbRmImm (s w : Bool) (mod : BitVec 2) (rm : BitVec 3) (disp : Disp) (imm : Imm) :
    Length.Statement (.sbbRmImm s w mod rm disp imm) := encodeRmImm_length _ _ _ _ _ _ _

theorem Laws.Length.andRmImm (s w : Bool) (mod : BitVec 2) (rm : BitVec 3) (disp : Disp) (imm : Imm) :
    Length.Statement (.andRmImm s w mod rm disp imm) := encodeRmImm_length _ _ _ _ _ _ _

theorem Laws.Length.subRmImm (s w : Bool) (mod : BitVec 2) (rm : BitVec 3) (disp : Disp) (imm : Imm) :
    Length.Statement (.subRmImm s w mod rm disp imm) := encodeRmImm_length _ _ _ _ _ _ _

theorem Laws.Length.xorRmImm (s w : Bool) (mod : BitVec 2) (rm : BitVec 3) (disp : Disp) (imm : Imm) :
    Length.Statement (.xorRmImm s w mod rm disp imm) := encodeRmImm_length _ _ _ _ _ _ _

theorem Laws.Length.cmpRmImm (s w : Bool) (mod : BitVec 2) (rm : BitVec 3) (disp : Disp) (imm : Imm) :
    Length.Statement (.cmpRmImm s w mod rm disp imm) := encodeRmImm_length _ _ _ _ _ _ _

theorem Laws.Length.movRegImm (w : Bool) (reg : BitVec 3) (imm : Imm) : Length.Statement (.movRegImm w reg imm) :=
  withImm_length _ _

theorem Laws.Length.nop : Length.Statement .nop := by simp [Length.Statement, encode]

theorem Laws.Length.hlt : Length.Statement .hlt := by simp [Length.Statement, encode]

theorem Laws.Length.cmc : Length.Statement .cmc := by simp [Length.Statement, encode]

theorem Laws.Length.clc : Length.Statement .clc := by simp [Length.Statement, encode]

theorem Laws.Length.stc : Length.Statement .stc := by simp [Length.Statement, encode]

theorem Laws.Length.cli : Length.Statement .cli := by simp [Length.Statement, encode]

theorem Laws.Length.sti : Length.Statement .sti := by simp [Length.Statement, encode]

theorem Laws.Length.cld : Length.Statement .cld := by simp [Length.Statement, encode]

theorem Laws.Length.std : Length.Statement .std := by simp [Length.Statement, encode]

theorem Laws.Length.sentinel : Length.Statement .sentinel := by simp [Length.Statement, encode]

theorem Laws.Length.unrecognized (b0 : Byte) : Length.Statement (.unrecognized b0) := by simp [Length.Statement, encode]

theorem Laws.FirstByte.addRmReg (d w : Bool) (mod : BitVec 2) (reg rm : BitVec 3) (disp : Disp) : FirstByte.Statement (.addRmReg d w mod reg rm disp) := by
  intro _ hs _
  refine ⟨_, _, rfl, fun h => ?_⟩
  obtain ⟨_, rfl, rfl⟩ := (aluStdOpcode_eq_zero_iff _ _ _).mp h
  simp [Instr.shadowed] at hs

theorem Laws.FirstByte.orRmReg (d w : Bool) (mod : BitVec 2) (reg rm : BitVec 3) (disp : Disp) : FirstByte.Statement (.orRmReg d w mod reg rm disp) :=
  fun _ _ _ => ⟨_, _, rfl, fun h => absurd ((aluStdOpcode_eq_zero_iff _ _ _).mp h).1 (by decide)⟩

theorem Laws.FirstByte.adcRmReg (d w : Bool) (mod : BitVec 2) (reg rm : BitVec 3) (disp : Disp) : FirstByte.Statement (.adcRmReg d w mod reg rm disp) :=
  fun _ _ _ => ⟨_, _, rfl, fun h => absurd ((aluStdOpcode_eq_zero_iff _ _ _).mp h).1 (by decide)⟩

theorem Laws.FirstByte.sbbRmReg (d w : Bool) (mod : BitVec 2) (reg rm : BitVec 3) (disp : Disp) : FirstByte.Statement (.sbbRmReg d w mod reg rm disp) :=
  fun _ _ _ => ⟨_, _, rfl, fun h => absurd ((aluStdOpcode_eq_zero_iff _ _ _).mp h).1 (by decide)⟩

theorem Laws.FirstByte.andRmReg (d w : Bool) (mod : BitVec 2) (reg rm : BitVec 3) (disp : Disp) : FirstByte.Statement (.andRmReg d w mod reg rm disp) :=
  fun _ _ _ => ⟨_, _, rfl, fun h => absurd ((aluStdOpcode_eq_zero_iff _ _ _).mp h).1 (by decide)⟩

theorem Laws.FirstByte.subRmReg (d w : Bool) (mod : BitVec 2) (reg rm : BitVec 3) (disp : Disp) : FirstByte.Statement (.subRmReg d w mod reg rm disp) :=
  fun _ _ _ => ⟨_, _, rfl, fun h => absurd ((aluStdOpcode_eq_zero_iff _ _ _).mp h).1 (by decide)⟩

theorem Laws.FirstByte.xorRmReg (d w : Bool) (mod : BitVec 2) (reg rm : BitVec 3) (disp : Disp) : FirstByte.Statement (.xorRmReg d w mod reg rm disp) :=
  fun _ _ _ => ⟨_, _, rfl, fun h => absurd ((aluStdOpcode_eq_zero_iff _ _ _).mp h).1 (by decide)⟩

theorem Laws.FirstByte.cmpRmReg (d w : Bool) (mod : BitVec 2) (reg rm : BitVec 3) (disp : Disp) : FirstByte.Statement (.cmpRmReg d w mod reg rm disp) :=
  fun _ _ _ => ⟨_, _, rfl, fun h => absurd ((aluStdOpcode_eq_zero_iff _ _ _).mp h).1 (by decide)⟩

theorem Laws.FirstByte.movRmReg (d w : Bool) (mod : BitVec 2) (reg rm : BitVec 3) (disp : Disp) : FirstByte.Statement (.movRmReg d w mod reg rm disp) :=
  fun _ _ _ => ⟨_, _, rfl, movStdOpcode_ne_zero d w⟩

theorem Laws.FirstByte.addAccImm (w : Bool) (imm : Imm) : FirstByte.Statement (.addAccImm w imm) :=
  fun _ _ _ => ⟨_, _, rfl, accImmOpcode_ne_zero _ w⟩

theorem Laws.FirstByte.orAccImm (w : Bool) (imm : Imm) : FirstByte.Statement (.orAccImm w imm) :=
  fun _ _ _ => ⟨_, _, rfl, accImmOpcode_ne_zero _ w⟩

theorem Laws.FirstByte.adcAccImm (w : Bool) (imm : Imm) : FirstByte.Statement (.adcAccImm w imm) :=
  fun _ _ _ => ⟨_, _, rfl, accImmOpcode_ne_zero _ w⟩

theorem Laws.FirstByte.sbbAccImm (w : Bool) (imm : Imm) : FirstByte.Statement (.sbbAccImm w imm) :=
  fun _ _ _ => ⟨_, _, rfl, accImmOpcode_ne_zero _ w⟩

theorem Laws.FirstByte.andAccImm (w : Bool) (imm : Imm) : FirstByte.Statement (.andAccImm w imm) :=
  fun _ _ _ => ⟨_, _, rfl, accImmOpcode_ne_zero _ w⟩

theorem Laws.FirstByte.subAccImm (w : Bool) (imm : Imm) : FirstByte.Statement (.subAccImm w imm) :=
  fun _ _ _ => ⟨_, _, rfl, accImmOpcode_ne_zero _ w⟩

theorem Laws.FirstByte.xorAccImm (w : Bool) (imm : Imm) : FirstByte.Statement (.xorAccImm w imm) :=
  fun _ _ _ => ⟨_, _, rfl, accImmOpcode_ne_zero _ w⟩

theorem Laws.FirstByte.cmpAccImm (w : Bool) (imm : Imm) : FirstByte.Statement (.cmpAccImm w imm) :=
  fun _ _ _ => ⟨_, _, rfl, accImmOpcode_ne_zero _ w⟩

theorem Laws.FirstByte.addRmImm (s w : Bool) (mod : BitVec 2) (rm : BitVec 3) (disp : Disp) (imm : Imm) :
    FirstByte.Statement (.addRmImm s w mod rm disp imm) := fun _ _ _ => ⟨_, _, rfl, rmImmOpcode_ne_zero s w⟩

theorem Laws.FirstByte.orRmImm (s w : Bool) (mod : BitVec 2) (rm : BitVec 3) (disp : Disp) (imm : Imm) :
    FirstByte.Statement (.orRmImm s w mod rm disp imm) := fun _ _ _ => ⟨_, _, rfl, rmImmOpcode_ne_zero s w⟩

theorem Laws.FirstByte.adcRmImm (s w : Bool) (mod : BitVec 2) (rm : BitVec 3) (disp : Disp) (imm : Imm) :
    FirstByte.Statement (.adcRmImm s w mod rm disp imm) := fun _ _ _ => ⟨_, _, rfl, rmImmOpcode_ne_zero s w⟩

theorem Laws.FirstByte.sbbRmImm (s w : Bool) (mod : BitVec 2) (rm : BitVec 3) (disp : Disp) (imm : Imm) :
    FirstByte.Statement (.sbbRmImm s w mod rm disp imm) := fun _ _ _ => ⟨_, _, rfl, rmImmOpcode_ne_zero s w⟩

theorem Laws.FirstByte.andRmImm (s w : Bool) (mod : BitVec 2) (rm : BitVec 3) (disp : Disp) (imm : Imm) :
    FirstByte.Statement (.andRmImm s w mod rm disp imm) := fun _ _ _ => ⟨_, _, rfl, rmImmOpcode_ne_zero s w⟩

theorem Laws.FirstByte.subRmImm (s w : Bool) (mod : BitVec 2) (rm : BitVec 3) (disp : Disp) (imm : Imm) :
    FirstByte.Statement (.subRmImm s w mod rm disp imm) := fun _ _ _ => ⟨_, _, rfl, rmImmOpcode_ne_zero s w⟩

theorem Laws.FirstByte.xorRmImm (s w : Bool) (mod : BitVec 2) (rm : BitVec 3) (disp : Disp) (imm : Imm) :
    FirstByte.Statement (.xorRmImm s w mod rm disp imm) := fun _ _ _ => ⟨_, _, rfl, rmImmOpcode_ne_zero s w⟩

theorem Laws.FirstByte.cmpRmImm (s w : Bool) (mod : BitVec 2) (rm : BitVec 3) (disp : Disp) (imm : Imm) :
    FirstByte.Statement (.cmpRmImm s w mod rm disp imm) := fun _ _ _ => ⟨_, _, rfl, rmImmOpcode_ne_zero s w⟩

theorem Laws.FirstByte.movRegImm (w : Bool) (reg : BitVec 3) (imm : Imm) : FirstByte.Statement (.movRegImm w reg imm) :=
  fun _ _ _ => ⟨_, _, rfl, regImmOpcode_ne_zero w reg⟩

theorem Laws.FirstByte.nop : FirstByte.Statement .nop := fun _ _ _ => ⟨_, _, rfl, by decide⟩

theorem Laws.FirstByte.hlt : FirstByte.Statement .hlt := fun _ _ _ => ⟨_, _, rfl, by decide⟩

theorem Laws.FirstByte.cmc : FirstByte.Statement .cmc := fun _ _ _ => ⟨_, _, rfl, by decide⟩

theorem Laws.FirstByte.clc : FirstByte.Statement .clc := fun _ _ _ => ⟨_, _, rfl, by decide⟩

theorem Laws.FirstByte.stc : FirstByte.Statement .stc := fun _ _ _ => ⟨_, _, rfl, by decide⟩

theorem Laws.FirstByte.cli : FirstByte.Statement .cli := fun _ _ _ => ⟨_, _, rfl, by decide⟩

theorem Laws.FirstByte.sti : FirstByte.Statement .sti := fun _ _ _ => ⟨_, _, rfl, by decide⟩

theorem Laws.FirstByte.cld : FirstByte.Statement .cld := fun _ _ _ => ⟨_, _, rfl, by decide⟩

theorem Laws.FirstByte.std : FirstByte.Statement .std := fun _ _ _ => ⟨_, _, rfl, by decide⟩

theorem Laws.FirstByte.sentinel : FirstByte.Statement .sentinel := fun _ _ h => absurd rfl h

theorem Laws.FirstByte.unrecognized (b0 : Byte) : FirstByte.Statement (.unrecognized b0) := by
  intro hw _ _
  refine ⟨b0, [], rfl, fun h => ?_⟩
  subst h
  exact absurd hw (by decide)

end Sys2Proof
end

