-- ==== Sys2Proof/Tests/Slice0.lean ====
section
/-! SUPPORT. The model's own tests. Bytes, fields and lines are the examples of the spec's rules (each test names its rule)
and of 95_test_vectors.md; then a witness for each statement that has hypotheses, at the boundary of its ranges. -/

namespace Sys2Proof.Tests

open Sys2Proof.Machine

/-- The state after `Init` with bytes loaded at `PROGRAM_START` = 0x0100. -/
def image (bs : List Byte) : State := loadBytes 0x0100 bs State.reset

/-- The same, with the image ending right after the bytes. -/
def shortImage (bs : List Byte) : State :=
  loadBytes 0x0100 bs { State.reset with cfg := { Config.atReset with memSize := 0x0100 + bs.length } }

/-- The same, with a trace buffer of `n` characters. -/
def smallBuffer (n : Nat) (bs : List Byte) : State :=
  loadBytes 0x0100 bs { State.reset with cfg := { Config.atReset with outCap := n } }

/-- The state one step leads to. -/
def after (s : State) : Option State :=
  match step s with
  | .next t => some t
  | .fault _ => none
  | .refused _ => none

/-- What a step shows: the loop state, the instruction pointer and the text. -/
def shown (s : State) : Option (LoopState × Nat × List Byte) := (after s).map fun t => (t.loop, t.ip, traceText t)

/-- How a step fails: the loop state, the cause, its address, the instruction pointer and the cursor. -/
def failure (s : State) : Option (LoopState × ErrKind × Nat × Nat × Nat) :=
  (after s).map fun t => (t.loop, t.err, t.errAddr, t.ip, t.cur)

/-! ### Well-formedness refuses ill-formed terms -/

/-- mod 3 has no displacement (R121). -/
theorem test_wf_no_disp : Instr.wellFormed (.andRmReg true true 3 3 1 (.byte 1)) = false := by decide

/-- mod 1 has one displacement byte (R121). -/
theorem test_wf_disp8 : Instr.wellFormed (.movRmReg true true 1 0 7 (.word 1)) = false := by decide

/-- mod 0 with rm 6 has a two-byte direct address (R121). -/
theorem test_wf_direct : Instr.wellFormed (.addRmImm false false 0 6 .none (.byte 1)) = false := by decide

/-- The accumulator's word form has a two-byte immediate (R68). -/
theorem test_wf_acc_imm : Instr.wellFormed (.addAccImm true (.byte 1)) = false := by decide

/-- s = 1 and w = 1 has a one-byte immediate (R68). -/
theorem test_wf_rm_imm : Instr.wellFormed (.addRmImm true true 3 0 .none (.word 1)) = false := by decide

/-- The byte form of `MOV_REG_IMM` has a one-byte immediate (R68). -/
theorem test_wf_reg_imm : Instr.wellFormed (.movRegImm false 0 (.word 1)) = false := by decide

/-- A recognised opcode byte is not an unrecognised one (R74). -/
theorem test_wf_unrecognized : Instr.wellFormed (.unrecognized 0x90) = false := by decide

/-! ### Decoding: words written out from the encodings of R62 and R63, followed by one byte that is not theirs -/

/-- R144. -/
theorem test_decode_add_rm_reg : decode [0b00000001, 0b11011000, 0xEB] = .ok (.addRmReg false true 3 3 0 .none) [0xEB] := by decide

/-- R145. -/
theorem test_decode_or_rm_reg : decode [0b00001010, 0b01001110, 0x05, 0xEB] = .ok (.orRmReg true false 1 1 6 (.byte 0x05)) [0xEB] := by decide

/-- R146. -/
theorem test_decode_adc_rm_reg : decode [0b00010001, 0b00011110, 0x00, 0x20, 0xEB] = .ok (.adcRmReg false true 0 3 6 (.word 0x2000)) [0xEB] := by decide

/-- R147. -/
theorem test_decode_sbb_rm_reg : decode [0b00011011, 0b10000000, 0x00, 0x01, 0xEB] = .ok (.sbbRmReg true true 2 0 0 (.word 0x0100)) [0xEB] := by decide

/-- R148. -/
theorem test_decode_and_rm_reg : decode [0b00100001, 0b01011010, 0x10, 0xEB] = .ok (.andRmReg false true 1 3 2 (.byte 0x10)) [0xEB] := by decide

/-- R149. -/
theorem test_decode_sub_rm_reg : decode [0b00101010, 0b00110110, 0xFF, 0xFF, 0xEB] = .ok (.subRmReg true false 0 6 6 (.word 0xFFFF)) [0xEB] := by decide

/-- R150. -/
theorem test_decode_xor_rm_reg : decode [0b00110010, 0b01100100, 0x80, 0xEB] = .ok (.xorRmReg true false 1 4 4 (.byte 0x80)) [0xEB] := by decide

/-- R151. -/
theorem test_decode_cmp_rm_reg : decode [0b00111000, 0b10100001, 0x00, 0x80, 0xEB] = .ok (.cmpRmReg false false 2 4 1 (.word 0x8000)) [0xEB] := by decide

/-- R152. -/
theorem test_decode_mov_rm_reg : decode [0b10001011, 0b01000111, 0xFF, 0xEB] = .ok (.movRmReg true true 1 0 7 (.byte 0xFF)) [0xEB] := by decide

/-- R163. -/
theorem test_decode_add_acc_imm : decode [0b00000101, 0xE8, 0x03, 0xEB] = .ok (.addAccImm true (.word 0x03E8)) [0xEB] := by decide

/-- R164. -/
theorem test_decode_or_acc_imm : decode [0b00001100, 0x80, 0xEB] = .ok (.orAccImm false (.byte 0x80)) [0xEB] := by decide

/-- R165. -/
theorem test_decode_adc_acc_imm : decode [0b00010100, 0xFF, 0xEB] = .ok (.adcAccImm false (.byte 0xFF)) [0xEB] := by decide

/-- R166. -/
theorem test_decode_sbb_acc_imm : decode [0b00011101, 0x34, 0x12, 0xEB] = .ok (.sbbAccImm true (.word 0x1234)) [0xEB] := by decide

/-- R167. -/
theorem test_decode_and_acc_imm : decode [0b00100101, 0xF0, 0x0F, 0xEB] = .ok (.andAccImm true (.word 0x0FF0)) [0xEB] := by decide

/-- R168. -/
theorem test_decode_sub_acc_imm : decode [0b00101100, 0x0A, 0xEB] = .ok (.subAccImm false (.byte 0x0A)) [0xEB] := by decide

/-- R169. -/
theorem test_decode_xor_acc_imm : decode [0b00110101, 0x55, 0xAA, 0xEB] = .ok (.xorAccImm true (.word 0xAA55)) [0xEB] := by decide

/-- R170. -/
theorem test_decode_cmp_acc_imm : decode [0b00111100, 0x00, 0xEB] = .ok (.cmpAccImm false (.byte 0x00)) [0xEB] := by decide

/-- R172. -/
theorem test_decode_add_rm_imm : decode [0b10000001, 0b00000110, 0x00, 0x10, 0xE8, 0x03, 0xEB] = .ok (.addRmImm false true 0 6 (.word 0x1000) (.word 0x03E8)) [0xEB] := by decide

/-- R173. -/
theorem test_decode_or_rm_imm : decode [0b10000011, 0b01001110, 0x02, 0x01, 0xEB] = .ok (.orRmImm true true 1 6 (.byte 0x02) (.byte 0x01)) [0xEB] := by decide

/-- R174. -/
theorem test_decode_adc_rm_imm : decode [0b10000011, 0b11010010, 0xFF, 0xEB] = .ok (.adcRmImm true true 3 2 .none (.byte 0xFF)) [0xEB] := by decide

/-- R175. -/
theorem test_decode_sbb_rm_imm : decode [0b10000000, 0b00011100, 0x01, 0xEB] = .ok (.sbbRmImm false false 0 4 .none (.byte 0x01)) [0xEB] := by decide

/-- R176. -/
theorem test_decode_and_rm_imm : decode [0b10000010, 0b11100001, 0x7F, 0xEB] = .ok (.andRmImm true false 3 1 .none (.byte 0x7F)) [0xEB] := by decide

/-- R177. -/
theorem test_decode_sub_rm_imm : decode [0b10000000, 0b01101111, 0xFF, 0x01, 0xEB] = .ok (.subRmImm false false 1 7 (.byte 0xFF) (.byte 0x01)) [0xEB] := by decide

/-- R178. -/
theorem test_decode_xor_rm_imm : decode [0b10000001, 0b00110101, 0x55, 0xAA, 0xEB] = .ok (.xorRmImm false true 0 5 .none (.word 0xAA55)) [0xEB] := by decide

/-- R179. -/
theorem test_decode_cmp_rm_imm : decode [0b10000011, 0b00111110, 0xFE, 0xFF, 0x80, 0xEB] = .ok (.cmpRmImm true true 0 6 (.word 0xFFFE) (.byte 0x80)) [0xEB] := by decide

/-- R181. -/
theorem test_decode_mov_reg_imm : decode [0b10110100, 0xFF, 0xEB] = .ok (.movRegImm false 4 (.byte 0xFF)) [0xEB] := by decide

/-- R183. -/
theorem test_decode_nop : decode [0b10010000, 0xEB] = .ok (.nop) [0xEB] := by decide

/-- R184. -/
theorem test_decode_hlt : decode [0b11110100, 0xEB] = .ok (.hlt) [0xEB] := by decide

/-- R185. -/
theorem test_decode_cmc : decode [0b11110101, 0xEB] = .ok (.cmc) [0xEB] := by decide

/-- R186. -/
theorem test_decode_clc : decode [0b11111000, 0xEB] = .ok (.clc) [0xEB] := by decide

/-- R187. -/
theorem test_decode_stc : decode [0b11111001, 0xEB] = .ok (.stc) [0xEB] := by decide

/-- R188. -/
theorem test_decode_cli : decode [0b11111010, 0xEB] = .ok (.cli) [0xEB] := by decide

/-- R189. -/
theorem test_decode_sti : decode [0b11111011, 0xEB] = .ok (.sti) [0xEB] := by decide

/-- R190. -/
theorem test_decode_cld : decode [0b11111100, 0xEB] = .ok (.cld) [0xEB] := by decide

/-- R191. -/
theorem test_decode_std : decode [0b11111101, 0xEB] = .ok (.std) [0xEB] := by decide

/-- R77, R201. -/
theorem test_decode_sentinel : decode [0b00000000, 0xEB] = .ok .sentinel [0xEB] := by decide

/-- R74, R192. -/
theorem test_decode_unrecognized : decode [0b11101011, 0x90] = .ok (.unrecognized 0xEB) [0x90] := by decide

/-- The stand-alone entry decodes the byte 0x00 (R77). -/
theorem test_decode_one_zero : decodeOne [0x00, 0xD8] = .ok (.addRmReg false false 3 3 0 .none) [] := by decide

/-- A two-byte address with one byte left is not read (R133). -/
theorem test_decode_truncated : decode [0x8B, 0x87, 0x05] = .truncated 2 := by decide

/-- opcode_table.json numbers b0 in bits 15 to 8 (R78). -/
theorem test_table_word : decodeTableWord 16 0x8020 = some (.andRmImm false false 0 0 .none (.byte 0)) := by decide

/-! ### One step: the instruction's length and its line -/

/-- R144. -/
theorem test_step_add_rm_reg :
    shown (image [0b00000001, 0b11011000]) = some (.continuing, 258, ascii "add ax, bx\n".toList) := by decide

/-- R145. -/
theorem test_step_or_rm_reg :
    shown (image [0b00001010, 0b01001110, 0x05]) = some (.continuing, 259, ascii "or cl, [bp + 5]\n".toList) := by decide

/-- R146. -/
theorem test_step_adc_rm_reg :
    shown (image [0b00010001, 0b00011110, 0x00, 0x20]) = some (.continuing, 260, ascii "adc [8192], bx\n".toList) := by decide

/-- R147. -/
theorem test_step_sbb_rm_reg :
    shown (image [0b00011011, 0b10000000, 0x00, 0x01]) = some (.continuing, 260, ascii "sbb ax, [bx + si + 256]\n".toList) := by decide

/-- R148. -/
theorem test_step_and_rm_reg :
    shown (image [0b00100001, 0b01011010, 0x10]) = some (.continuing, 259, ascii "and [bp + si + 16], bx\n".toList) := by decide

/-- R149. -/
theorem test_step_sub_rm_reg :
    shown (image [0b00101010, 0b00110110, 0xFF, 0xFF]) = some (.continuing, 260, ascii "sub dh, [65535]\n".toList) := by decide

/-- R150. -/
theorem test_step_xor_rm_reg :
    shown (image [0b00110010, 0b01100100, 0x80]) = some (.continuing, 259, ascii "xor ah, [si - 128]\n".toList) := by decide

/-- R151. -/
theorem test_step_cmp_rm_reg :
    shown (image [0b00111000, 0b10100001, 0x00, 0x80]) = some (.continuing, 260, ascii "cmp [bx + di - 32768], ah\n".toList) := by decide

/-- R152. -/
theorem test_step_mov_rm_reg :
    shown (image [0b10001011, 0b01000111, 0xFF]) = some (.continuing, 259, ascii "mov ax, [bx - 1]\n".toList) := by decide

/-- R163. -/
theorem test_step_add_acc_imm :
    shown (image [0b00000101, 0xE8, 0x03]) = some (.continuing, 259, ascii "add ax, 1000\n".toList) := by decide

/-- R164. -/
theorem test_step_or_acc_imm :
    shown (image [0b00001100, 0x80]) = some (.continuing, 258, ascii "or al, 128\n".toList) := by decide

/-- R165. -/
theorem test_step_adc_acc_imm :
    shown (image [0b00010100, 0xFF]) = some (.continuing, 258, ascii "adc al, 255\n".toList) := by decide

/-- R166. -/
theorem test_step_sbb_acc_imm :
    shown (image [0b00011101, 0x34, 0x12]) = some (.continuing, 259, ascii "sbb ax, 4660\n".toList) := by decide

/-- R167. -/
theorem test_step_and_acc_imm :
    shown (image [0b00100101, 0xF0, 0x0F]) = some (.continuing, 259, ascii "and ax, 4080\n".toList) := by decide

/-- R168. -/
theorem test_step_sub_acc_imm :
    shown (image [0b00101100, 0x0A]) = some (.continuing, 258, ascii "sub al, 10\n".toList) := by decide

/-- R169. -/
theorem test_step_xor_acc_imm :
    shown (image [0b00110101, 0x55, 0xAA]) = some (.continuing, 259, ascii "xor ax, 43605\n".toList) := by decide

/-- R170. -/
theorem test_step_cmp_acc_imm :
    shown (image [0b00111100, 0x00]) = some (.continuing, 258, ascii "cmp al, 0\n".toList) := by decide

/-- R172. -/
theorem test_step_add_rm_imm :
    shown (image [0b10000001, 0b00000110, 0x00, 0x10, 0xE8, 0x03]) = some (.continuing, 262, ascii "add word [4096], 1000\n".toList) := by decide

/-- R173. -/
theorem test_step_or_rm_imm :
    shown (image [0b10000011, 0b01001110, 0x02, 0x01]) = some (.continuing, 260, ascii "or word [bp + 2], 1\n".toList) := by decide

/-- R174. -/
theorem test_step_adc_rm_imm :
    shown (image [0b10000011, 0b11010010, 0xFF]) = some (.continuing, 259, ascii "adc dx, 65535\n".toList) := by decide

/-- R175. -/
theorem test_step_sbb_rm_imm :
    shown (image [0b10000000, 0b00011100, 0x01]) = some (.continuing, 259, ascii "sbb byte [si], 1\n".toList) := by decide

/-- R176. -/
theorem test_step_and_rm_imm :
    shown (image [0b10000010, 0b11100001, 0x7F]) = some (.continuing, 259, ascii "and cl, 127\n".toList) := by decide

/-- R177. -/
theorem test_step_sub_rm_imm :
    shown (image [0b10000000, 0b01101111, 0xFF, 0x01]) = some (.continuing, 260, ascii "sub byte [bx - 1], 1\n".toList) := by decide

/-- R178. -/
theorem test_step_xor_rm_imm :
    shown (image [0b10000001, 0b00110101, 0x55, 0xAA]) = some (.continuing, 260, ascii "xor word [di], 43605\n".toList) := by decide

/-- R179. -/
theorem test_step_cmp_rm_imm :
    shown (image [0b10000011, 0b00111110, 0xFE, 0xFF, 0x80]) = some (.continuing, 261, ascii "cmp word [65534], 65408\n".toList) := by decide

/-- R181. -/
theorem test_step_mov_reg_imm :
    shown (image [0b10110100, 0xFF]) = some (.continuing, 258, ascii "mov ah, 255\n".toList) := by decide

/-- R183. -/
theorem test_step_nop :
    shown (image [0b10010000]) = some (.continuing, 257, ascii "nop\n".toList) := by decide

/-- R184. -/
theorem test_step_hlt :
    shown (image [0b11110100]) = some (.continuing, 257, ascii "hlt\n".toList) := by decide

/-- R185. -/
theorem test_step_cmc :
    shown (image [0b11110101]) = some (.continuing, 257, ascii "cmc\n".toList) := by decide

/-- R186. -/
theorem test_step_clc :
    shown (image [0b11111000]) = some (.continuing, 257, ascii "clc\n".toList) := by decide

/-- R187. -/
theorem test_step_stc :
    shown (image [0b11111001]) = some (.continuing, 257, ascii "stc\n".toList) := by decide

/-- R188. -/
theorem test_step_cli :
    shown (image [0b11111010]) = some (.continuing, 257, ascii "cli\n".toList) := by decide

/-- R189. -/
theorem test_step_sti :
    shown (image [0b11111011]) = some (.continuing, 257, ascii "sti\n".toList) := by decide

/-- R190. -/
theorem test_step_cld :
    shown (image [0b11111100]) = some (.continuing, 257, ascii "cld\n".toList) := by decide

/-- R191. -/
theorem test_step_std :
    shown (image [0b11111101]) = some (.continuing, 257, ascii "std\n".toList) := by decide

/-- The sentinel ends the session and is consumed (R206, R212). -/
theorem test_step_sentinel : shown (image [0x00]) = some (.done, 257, []) := by decide

/-- R192. -/
theorem test_step_unrecognized : (after (image [0xEB])).map (fun t => (t.err, t.errAddr, t.ip, t.log)) =
    some (.unresolvedTag, 256, 257, [(256, 0xEB)]) := by decide

/-- The next step runs a word placed where it fetches. -/
theorem test_fetch_word : shown (State.reset.withFetchWord 16 0x9000) = some (.continuing, 257, ascii "nop\n".toList) := by
  decide

/-! ### The error cases of R267 -/

theorem test_oob_opcode :
    failure ((after (shortImage [0x90])).getD State.reset) = some (.failed, .outOfBounds, 257, 257, 4) := by decide

theorem test_oob_second : failure (shortImage [0x81]) = some (.failed, .outOfBounds, 256, 257, 0) := by decide

theorem test_unresolved_at_end : failure (shortImage [0xEB]) = some (.failed, .unresolvedTag, 256, 257, 0) := by decide

theorem test_oob_addressing : failure (shortImage [0x20]) = some (.failed, .outOfBounds, 256, 257, 0) := by decide

theorem test_oob_disp8 : failure (shortImage [0x8B, 0x47]) = some (.failed, .outOfBounds, 256, 258, 0) := by decide

theorem test_oob_disp16 : failure (shortImage [0x8B, 0x87, 0x05]) = some (.failed, .outOfBounds, 256, 258, 0) := by decide

theorem test_oob_imm : failure (shortImage [0x05, 0xE8]) = some (.failed, .outOfBounds, 256, 257, 0) := by decide

theorem test_oob_rm_imm :
    failure (shortImage [0x81, 0x06, 0x00, 0x10, 0xE8]) = some (.failed, .outOfBounds, 256, 260, 0) := by decide

theorem test_exhausted : failure (smallBuffer 1 [0x23, 0xD9, 0x00]) = some (.failed, .bufferExhausted, 256, 258, 0) := by
  decide

theorem test_sentinel_no_buffer : failure (smallBuffer 0 [0x00]) = some (.done, .none, 0, 257, 0) := by decide

/-! ### Registers, flags and addresses -/

/-- R17: AH is bits 15 to 8 of AX. -/
theorem test_high_byte : (Regs.zero.writeId 4 false 0x12).readId 0 true = 0x1200 := by decide

/-- R20: the zero flag is bit 6. -/
theorem test_zero_flag : (setFlag .zero State.reset).flags = 0x0040 := by decide

/-- R127: the byte 0xFF is −1 with BX = 0x1000. -/
theorem test_effective_address :
    addressOf .memDisp8 7 (Disp.value (.byte 0xFF)) (Regs.zero.write16 0x1000 .bx) = 0x0FFF := by decide

/-! ### Witnesses: the hypotheses of the statements can be met -/

theorem ready_image (bs : List Byte) : Ready (image bs) := ⟨by show Config.atReset.Valid; decide, rfl⟩

theorem ready_short (bs : List Byte) (h : 0 < bs.length) (h' : bs.length < 0xFF00) : Ready (shortImage bs) :=
  ⟨⟨by show 2 ≤ 256 + bs.length; omega, by show 256 + bs.length ≤ 65536; omega, by show 1 ≤ 256; omega,
    by show 256 < 256 + bs.length; omega⟩, rfl⟩

theorem ready_small (n : Nat) (bs : List Byte) : Ready (smallBuffer n bs) :=
  ⟨by show Config.Valid { Config.atReset with outCap := n }; exact (by decide : Config.atReset.Valid), rfl⟩

/-- `DecodeInvertsEncode`, `StandaloneDecodeInvertsEncode`: the longest instruction. -/
theorem witness_encode : Instr.WellFormed (.addRmImm false true 0 6 (.word 0x1000) (.word 0x03E8)) ∧
    Instr.shadowed (.addRmImm false true 0 6 (.word 0x1000) (.word 0x03E8)) = false := by decide

/-- `StandaloneDecodeInvertsEncode`: the shadowed instruction. -/
theorem witness_shadowed : Instr.WellFormed (.addRmReg false false 3 3 0 .none) ∧
    Instr.shadowed (.addRmReg false false 3 3 0 .none) = true ∧ Instr.addRmReg false false 3 3 0 .none ≠ .sentinel := by
  decide

/-- `ProperPrefixIsTruncated`, one byte short of the longest instruction. -/
theorem witness_prefix : 5 < (encode (.addRmImm false true 0 6 (.word 0x1000) (.word 0x03E8))).length ∧
    decode ((encode (.addRmImm false true 0 6 (.word 0x1000) (.word 0x03E8))).take 5) = .truncated 4 := by decide

/-- `EncodeInvertsDecode`, `EntriesDifferOnlyAtSentinel`. -/
theorem witness_decode : decode [0xF4, 0x00] = .ok .hlt [0x00] ∧
    decodeOne [0x00, 0xD8] = .ok (.addRmReg false false 3 3 0 .none) [] := by decide

/-- `SecondByteNeededOnlyByFamily`, both sides of the family's two ends. -/
theorem witness_second : needsSecond 0x7F = false ∧ needsSecond 0x80 = true ∧ needsSecond 0x83 = true ∧
    needsSecond 0x84 = false ∧ needsSecond 0x90 = false ∧ formatOf (resolve 0x90 0) = some .noOperand := by decide

/-- `SplitGivesTheFields`: the operand decoder answers. -/
theorem witness_operand : ∃ r t, specDecodeOperand 0xD9 emptyRecord (image []) = .ok r t := ⟨_, _, rfl⟩

/-- `EffectiveAddressIsSignedSum`: a direct address, and a one-byte displacement. -/
theorem witness_address : (stdRecord .movRmReg 0x88 true true 0 1 6 (.word 0x1234)).amode = .memDirect ∧
    (stdRecord .movRmReg 0x88 true true 1 1 7 (.byte 0xFF)).amode ≠ .memDirect ∧
    (stdRecord .movRmReg 0x88 true true 1 1 7 (.byte 0xFF)).disp = (Disp.byte 0xFF).value := by decide

/-- `FetchReadsAndAdvances`, `ExtractDispReads`: the last byte that can be read and the first that cannot. -/
theorem witness_fetch : (image []).ip + 1 ≤ (image []).cfg.memSize ∧ (image []).ip + 2 ≤ (image []).cfg.memSize ∧
    (shortImage [0x90]).ip + 1 = (shortImage [0x90]).cfg.memSize ∧
    (shortImage [0x90]).cfg.memSize < (shortImage [0x90]).ip + 2 ∧
    ({ shortImage [0x90] with ip := 257 } : State).cfg.memSize < 257 + 1 := by decide

/-- `MemWriteThenMemRead` at the last byte and past it. -/
theorem witness_memory : (shortImage [0x90]).mem.wf (shortImage [0x90]).cfg.memSize = true ∧
    256 + 1 ≤ (shortImage [0x90]).cfg.memSize ∧ (shortImage [0x90]).cfg.memSize < 256 + 2 ∧
    255 + 2 ≤ (shortImage [0x90]).cfg.memSize := by decide

/-- `ByteRegistersAlias`, `RegisterIdsNameRegisters`, `FlagsChangeByMaskOnly`. -/
theorem witness_registers : Reg16.cx ≠ Reg8.ah.whole ∧ (3 : BitVec 3).toNat < 4 ∧ (4 : BitVec 3) ≠ 3 ∧
    Flag.carry.bit = Flag.carry.bit := by decide

/-- `InitEstablishesInvariant`. -/
theorem witness_init : (image [0x90]).cfg.Valid ∧ (image [0x90]).mem.wf (image [0x90]).cfg.memSize = true ∧
    (image [0x90]).out.wf (image [0x90]).cfg.outCap = true := by
  refine ⟨(ready_image _).1, by decide, by decide⟩

/-- `StandardFormatCompletes`: the image ends right after the instruction and its line, the 26 characters of
`cmp [bx + di - 32768], ah`, just fits. -/
theorem witness_std : (.cmpRmReg, .rmReg .cmp, 0x38) ∈ stdInstructions ∧
    (Disp.word 0x8000).size = (parseMode 2 1).2 ∧
    (line (stdRecord (.rmReg .cmp) 0x38 false false 2 4 1 (.word 0x8000))).length = 26 ∧
    256 + 4 = (shortImage [0x38, 0xA1, 0x00, 0x80]).cfg.memSize := by
  refine ⟨by simp [stdInstructions], by decide, by decide, by decide⟩

/-- `LineFits` at its boundary, and without the trace stage. -/
theorem witness_fits : LineFits (smallBuffer 26 []) 26 ∧ ¬LineFits (smallBuffer 25 []) 26 ∧
    LineFits { image [] with cfg := { Config.atReset with trace := false } } 1000000 := by
  refine ⟨fun _ => by decide, fun h => absurd (h rfl) (by decide), fun h => by cases h⟩

/-- `RegisterMemoryImmediateCompletes`, the two immediate sizes. -/
theorem witness_rm_imm : (.cmpRmImm, .rmImm .cmp, 7) ∈ rmImmInstructions ∧ Disp.none.size = (parseMode 3 2).2 ∧
    (Imm.word 0x1234).size = (if false = false ∧ true = true then .szTwo else .szOne) ∧
    (Imm.byte 0x12).size = (if true = false ∧ true = true then .szTwo else .szOne) := by
  refine ⟨by simp [rmImmInstructions], by decide, by decide, by decide⟩

/-- `AccumulatorImmediateCompletes`, `RegisterImmediateCompletes`. -/
theorem witness_imm : (.cmpAccImm, .accImm .cmp, 0x3C) ∈ accImmInstructions ∧
    (Imm.word 0x1234).size = (if true then .szTwo else .szOne) ∧
    (Imm.byte 0x12).size = (if false then .szTwo else .szOne) := by
  refine ⟨by simp [accImmInstructions], by decide, by decide⟩

/-- `NoOperandCompletes`. -/
theorem witness_no_operand : (.std, .std, 0xFD) ∈ noOperandInstructions ∧
    (shortImage [0xFD]).ip + 1 ≤ (shortImage [0xFD]).cfg.memSize := by
  refine ⟨by simp [noOperandInstructions], by decide⟩

/-- `SentinelEndsTheSession`, at the last byte of the image. -/
theorem witness_sentinel : Ready (shortImage [0x00]) ∧ ImageHolds (shortImage [0x00]) [0x00] :=
  ⟨ready_short _ (by decide) (by decide), by decide, by decide⟩

/-- `UnrecognizedRaisesUnresolvedTag`, at the last byte of the image. -/
theorem witness_unrecognized : Ready (shortImage [0x06]) ∧ ImageHolds (shortImage [0x06]) [0x06] ∧
    resolve 0x06 0 = .unrecognized :=
  ⟨ready_short _ (by decide) (by decide), ⟨by decide, by decide⟩, by decide⟩

/-- `NoRoomNoRecord`, one character short, for a record of each format. -/
theorem witness_no_room : (smallBuffer 25 []).cfg.trace = true ∧
    (smallBuffer 25 []).cfg.outCap - (smallBuffer 25 []).cur <
      (line (stdRecord (.rmReg .cmp) 0x38 false false 2 4 1 (.word 0x8000))).length ∧
    (smallBuffer 33 []).cfg.outCap - (smallBuffer 33 []).cur <
      (line (rmImmRecord .add false true 2 0 (.word 0x8000) (.word 0xFFFF))).length ∧
    (smallBuffer 13 []).cfg.outCap - (smallBuffer 13 []).cur < (line (accImmRecord .add true (.word 0xFFFF))).length ∧
    (smallBuffer 13 []).cfg.outCap - (smallBuffer 13 []).cur < (line (regImmRecord true 0 (.word 0xFFFF))).length ∧
    (smallBuffer 3 []).cfg.outCap - (smallBuffer 3 []).cur < (line (noOperandRecord .nop 0x90)).length := by decide

/-- `NoRoomNoRecord`, its last clause: the code is raised with the trace stage. -/
theorem witness_exhausted : ∃ t, exec .nop (smallBuffer 3 [0x90]) = .next t ∧ t.err = .bufferExhausted ∧
    (smallBuffer 3 [0x90]).cfg.trace = true := ⟨_, rfl, by decide, rfl⟩

/-- `InstructionFrame`, `TraceBufferFrame`, `RecordLengthIsEncodedLength`, `LineLengthBounds`. -/
theorem witness_frame : ∃ t r, exec .nop (image [0x90]) = .next t ∧ t.emitted = (image [0x90]).emitted ++ [r] ∧
    Instr.WellFormed .nop ∧ (image [0x90]).out.wf (image [0x90]).cfg.outCap = true ∧
    (image [0x90]).cur ≤ (image [0x90]).cfg.outCap ∧ ∃ u, step (image [0x90]) = .next u :=
  ⟨_, _, rfl, rfl, rfl, by decide, by decide, _, rfl⟩

/-- `TraceBufferFrame` without the trace stage. -/
theorem witness_no_trace : ∃ t, exec .nop { image [] with cfg := { Config.atReset with trace := false } } = .next t :=
  ⟨_, rfl⟩

/-- `LineIsOneLine`, `OperandOrder`. -/
theorem witness_line : (noOperandRecord .nop 0x90).tag ≠ .unrecognized ∧
    (.movRmReg, .movRmReg, 0x88) ∈ stdInstructions := ⟨by decide, by simp [stdInstructions]⟩

/-- `AndRegistersRoundTrip`: the 11 characters just fit. -/
theorem witness_and : Ready (smallBuffer 11 [0x23, 0xC0 + 8 * 3 + 1]) ∧
    ImageHolds (smallBuffer 11 [0x23, 0xC0 + 8 * 3 + 1]) [0x23, 0xC0 + 8 * 3 + 1] ∧
    (smallBuffer 11 [0x23, 0xC0 + 8 * 3 + 1]).out.wf 11 = true ∧ (smallBuffer 11 [0x23, 0xC0 + 8 * 3 + 1]).cur + 11 ≤ 11 :=
  ⟨ready_small _ _, ⟨by decide, by decide⟩, by decide, by decide⟩

/-- `AppendIsAllOrNothing`, a text that just fits and one that just does not. -/
theorem witness_append : (smallBuffer 2 []).out.wf 2 = true ∧ (smallBuffer 2 []).cur ≤ 2 ∧
    [0x61, 0x62].length ≤ 2 - (smallBuffer 2 []).cur ∧ 2 - (smallBuffer 2 []).cur < [0x61, 0x62, 0x63].length := by decide

/-- `NoRoomForAnyLine`, with three characters. -/
theorem witness_three : Ready (smallBuffer 3 [0x90]) ∧ (smallBuffer 3 [0x90]).cfg.outCap < (smallBuffer 3 [0x90]).cur + 4 ∧
    ∃ t, step (smallBuffer 3 [0x90]) = .next t :=
  ⟨ready_small _ _, by decide, ⟨_, rfl⟩⟩

/-- `StepRunsDecodedInstruction`, `StepRunsInstructionAtPointer`, `StepIsTheSpecsStep`, `StepMakesProgress`,
`DoneOnlyBySentinel`, `RecordOnlyWhenDecodedAndTraced`, `OnlyBytesAheadMatter` and the statements on what does not
matter: a step of six bytes. -/
theorem witness_step : Ready (image [0x81, 0x06, 0x00, 0x10, 0xE8, 0x03]) ∧
    decode (window (image [0x81, 0x06, 0x00, 0x10, 0xE8, 0x03])) =
      .ok (.addRmImm false true 0 6 (.word 0x1000) (.word 0x03E8)) [] ∧
    ImageHolds (image [0x81, 0x06, 0x00, 0x10, 0xE8, 0x03]) (encode (.addRmImm false true 0 6 (.word 0x1000) (.word 0x03E8))) ∧
    (image [0x81, 0x06, 0x00, 0x10, 0xE8, 0x03]).ip ≤ (image [0x81, 0x06, 0x00, 0x10, 0xE8, 0x03]).cfg.memSize ∧
    ∃ t, step (image [0x81, 0x06, 0x00, 0x10, 0xE8, 0x03]) = .next t :=
  ⟨ready_image _, by decide, ⟨by decide, by decide⟩, by decide, ⟨_, rfl⟩⟩

/-- `StepRunsDecodedInstruction`, bytes that end inside the instruction. -/
theorem witness_truncated : Ready (shortImage [0x8B, 0x87, 0x05]) ∧
    decode (window (shortImage [0x8B, 0x87, 0x05])) = .truncated 2 := ⟨ready_short _ (by decide) (by decide), by decide⟩

/-- `TrapEntryRecordsCauseAndAddress`: the attempt raises. -/
theorem witness_raise : ∃ u k, Ready (shortImage [0x8B, 0x87, 0x05]) ∧
    specAttempt (shortImage [0x8B, 0x87, 0x05]) = .raised k u :=
  ⟨_, _, ready_short _ (by decide) (by decide), rfl⟩

/-- `TerminalStatesAbsorb`, `StepAnswersNextForLegalParameters`. -/
theorem witness_terminal : ({ image [] with loop := .done } : State).loop = .done ∧
    ({ image [] with loop := .failed } : State).loop = .failed ∧ (image []).cfg.Valid ∧
    ¬Config.Valid { Config.atReset with programStart := 0 } := ⟨rfl, rfl, (ready_image _).1, by decide⟩

/-- `FailureIsPrecise`. -/
theorem witness_failure : Ready (shortImage [0x05, 0xE8]) ∧
    ∃ t, step (shortImage [0x05, 0xE8]) = .next t ∧ t.loop = .failed :=
  ⟨ready_short _ (by decide) (by decide), _, rfl, rfl⟩

/-- `OutOfBoundsByFetchSite`, the opcode byte. -/
theorem witness_site_opcode : Ready { shortImage [0x90] with ip := 257 } ∧
    ({ shortImage [0x90] with ip := 257 } : State).ip = (shortImage [0x90]).cfg.memSize :=
  ⟨ready_short [0x90] (by decide) (by decide), by decide⟩

/-- `OutOfBoundsByFetchSite`, the second byte of the 0x80 to 0x83 family. -/
theorem witness_site_second : ImageHolds (shortImage [0x83]) [0x83] ∧ needsSecond 0x83 = true ∧
    (shortImage [0x83]).ip + 1 = (shortImage [0x83]).cfg.memSize := ⟨⟨by decide, by decide⟩, by decide, by decide⟩

/-- `OutOfBoundsByFetchSite`, the addressing byte. -/
theorem witness_site_addressing : ImageHolds (shortImage [0x20]) [0x20] ∧ (0x20 : Byte) ≠ 0 ∧
    formatOf (resolve 0x20 0) = some .std ∧ (shortImage [0x20]).ip + 1 = (shortImage [0x20]).cfg.memSize :=
  ⟨⟨by decide, by decide⟩, by decide, by decide, by decide⟩

/-- `OutOfBoundsByFetchSite`, the displacement: one byte of two is there. -/
theorem witness_site_disp : ImageHolds (shortImage [0x8B, 0x87, 0x05]) [0x8B, 0x87] ∧
    formatOf (resolve 0x8B 0x87) = some .std ∧
    (shortImage [0x8B, 0x87, 0x05]).cfg.memSize < (shortImage [0x8B, 0x87, 0x05]).ip + 2 + dispBytes 0x87 ∧
    ImageHolds (shortImage [0x81, 0x06]) [0x81, 0x06] ∧ formatOf (resolve 0x81 0x06) = some .rmImm ∧
    (shortImage [0x81, 0x06]).cfg.memSize < (shortImage [0x81, 0x06]).ip + 2 + dispBytes 0x06 :=
  ⟨⟨by decide, by decide⟩, by decide, by decide, ⟨by decide, by decide⟩, by decide, by decide⟩

/-- `OutOfBoundsByFetchSite`, the immediate of the two formats without an addressing byte. -/
theorem witness_site_imm : ImageHolds (shortImage [0x05, 0xE8]) [0x05] ∧ formatOf (resolve 0x05 0) = some .accImm ∧
    (shortImage [0x05, 0xE8]).cfg.memSize < (shortImage [0x05, 0xE8]).ip + lengthOf .accImm 0 0x05 ∧
    ImageHolds (shortImage [0xB0]) [0xB0] ∧ formatOf (resolve 0xB0 0) = some .regImm ∧
    (shortImage [0xB0]).cfg.memSize < (shortImage [0xB0]).ip + lengthOf .regImm 0 0xB0 :=
  ⟨⟨by decide, by decide⟩, by decide, by decide, ⟨by decide, by decide⟩, by decide, by decide⟩

/-- `OutOfBoundsByFetchSite`, the immediate after a two-byte address that is all there. -/
theorem witness_site_rm_imm : ImageHolds (shortImage [0x81, 0x06, 0x00, 0x10]) [0x81, 0x06] ∧
    formatOf (resolve 0x81 0x06) = some .rmImm ∧
    (shortImage [0x81, 0x06, 0x00, 0x10]).ip + 2 + dispBytes 0x06 = (shortImage [0x81, 0x06, 0x00, 0x10]).cfg.memSize ∧
    (shortImage [0x81, 0x06, 0x00, 0x10]).cfg.memSize <
      (shortImage [0x81, 0x06, 0x00, 0x10]).ip + lengthOf .rmImm 0x06 0x81 :=
  ⟨⟨by decide, by decide⟩, by decide, by decide, by decide⟩

/-- `MalformedAddressingIsNeverRaised`: the code in a state no run reaches, which a step keeps only in a terminal state. -/
theorem witness_malformed :
    ∃ t, step { image [] with loop := .failed, err := .malformedAddressing } = .next t ∧ t.err = .malformedAddressing :=
  ⟨_, rfl, rfl⟩

/-- `StepKeepsInvariant`, `RunReachesTerminalState`: a session with a program in its image is in the invariant. -/
theorem witness_invariant : SessionInv (image [0x90]) ∧ ∃ t, step (image [0x90]) = .next t := by
  refine ⟨⟨⟨(ready_image _).1, by decide, by decide, by decide⟩, ⟨by decide, by decide, by decide⟩,
    fun _ => ⟨rfl, rfl, rfl⟩, rfl, rfl, rfl, ⟨rfl, rfl, rfl, rfl⟩, by decide, by decide, by decide⟩,
    ⟨_, rfl⟩⟩

/-- `StepKeepsRecordsFromImage`, with a record emitted. -/
theorem witness_records : RecordsFromImage { image [0x90] with
    emitted := [{ noOperandRecord .nop 0x90 with addr := 256, len := 1 }] } := by
  intro r hr
  rw [List.mem_singleton.mp hr]
  exact ⟨_, rfl⟩

/-- `OnlyBytesAheadMatter`: an image that differs before the instruction pointer only. -/
theorem witness_ahead : ∀ a, (image [0x90]).ip ≤ a → a < (image [0x90]).cfg.memSize →
    ((image [0x90]).mem.write 0 0xFF).read a = (image [0x90]).mem.read a := by
  intro a ha _
  have h : (256 : Nat) ≤ a := ha
  rw [Memory.read_write (bound := 65536) (lo := 0) (by decide), if_neg (by omega)]


end Sys2Proof.Tests
end

section
/-! The accessor `Fetch` of 20_memory.md: the numbers its two read widths stand for, and R41. -/

namespace Sys2Proof

/-- R42: in a little-endian pair the byte at the higher address weighs 256. -/
theorem joinBytes_toNat (lo hi : Byte) : (joinBytes lo hi).toNat = lo.toNat + 256 * hi.toNat := by
  have hlo : lo.toNat < 2 ^ 8 := lo.isLt
  rw [joinBytes, BitVec.toNat_append, ← Nat.shiftLeft_add_eq_or_of_lt hlo, Nat.shiftLeft_eq]
  omega

theorem zext16_toNat (b : Byte) : (zext16 b).toNat = b.toNat :=
  BitVec.toNat_setWidth_of_le (by decide)

end Sys2Proof

namespace Sys2Proof.Machine

/-- Settles O13: `fetch_out` past the end of the image; inside it `fetch_in`, and the value by the width of the read. -/
theorem fetchReadsAndAdvances : Obligations.FetchReadsAndAdvances := by
  intro s n hn
  refine ⟨fetch_out, fun h => ⟨_, fetch_in h, ?_⟩⟩
  obtain rfl | rfl := hn
  · exact zext16_toNat (s.mem.read s.ip)
  · exact joinBytes_toNat (s.mem.read s.ip) (s.mem.read (s.ip + 1))

end Sys2Proof.Machine
end

section
/-! The second byte of the resolver (R91): the opcode bytes that need it are those of the family 0x80 to 0x83, only they
make `Resolve` read it, and an instruction of one byte needs none. -/

namespace Sys2Proof

theorem needsSecond_iff_rmImmOpcode (b0 : Byte) : needsSecond b0 = true ↔ ∃ s w, b0 = rmImmOpcode s w := by
  revert b0; decide

theorem needsSecond_iff (b0 : Byte) : needsSecond b0 = true ↔ b0 = 0x80 ∨ b0 = 0x81 ∨ b0 = 0x82 ∨ b0 = 0x83 := by
  simp [needsSecond_iff_rmImmOpcode, rmImmOpcode, or_assoc]

/-- Of the branches of `Resolve` (R92) only the family's reads the second byte, and its guard is `NeedsSecond`. -/
theorem resolve_congr_of_not_needsSecond {b0 : Byte} (h : needsSecond b0 = false) (b1 b1' : Byte) :
    resolve b0 b1 = resolve b0 b1' := by
  have hguard : ¬ b0 &&& 0xFC = 0x80 := beq_eq_false_iff_ne.mp h
  simp only [resolve, if_neg hguard]

theorem resolve_of_needsSecond {b0 : Byte} (h : needsSecond b0 = true) (b1 : Byte) :
    resolve b0 b1 = .rmImm (AluOp.ofIndex (b1.extractLsb' 3 3)) := by
  obtain ⟨s, w, rfl⟩ := (needsSecond_iff_rmImmOpcode b0).mp h
  exact resolve_rmImmOpcode s w b1

theorem decodeRest_of_not_needsSecond {b0 : Byte} (h : needsSecond b0 = false) (rest : List Byte) :
    decodeRest b0 rest = decodeTag (resolve b0 0) b0 0 rest := by
  simp only [decodeRest, h]

/-- A tag of the no-operand format takes no byte of the rest (R182). -/
theorem decodeTag_noOperand {tag : Tag} (h : formatOf tag = some .noOperand) (b0 b1 : Byte) (rest : List Byte) :
    ∃ i, decodeTag tag b0 b1 rest = .ok i rest := by
  cases tag with
  | rmReg | movRmReg | rmImm | accImm | movRegImm | unrecognized => cases h
  | nop | hlt | cmc | clc | stc | cli | sti | cld | std => exact ⟨_, rfl⟩

end Sys2Proof

namespace Sys2Proof.Machine

theorem specSecondByte_of_not_needsSecond {b0 : Byte} (h : needsSecond b0 = false) (s : State) :
    specSecondByte b0 s = .ok 0 s := by
  rw [specSecondByte, h]; rfl

/-- Settles O8: one lemma per clause; the stand-alone decoder meets a no-operand tag with nothing after the opcode byte. -/
theorem secondByteNeededOnlyByFamily : Obligations.SecondByteNeededOnlyByFamily := by
  refine ⟨needsSecond_iff, fun _ b1 b1' h => resolve_congr_of_not_needsSecond h b1 b1',
    fun _ s h => specSecondByte_of_not_needsSecond h s, fun b0 h hformat => ?_,
    fun _ b1 h => resolve_of_needsSecond h b1⟩
  rw [decodeOne, decodeRest_of_not_needsSecond h]
  exact decodeTag_noOperand hformat b0 0 []

end Sys2Proof.Machine
end

section
/-! The splitter (R110): the addressing byte as a number, `Split` as a bijection with inverse `modRmByte`, and the record
that `DecodeOperand` (R134) fills from the fields. -/

namespace Sys2Proof

theorem modRmByte_toNat (mod : BitVec 2) (reg rm : BitVec 3) :
    (modRmByte mod reg rm).toNat = 64 * mod.toNat + 8 * reg.toNat + rm.toNat := by
  have hreg : reg.toNat < 2 ^ 3 := reg.isLt
  have hrm : rm.toNat < 2 ^ 3 := rm.isLt
  rw [modRmByte, BitVec.toNat_append, BitVec.toNat_append, ← Nat.shiftLeft_add_eq_or_of_lt hrm,
    ← Nat.shiftLeft_add_eq_or_of_lt hreg, Nat.shiftLeft_eq, Nat.shiftLeft_eq]
  omega

theorem toNat_eq_split_sum (m : Byte) :
    m.toNat = 64 * (split m).1.toNat + 8 * (split m).2.1.toNat + (split m).2.2.toNat := by
  rw [← modRmByte_toNat, modRmByte_split]

theorem split_eq_iff {m : Byte} {mod : BitVec 2} {reg rm : BitVec 3} :
    split m = (mod, reg, rm) ↔ m = modRmByte mod reg rm := by
  constructor
  · intro h
    rw [← modRmByte_split m, h]
  · rintro rfl
    exact split_modRmByte mod reg rm

/-- The mask of R65 selects the bits of the reg field. -/
theorem subOpcode_toNat (m : Byte) : ((m &&& 0b00111000) >>> 3).toNat = (split m).2.1.toNat := by
  revert m; decide

end Sys2Proof

namespace Sys2Proof.Machine

/-- The value of `f(...)?` (R7) passes through a value of `f`. -/
theorem Attempt.bind_eq_ok_iff {α β : Type} {x : Attempt α} {f : α → State → Attempt β} {b : β} {t : State} :
    x.bind f = .ok b t ↔ ∃ a s, x = .ok a s ∧ f a s = .ok b t := by
  cases x with
  | ok a s => simp
  | raised k s => simp

/-- What an answer of `DecodeOperand` can be: the only step that can fail is the displacement's. -/
theorem specDecodeOperand_eq_ok {m : Byte} {r r' : DecodedInstr} {s t : State}
    (h : specDecodeOperand m r s = .ok r' t) :
    ∃ disp, specExtractDisp (parseMode (split m).1 (split m).2.2).2 s = .ok disp t ∧
      r' = { r with mod := (split m).1, reg := (split m).2.1, rm := (split m).2.2,
                    amode := (parseMode (split m).1 (split m).2.2).1,
                    dispSize := (parseMode (split m).1 (split m).2.2).2, disp := disp } := by
  obtain ⟨disp, u, hdisp, hrecord⟩ := Attempt.bind_eq_ok_iff.mp h
  cases hrecord
  exact ⟨disp, hdisp, rfl⟩

/-- Settles O10: `Split` has the inverse `modRmByte`, whose value is the sum, and `DecodeOperand` answers with the fields
of `Split`. -/
theorem splitGivesTheFields : Obligations.SplitGivesTheFields := by
  refine ⟨toNat_eq_split_sum, fun mod reg rm => ?_, subOpcode_toNat, fun m r r' s t h => ?_⟩
  · exact ⟨modRmByte mod reg rm, split_modRmByte mod reg rm, fun _ h => split_eq_iff.mp h⟩
  · obtain ⟨disp, -, rfl⟩ := specDecodeOperand_eq_ok h
    rfl

end Sys2Proof.Machine
end

section
/-! The displacement extractor (R130): what it answers for a read inside the image and for one past its end, from the
facts about `Fetch`, and the one-byte extension (R131). -/

namespace Sys2Proof

/-- R131: the conditional addition of R130's pseudocode is the sign extension. -/
theorem ite_zext16_eq_sext16 (b : Byte) :
    (if (zext16 b).toNat < 0x80 then zext16 b else zext16 b + 0xFF00) = sext16 b := by
  revert b; decide

end Sys2Proof

namespace Sys2Proof.Machine

theorem specExtractDisp_szOne_in {s : State} (h : s.ip + 1 ≤ s.cfg.memSize) :
    specExtractDisp .szOne s = .ok (sext16 (s.mem.read s.ip)) { s with ip := s.ip + 1 } := by
  rw [specExtractDisp, fetch_in h, Attempt.bind_ok, if_pos rfl, ite_zext16_eq_sext16]

theorem specExtractDisp_szTwo_in {s : State} (h : s.ip + 2 ≤ s.cfg.memSize) :
    specExtractDisp .szTwo s =
      .ok (joinBytes (s.mem.read s.ip) (s.mem.read (s.ip + 1))) { s with ip := s.ip + 2 } := by
  rw [specExtractDisp, fetch_in h, Attempt.bind_ok, if_neg (by decide)]

/-- R133: a read that does not lie wholly inside the image is no read, whatever its size. -/
theorem specExtractDisp_out {size : SizeTag} {s : State} (hsize : size ≠ .szNone)
    (h : s.cfg.memSize < s.ip + size.bytes) : specExtractDisp size s = .raised .outOfBounds s := by
  have hfetch : fetch size.bytes s = .raised .outOfBounds s := fetch_out h
  cases size with
  | szNone => exact absurd rfl hsize
  | szOne | szTwo =>
    rw [SizeTag.bytes] at hfetch
    rw [specExtractDisp, hfetch, Attempt.bind_raised]

/-- Settles O14: no fetch for size none; one lemma per size inside the image, where the model's `sext16` and `joinBytes`
are the bit-vector operations of the statement, and one past its end. -/
theorem extractDispReads : Obligations.ExtractDispReads := fun _ =>
  ⟨rfl, specExtractDisp_szOne_in, specExtractDisp_szTwo_in,
    specExtractDisp_out (size := .szOne) (by decide), specExtractDisp_out (size := .szTwo) (by decide)⟩

end Sys2Proof.Machine
end

section
/-! The standard format (R141, R142): what its tags are, the r/m operand of its record, and the order of operands and of
text that the direction flag gives a record of the format. -/

namespace Sys2Proof

/-- R121: mod = 3 alone makes the r/m operand a register. -/
theorem parseMode_eq_regDirect_iff (mod : BitVec 2) (rm : BitVec 3) : (parseMode mod rm).1 = .regDirect ↔ mod = 3 := by
  revert mod rm; decide

end Sys2Proof

namespace Sys2Proof.Machine

theorem formatOf_of_mem_stdInstructions : ∀ c ∈ stdInstructions, formatOf c.2.1 = some .std := by
  simp [stdInstructions, formatOf]

theorem exists_mnemonic_of_std {tag : Tag} (h : formatOf tag = some .std) : ∃ mn, mnemonic tag = some mn := by
  cases tag with
  | rmReg op => exact ⟨AluOp.text op, rfl⟩
  | movRmReg => exact ⟨_, rfl⟩
  | rmImm | accImm | movRegImm | nop | hlt | cmc | clc | stc | cli | sti | cld | std | unrecognized => cases h

theorem operands_of_std {r : DecodedInstr} (h : formatOf r.tag = some .std) :
    operands r = if r.d then some (.reg r.reg r.w, rmOperand r) else some (rmOperand r, .reg r.reg r.w) := by
  rw [operands, h]

theorem line_of_std {r : DecodedInstr} {mn : List Byte} (h : formatOf r.tag = some .std) (hmn : mnemonic r.tag = some mn) :
    line r = if r.d then twoOperandLine mn (regName r.reg r.w) (rmText r)
      else twoOperandLine mn (rmText r) (regName r.reg r.w) := by
  rw [line, h, hmn]

theorem rmOperand_stdRecord (tag : Tag) (opc : Byte) (d w : Bool) (mod : BitVec 2) (reg rm : BitVec 3) (disp : Disp) :
    rmOperand (stdRecord tag opc d w mod reg rm disp) =
      if mod = 3 then .reg rm w else .memory (parseMode mod rm).1 rm disp.value w :=
  if_congr (parseMode_eq_regDirect_iff mod rm) rfl rfl

/-- Settles O38: every tag of the list is of the standard format, whose operands and line branch on the direction flag
alone, which is fixed in each clause. -/
theorem operandOrder : Obligations.OperandOrder := by
  intro c hc w mod reg rm disp opc
  have hstd : formatOf c.2.1 = some .std := formatOf_of_mem_stdInstructions c hc
  obtain ⟨mn, hmn⟩ := exists_mnemonic_of_std hstd
  exact ⟨fun d => rmOperand_stdRecord c.2.1 opc d w mod reg rm disp, operands_of_std hstd, operands_of_std hstd,
    mn, hmn, line_of_std hstd hmn, line_of_std hstd hmn⟩

end Sys2Proof.Machine
end

section
/-! An unrecognised opcode byte (R192): the decoder takes it alone, whatever follows, and the loop takes the decoder's
instruction from the bytes that stand at the instruction pointer. -/

namespace Sys2Proof

theorem ne_zero_of_resolve_unrecognized {b0 : Byte} (h : resolve b0 0 = .unrecognized) : b0 ≠ 0 := by
  rintro rfl
  exact absurd h (by decide)

/-- R92: every member of the family 0x80 to 0x83 is recognised, so an unrecognised byte needs no second one (R91). -/
theorem not_needsSecond_of_resolve_unrecognized {b0 : Byte} (h : resolve b0 0 = .unrecognized) :
    needsSecond b0 = false := by
  refine Bool.eq_false_iff.mpr fun hsecond => ?_
  rw [resolve_of_needsSecond hsecond] at h
  cases h

theorem decode_of_resolve_unrecognized {b0 : Byte} (h : resolve b0 0 = .unrecognized) (rest : List Byte) :
    decode (b0 :: rest) = .ok (.unrecognized b0) rest := by
  rw [decode, if_neg (ne_zero_of_resolve_unrecognized h),
    decodeRest_of_not_needsSecond (not_needsSecond_of_resolve_unrecognized h), h]
  rfl

end Sys2Proof

namespace Sys2Proof.Machine

/-- Bytes of the image at the instruction pointer stand at the head of the window, which is no shorter than the longest
instruction (R61). -/
theorem exists_window_eq_append {s : State} {bs : List Byte} (h : ImageHolds s bs) (hlen : bs.length ≤ 6) :
    ∃ rest, window s = bs ++ rest := by
  obtain ⟨hin, hbytes⟩ := h
  obtain ⟨k, hk⟩ := Nat.exists_eq_add_of_le (show bs.length ≤ min 6 (s.cfg.memSize - s.ip) by omega)
  exact ⟨_, by rw [window, hk, Memory.bytes_append, hbytes]⟩

/-- R202: a ready state executes what the decoder finds in the window. -/
theorem step_eq_exec_of_decode {s : State} {i : Instr} {rest : List Byte} (hready : Ready s)
    (h : decode (window s) = .ok i rest) : step s = exec i s := by
  obtain ⟨hvalid, hrunning⟩ := hready
  rw [step, loopStep, if_pos hvalid, if_pos hrunning, h]

theorem exec_unrecognized {s : State} (b0 : Byte) (h : s.ip + 1 ≤ s.cfg.memSize) :
    exec (.unrecognized b0) s = .next (trap .unresolvedTag s.ip (logEvent s.ip b0 { s with ip := s.ip + 1 })) := by
  have hconsume : consume [1] s = .ok () { s with ip := s.ip + 1 } := consume_in [1] h
  rw [exec, execUnrecognized, hconsume, Attempt.bind_ok, conclude]

/-- Settles O30: `exec_unrecognized` is the event and the trap of the statement, and in the loop the byte heads the window,
where the decoder takes it alone. -/
theorem unrecognizedRaisesUnresolvedTag : Obligations.UnrecognizedRaisesUnresolvedTag := by
  refine ⟨⟨rfl, rfl⟩, fun b0 _ h => exec_unrecognized b0 h, fun b0 s hready himage hresolve => ?_⟩
  obtain ⟨rest, hwindow⟩ := exists_window_eq_append himage (by simp)
  have hdecode : decode (window s) = .ok (.unrecognized b0) rest := by
    rw [hwindow]
    exact decode_of_resolve_unrecognized hresolve rest
  rw [step_eq_exec_of_decode hready hdecode]
  exact exec_unrecognized b0 himage.1

end Sys2Proof.Machine
end

section
/-! What an instruction and a step can do, said once: the meaning of an instruction is `retire` of a record, or it is one of
the two that end a session; a step leaves the state as it is, executes what it decoded, or runs off the image (R202). -/

namespace Sys2Proof.Machine

theorem exec_eq_retire (i : Instr) :
    (∃ ns r, ∀ s, exec i s = retire ns r s) ∨ i = .sentinel ∨ ∃ b0, i = .unrecognized b0 := by
  cases i with
  | sentinel => exact .inr (.inl rfl)
  | unrecognized b0 => exact .inr (.inr ⟨b0, rfl⟩)
  | addRmReg | orRmReg | adcRmReg | sbbRmReg | andRmReg | subRmReg | xorRmReg | cmpRmReg | movRmReg
  | addAccImm | orAccImm | adcAccImm | sbbAccImm | andAccImm | subAccImm | xorAccImm | cmpAccImm
  | addRmImm | orRmImm | adcRmImm | sbbRmImm | andRmImm | subRmImm | xorRmImm | cmpRmImm | movRegImm
  | nop | hlt | cmc | clc | stc | cli | sti | cld | std => exact .inl ⟨_, _, fun _ => rfl⟩

theorem exec_sentinel_cases (s : State) :
    s.ip + 1 ≤ s.cfg.memSize ∧ exec .sentinel s = .next { s with ip := s.ip + 1, loop := .done } ∨
      s.cfg.memSize < s.ip + 1 ∧ exec .sentinel s = .next (failedAt s 0 .outOfBounds) := by
  by_cases h : s.ip + 1 ≤ s.cfg.memSize
  · have hconsume : consume [1] s = .ok () { s with ip := s.ip + 1 } := consume_in [1] h
    exact .inl ⟨h, by rw [exec, execSentinel, hconsume, concludeSentinel]⟩
  · have hout : s.cfg.memSize < s.ip + 1 := by omega
    exact .inr ⟨hout, by rw [exec, execSentinel, consume, fetch_out hout]; rfl⟩

theorem exec_unrecognized_cases (b0 : Byte) (s : State) :
    s.ip + 1 ≤ s.cfg.memSize ∧
        exec (.unrecognized b0) s = .next (failedAt (logEvent s.ip b0 s) 1 .unresolvedTag) ∨
      s.cfg.memSize < s.ip + 1 ∧ exec (.unrecognized b0) s = .next (failedAt s 0 .outOfBounds) := by
  by_cases h : s.ip + 1 ≤ s.cfg.memSize
  · exact .inl ⟨h, exec_unrecognized b0 h⟩
  · have hout : s.cfg.memSize < s.ip + 1 := by omega
    exact .inr ⟨hout, by rw [exec, execUnrecognized, consume, fetch_out hout]; rfl⟩

theorem step_cases {s t : State} (h : step s = .next t) :
    s.loop.running = false ∧ t = s ∨
      Ready s ∧ ((∃ i rest, decode (window s) = .ok i rest ∧ exec i s = .next t) ∨
        ∃ n, decode (window s) = .truncated n ∧ t = failedAt s n .outOfBounds) := by
  rw [step, loopStep] at h
  split at h
  case isFalse => cases h
  case isTrue hvalid =>
    split at h
    case isFalse hterminal =>
      cases h
      exact .inl ⟨Bool.eq_false_iff.mpr hterminal, rfl⟩
    case isTrue hrunning =>
      split at h
      case h_1 i rest hdecode => exact .inr ⟨⟨hvalid, hrunning⟩, .inl ⟨i, rest, hdecode, h⟩⟩
      case h_2 n hdecode =>
        cases h
        exact .inr ⟨⟨hvalid, hrunning⟩, .inr ⟨n, hdecode, rfl⟩⟩

end Sys2Proof.Machine
end

section
/-! The trace buffer (R234, R235): every instruction and every step appends one text that fits, which is empty where no
line is written, and an append at the cursor gives the frame of the buffer. -/

namespace Sys2Proof.Machine

/-- From `s` to `t` one text that fits (R235) was appended at the cursor, and none but the empty one without the trace
stage (R220). -/
def AppendsText (s t : State) : Prop :=
  ∃ text : List Byte, text.length ≤ s.cfg.outCap - s.cur ∧ (s.cfg.trace = false → text = []) ∧
    t.out = s.out.writeAll s.cur text ∧ t.cur = s.cur + text.length

/-- The empty text: a state with the buffer and the cursor as they were. -/
theorem appendsText_of_eq {s t : State} (hout : t.out = s.out) (hcur : t.cur = s.cur) : AppendsText s t :=
  ⟨[], Nat.zero_le _, fun _ => rfl, hout, hcur⟩

theorem appendsText_retired {s : State} {r : DecodedInstr} (n : Nat) (h : LineFits s (line r).length) :
    AppendsText s (retired s n r) := by
  cases htrace : s.cfg.trace with
  | false => exact appendsText_of_eq (by simp [htrace]) (by simp [htrace])
  | true => exact ⟨line r, h htrace, by simp [htrace], by simp [htrace], by simp [htrace]⟩

theorem retire_appendsText {ns : List Nat} {r : DecodedInstr} {s t : State} (h : retire ns r s = .next t) :
    AppendsText s t := by
  obtain ⟨-, hfits, heq⟩ | ⟨-, -, -, heq⟩ | ⟨k, -, -, heq⟩ := retire_cases ns r s
  all_goals cases heq.symm.trans h
  · exact appendsText_retired ns.sum hfits
  · exact appendsText_of_eq rfl rfl
  · exact appendsText_of_eq rfl rfl

theorem exec_appendsText {i : Instr} {s t : State} (h : exec i s = .next t) : AppendsText s t := by
  obtain ⟨ns, r, hretire⟩ | rfl | ⟨b0, rfl⟩ := exec_eq_retire i
  · exact retire_appendsText ((hretire s).symm.trans h)
  · obtain ⟨-, heq⟩ | ⟨-, heq⟩ := exec_sentinel_cases s
    all_goals
      cases heq.symm.trans h
      exact appendsText_of_eq rfl rfl
  · obtain ⟨-, heq⟩ | ⟨-, heq⟩ := exec_unrecognized_cases b0 s
    all_goals
      cases heq.symm.trans h
      exact appendsText_of_eq rfl rfl

theorem step_appendsText {s t : State} (h : step s = .next t) : AppendsText s t := by
  obtain ⟨-, rfl⟩ | ⟨-, ⟨i, rest, -, hexec⟩ | ⟨n, -, rfl⟩⟩ := step_cases h
  · exact appendsText_of_eq rfl rfl
  · exact exec_appendsText hexec
  · exact appendsText_of_eq rfl rfl

/-- A text that fits in what is left of the buffer ends within the capacity and is all that is written. -/
theorem AppendsText.frame {s t : State} (h : AppendsText s t) (hwf : s.out.wf s.cfg.outCap = true)
    (hcur : s.cur ≤ s.cfg.outCap) :
    s.cur ≤ t.cur ∧ t.cur ≤ s.cfg.outCap ∧ (∀ a, a < s.cur ∨ t.cur ≤ a → t.out.read a = s.out.read a) ∧
      t.out.wf s.cfg.outCap = true := by
  obtain ⟨text, hfits, -, hout, hcur'⟩ := h
  have hend : s.cur + text.length ≤ s.cfg.outCap := by omega
  rw [hout, hcur']
  exact ⟨Nat.le_add_right _ _, hend, fun _ => Memory.read_writeAll_outside text hwf hend,
    Memory.wf_writeAll text hwf hend⟩

theorem AppendsText.eq_of_no_trace {s t : State} (h : AppendsText s t) (htrace : s.cfg.trace = false) :
    t.out = s.out ∧ t.cur = s.cur := by
  obtain ⟨text, -, hempty, hout, hcur⟩ := h
  rw [hempty htrace] at hout hcur
  exact ⟨hout, hcur⟩

/-- Settles O33: an instruction and a step append one text that fits, whose frame is `AppendsText.frame`; without the
trace stage it is empty; `Init` sets the cursor. -/
theorem traceBufferFrame : Obligations.TraceBufferFrame :=
  ⟨fun _ _ _ hwf hcur h => (exec_appendsText h).frame hwf hcur,
    fun _ _ hwf hcur h => (step_appendsText h).frame hwf hcur,
    fun _ _ _ htrace h => (exec_appendsText h).eq_of_no_trace htrace, init_cur⟩

end Sys2Proof.Machine
end

section
/-! The bytes the decoder looks at (20_memory.md R45) beside the `Fetch` calls of the spec's pseudocode (R130, R68): a
displacement and an immediate are taken from the bytes ahead exactly when they are fetched. -/

namespace Sys2Proof.Machine

/-- The state after the `Fetch` calls of `n` bytes that succeeded (20_memory.md R41). -/
def advance (n : Nat) (s : State) : State := { s with ip := s.ip + n }

@[simp] theorem advance_cfg (n : Nat) (s : State) : (advance n s).cfg = s.cfg := rfl
@[simp] theorem advance_ip (n : Nat) (s : State) : (advance n s).ip = s.ip + n := rfl
@[simp] theorem advance_mem (n : Nat) (s : State) : (advance n s).mem = s.mem := rfl
@[simp] theorem advance_zero (s : State) : advance 0 s = s := rfl

@[simp] theorem advance_advance (n k : Nat) (s : State) : advance n (advance k s) = advance (k + n) s := by
  simp [advance, Nat.add_assoc]

/-- The bytes ahead of the instruction pointer, at most `c` and none at or beyond `MEM_SIZE`. -/
def ahead (c : Nat) (s : State) : List Byte := s.mem.bytes s.ip (min c (s.cfg.memSize - s.ip))

theorem window_eq_ahead (s : State) : window s = ahead 6 s := rfl

theorem ahead_of_end {s : State} (h : s.cfg.memSize < s.ip + 1) (c : Nat) : ahead c s = [] := by
  rw [ahead, show min c (s.cfg.memSize - s.ip) = 0 by omega, Memory.bytes]

theorem ahead_succ {s : State} (h : s.ip + 1 ≤ s.cfg.memSize) (c : Nat) :
    ahead (c + 1) s = s.mem.read s.ip :: ahead c (advance 1 s) := by
  rw [ahead, show min (c + 1) (s.cfg.memSize - s.ip) = min c (s.cfg.memSize - (s.ip + 1)) + 1 by omega, Memory.bytes]
  rfl

theorem ahead_succ_succ {s : State} (h : s.ip + 2 ≤ s.cfg.memSize) (c : Nat) :
    ahead (c + 2) s = s.mem.read s.ip :: s.mem.read (s.ip + 1) :: ahead c (advance 2 s) := by
  have h1 : s.ip + 1 ≤ s.cfg.memSize := by omega
  have h2 : (advance 1 s).ip + 1 ≤ (advance 1 s).cfg.memSize := h
  rw [ahead_succ h1, ahead_succ h2, advance_advance]
  rfl

/-- Before a two-byte read that does not fit, at most one byte is ahead. -/
theorem ahead_of_short {s : State} (h : s.cfg.memSize < s.ip + 2) (c : Nat) : ahead c s = [] ∨ ∃ b, ahead c s = [b] := by
  have hlen : (ahead c s).length ≤ 1 := by
    rw [ahead, Memory.bytes_length]
    omega
  obtain hzero | hone := Nat.le_one_iff_eq_zero_or_eq_one.mp hlen
  · exact .inl (List.length_eq_zero_iff.mp hzero)
  · exact .inr (List.length_eq_one_iff.mp hone)

theorem fetch_one_in {s : State} (h : s.ip + 1 ≤ s.cfg.memSize) :
    fetch 1 s = .ok (zext16 (s.mem.read s.ip)) (advance 1 s) := fetch_in h

theorem fetch_two_in {s : State} (h : s.ip + 2 ≤ s.cfg.memSize) :
    fetch 2 s = .ok (joinBytes (s.mem.read s.ip) (s.mem.read (s.ip + 1))) (advance 2 s) := fetch_in h

/-- A displacement is taken from the bytes ahead exactly when `ExtractDisp` (R130) reads it. -/
theorem takeDisp_ahead (size : SizeTag) (s : State) :
    takeDisp size (ahead 4 s) = none ∧ specExtractDisp size s = .raised .outOfBounds s ∨
      ∃ disp : Disp, disp.size = size ∧ (disp.size.bytes = 0 ∨ s.ip + disp.size.bytes ≤ s.cfg.memSize) ∧
        takeDisp size (ahead 4 s) = some (disp, ahead (4 - disp.size.bytes) (advance disp.size.bytes s)) ∧
        specExtractDisp size s = .ok disp.value (advance disp.size.bytes s) := by
  cases size with
  | szNone => exact .inr ⟨.none, rfl, .inl rfl, rfl, rfl⟩
  | szOne =>
    by_cases h : s.ip + 1 ≤ s.cfg.memSize
    · exact .inr ⟨.byte (s.mem.read s.ip), rfl, .inr h, by rw [ahead_succ h]; rfl, specExtractDisp_szOne_in h⟩
    · have hend : s.cfg.memSize < s.ip + 1 := by omega
      exact .inl ⟨by rw [ahead_of_end hend]; rfl, specExtractDisp_out (by decide) hend⟩
  | szTwo =>
    by_cases h : s.ip + 2 ≤ s.cfg.memSize
    · exact .inr ⟨.word (joinBytes (s.mem.read s.ip) (s.mem.read (s.ip + 1))), rfl, .inr h,
        by rw [ahead_succ_succ h]; rfl, specExtractDisp_szTwo_in h⟩
    · have hshort : s.cfg.memSize < s.ip + 2 := by omega
      refine .inl ⟨?_, specExtractDisp_out (by decide) hshort⟩
      obtain hbytes | ⟨b, hbytes⟩ := ahead_of_short hshort 4
      all_goals rw [hbytes]; rfl

/-- An immediate is taken from the bytes ahead exactly when the `Fetch` of its size (R68) reads it. -/
theorem takeImm_ahead (two : Bool) (c : Nat) (s : State) :
    takeImm two (ahead (c + 2) s) = none ∧ fetch (if two then 2 else 1) s = .raised .outOfBounds s ∨
      ∃ (imm : Imm) (rest : List Byte), imm.size = (if two then .szTwo else .szOne) ∧
        s.ip + imm.size.bytes ≤ s.cfg.memSize ∧ takeImm two (ahead (c + 2) s) = some (imm, rest) ∧
        fetch (if two then 2 else 1) s = .ok (imm.value false) (advance imm.size.bytes s) := by
  cases two with
  | false =>
    by_cases h : s.ip + 1 ≤ s.cfg.memSize
    · exact .inr ⟨.byte (s.mem.read s.ip), _, rfl, h, by rw [ahead_succ h]; rfl, fetch_one_in h⟩
    · have hend : s.cfg.memSize < s.ip + 1 := by omega
      exact .inl ⟨by rw [ahead_of_end hend]; rfl, fetch_out hend⟩
  | true =>
    by_cases h : s.ip + 2 ≤ s.cfg.memSize
    · exact .inr ⟨.word (joinBytes (s.mem.read s.ip) (s.mem.read (s.ip + 1))), _, rfl, h,
        by rw [ahead_succ_succ h]; rfl, fetch_two_in h⟩
    · have hshort : s.cfg.memSize < s.ip + 2 := by omega
      refine .inl ⟨?_, fetch_out hshort⟩
      obtain hbytes | ⟨b, hbytes⟩ := ahead_of_short hshort (c + 2)
      all_goals rw [hbytes]; rfl

end Sys2Proof.Machine
end

section
/-! The families: an opcode byte that the resolver recognised is the one the encoder gives (R62, R63), the decoder's entry by
the resolver's need of a second byte (R161), and the meaning of every instruction of a family, which is `retire` of the
family's record. -/

namespace Sys2Proof

theorem eq_aluStdOpcode_of_resolve {b0 : Byte} {op : AluOp} (h : resolve b0 0 = .rmReg op) :
    b0 = aluStdOpcode op (b0.getLsbD 1) (b0.getLsbD 0) := by
  revert b0
  cases op <;> decide

theorem eq_movStdOpcode_of_resolve {b0 : Byte} (h : resolve b0 0 = .movRmReg) :
    b0 = movStdOpcode (b0.getLsbD 1) (b0.getLsbD 0) := by
  revert b0; decide

theorem eq_accImmOpcode_of_resolve {b0 : Byte} {op : AluOp} (h : resolve b0 0 = .accImm op) :
    b0 = accImmOpcode op (b0.getLsbD 0) := by
  revert b0
  cases op <;> decide

theorem eq_regImmOpcode_of_resolve {b0 : Byte} (h : resolve b0 0 = .movRegImm) :
    b0 = regImmOpcode (b0.getLsbD 3) (b0.extractLsb' 0 3) := by
  revert b0; decide

theorem decodeRest_nil_of_needsSecond {b0 : Byte} (h : needsSecond b0 = true) : decodeRest b0 [] = .truncated 1 := by
  simp only [decodeRest, h]

theorem decodeRest_cons_of_needsSecond {b0 : Byte} (h : needsSecond b0 = true) (b1 : Byte) (rest : List Byte) :
    decodeRest b0 (b1 :: rest) = decodeTag (resolve b0 b1) b0 b1 rest := by
  simp only [decodeRest, h]

theorem resolve_ne_rmImm_of_not_needsSecond {b0 : Byte} (h : needsSecond b0 = false) (op : AluOp) :
    resolve b0 0 ≠ .rmImm op := by
  revert b0
  cases op <;> decide

end Sys2Proof

namespace Sys2Proof.Machine

theorem exec_aluRmReg (op : AluOp) (d w : Bool) (mod : BitVec 2) (reg rm : BitVec 3) (disp : Disp) (s : State) :
    exec (aluRmReg op d w mod reg rm disp) s = retireStd (.rmReg op) (aluStdOpcode op d w) d w mod reg rm disp s := by
  cases op <;> rfl

/-- The opcode byte of the record is left unsaid: no line shows it (47_formatter.md R224). -/
theorem exec_stdInstructions : ∀ c ∈ stdInstructions, ∀ (d w : Bool) (mod : BitVec 2) (reg rm : BitVec 3) (disp : Disp),
    ∃ opc, ∀ s, exec (c.1 d w mod reg rm disp) s = retireStd c.2.1 opc d w mod reg rm disp s := by
  intro c hc d w mod reg rm disp
  simp only [stdInstructions, List.mem_cons, List.not_mem_nil, or_false] at hc
  obtain rfl | rfl | rfl | rfl | rfl | rfl | rfl | rfl | rfl := hc
  all_goals exact ⟨_, fun _ => rfl⟩

theorem exec_aluAccImm (op : AluOp) (w : Bool) (imm : Imm) (s : State) :
    exec (aluAccImm op w imm) s = retireAccImm op w imm s := by
  cases op <;> rfl

theorem exec_aluRmImm (op : AluOp) (sx w : Bool) (mod : BitVec 2) (rm : BitVec 3) (disp : Disp) (imm : Imm)
    (s : State) : exec (aluRmImm op sx w mod rm disp imm) s = retireRmImm op sx w mod rm disp imm s := by
  cases op <;> rfl

theorem exec_noOperandInstructions :
    ∀ c ∈ noOperandInstructions, ∀ s, exec c.1 s = retireNoOperand c.2.1 c.2.2 s := by
  intro c hc
  simp only [noOperandInstructions, List.mem_cons, List.not_mem_nil, or_false] at hc
  obtain rfl | rfl | rfl | rfl | rfl | rfl | rfl | rfl | rfl := hc
  all_goals exact fun _ => rfl

/-- A tag of the no-operand format has one opcode byte (R182). -/
theorem exists_noOperandInstruction {b0 : Byte} (h : formatOf (resolve b0 0) = some .noOperand) :
    ∃ c ∈ noOperandInstructions, b0 = c.2.2 ∧ resolve b0 0 = c.2.1 := by
  revert b0; decide

theorem decodeTag_noOperandInstructions :
    ∀ c ∈ noOperandInstructions, ∀ b0 b1 rest, decodeTag c.2.1 b0 b1 rest = .ok c.1 rest := by
  intro c hc
  simp only [noOperandInstructions, List.mem_cons, List.not_mem_nil, or_false] at hc
  obtain rfl | rfl | rfl | rfl | rfl | rfl | rfl | rfl | rfl := hc
  all_goals exact fun _ _ _ => rfl

end Sys2Proof.Machine
end

section
/-! The stand-alone decoder on the bytes ahead and the spec's `DecodeOne` over the state (R161): what one answers, the other
answers, format by format. -/

namespace Sys2Proof.Machine

/-- The record under construction when the handler of `tag` starts (R161). -/
def started (tag : Tag) (b0 : Byte) (s : State) : DecodedInstr :=
  { emptyRecord with addr := s.ip, opcode := b0, tag := tag }

/-- The last line of `DecodeRest` (R161): the length of a record whose instruction began in `s` is measured. -/
def measured (s : State) (x : Attempt DecodedInstr) : Attempt DecodedInstr :=
  x.bind fun r t => .ok { r with len := t.ip - s.ip } t

@[simp] theorem measured_raised (s : State) (k : ErrKind) (t : State) : measured s (.raised k t) = .raised k t := rfl

/-- The two decoders agree at `s`: both run off the image after the same bytes, or both find the byte unrecognised, or the
record of the one is the record that the instruction of the other retires with. -/
inductive DecodedAs (s : State) : DecodeResult → Attempt DecodedInstr → Prop
  | truncated (n : Nat) (hin : n = 0 ∨ s.ip + n ≤ s.cfg.memSize) :
      DecodedAs s (.truncated n) (.raised .outOfBounds (advance n s))
  | unrecognized (rest : List Byte) (hin : s.ip + 1 ≤ s.cfg.memSize) :
      DecodedAs s (.ok (.unrecognized (s.mem.read s.ip)) rest)
        (.raised .unresolvedTag (logEvent s.ip (s.mem.read s.ip) (advance 1 s)))
  | record (i : Instr) (rest : List Byte) (ns : List Nat) (r : DecodedInstr) (n : Nat) (hsum : ns.sum = n)
      (hexec : ∀ t, exec i t = retire ns r t) (hlen : 1 ≤ n ∧ n ≤ 6) (hin : s.ip + n ≤ s.cfg.memSize) :
      DecodedAs s (.ok i rest) (.ok (placed r s n) (advance n s))

theorem specDecodeOperand_of_disp {m : Byte} {r : DecodedInstr} {s t : State} {disp : Word}
    (h : specExtractDisp (parseMode (split m).1 (split m).2.2).2 s = .ok disp t) :
    specDecodeOperand m r s =
      .ok { r with mod := (split m).1, reg := (split m).2.1, rm := (split m).2.2,
                   amode := (parseMode (split m).1 (split m).2.2).1,
                   dispSize := (parseMode (split m).1 (split m).2.2).2, disp := disp } t := by
  rw [specDecodeOperand, h, Attempt.bind_ok]

theorem specDecodeOperand_of_raised {m : Byte} {r : DecodedInstr} {s t : State} {k : ErrKind}
    (h : specExtractDisp (parseMode (split m).1 (split m).2.2).2 s = .raised k t) :
    specDecodeOperand m r s = .raised k t := by
  rw [specDecodeOperand, h, Attempt.bind_raised]

/-- Format `STD` (R141). -/
theorem decodeStd_decodedAs {mk : Bool → Bool → BitVec 2 → BitVec 3 → BitVec 3 → Disp → Instr} {tag : Tag} {b0 : Byte}
    {s : State} (hin : s.ip + 1 ≤ s.cfg.memSize)
    (hexec : ∀ mod reg rm disp t, exec (mk (b0.getLsbD 1) (b0.getLsbD 0) mod reg rm disp) t =
      retireStd tag b0 (b0.getLsbD 1) (b0.getLsbD 0) mod reg rm disp t) :
    DecodedAs s (decodeStd mk b0 (ahead 5 (advance 1 s)))
      (measured s (specDecodeStd b0 (started tag b0 s) (advance 1 s))) := by
  by_cases hm : (advance 1 s).ip + 1 ≤ (advance 1 s).cfg.memSize
  · rw [specDecodeStd, fetch_one_in hm, Attempt.bind_ok, ahead_succ hm, decodeStd, lowByte_zext16, advance_advance]
    generalize (advance 1 s).mem.read (advance 1 s).ip = m
    obtain ⟨htake, hspec⟩ | ⟨disp, hsize, hdisp, htake, hspec⟩ :=
      takeDisp_ahead (parseMode (split m).1 (split m).2.2).2 (advance 2 s)
    · rw [htake, specDecodeOperand_of_raised hspec]
      exact .truncated 2 (.inr hm)
    · rw [htake, specDecodeOperand_of_disp hspec, advance_advance, ← hsize]
      have hbytes := Disp.bytes_le disp
      have hrecord := DecodedAs.record (s := s) _ (ahead (4 - disp.size.bytes) (advance (2 + disp.size.bytes) s)) _ _
        (2 + disp.size.bytes) (by simp [Disp.fetches_sum, ← Nat.add_assoc])
        (hexec (split m).1 (split m).2.1 (split m).2.2 disp)
        ⟨by omega, by omega⟩ (by simp only [advance_ip, advance_cfg] at hm hdisp; omega)
      simpa [measured, placed, started, stdRecord] using hrecord
  · have hend : (advance 1 s).cfg.memSize < (advance 1 s).ip + 1 := by omega
    rw [specDecodeStd, fetch_out hend, Attempt.bind_raised, ahead_of_end hend, decodeStd]
    exact .truncated 1 (.inr hin)

/-- The immediate of the formats without an addressing byte (R162, R180): `Fetch` of the operand's width, zero-extended. -/
theorem specImmediate_eq (r : DecodedInstr) (s : State) :
    specImmediate r s = (fetch (if r.w then 2 else 1) s).bind fun v t =>
      .ok { r with immSize := if r.w then .szTwo else .szOne, imm := v } t := by
  cases hw : r.w <;> simp [specImmediate, hw]

/-- Formats `ACC_IMM` and `REG_IMM` (R162, R180): the opcode byte and an immediate of the operand's width. -/
theorem withImm_decodedAs {two : Bool} {mk : Imm → Instr} {record : Imm → DecodedInstr} {r : DecodedInstr} {s : State}
    (hin : s.ip + 1 ≤ s.cfg.memSize) (hexec : ∀ imm t, exec (mk imm) t = retire ([1] ++ imm.fetches) (record imm) t)
    (hw : r.w = two)
    (hrecord : ∀ imm n, placed (record imm) s n = { r with len := n, immSize := imm.size, imm := imm.value false }) :
    DecodedAs s
      (match takeImm two (ahead 5 (advance 1 s)) with
        | none => .truncated 1
        | some (imm, rest) => .ok (mk imm) rest)
      (measured s (specImmediate r (advance 1 s))) := by
  subst hw
  rw [specImmediate_eq]
  obtain ⟨htake, hspec⟩ | ⟨imm, rest, hsize, himm, htake, hspec⟩ := takeImm_ahead r.w 3 (advance 1 s)
  · rw [htake, hspec]
    exact .truncated 1 (.inr hin)
  · rw [htake, hspec, ← hsize, advance_advance]
    have hbytes := Imm.bytes_range imm
    have h := DecodedAs.record (s := s) (mk imm) rest _ _ (1 + imm.size.bytes) (by simp [Imm.fetches_sum]) (hexec imm)
      ⟨by omega, by omega⟩ (by simp only [advance_ip, advance_cfg] at himm; omega)
    simpa [measured, hrecord] using h

theorem decodeAccImm_decodedAs {op : AluOp} {b0 : Byte} {s : State} (hin : s.ip + 1 ≤ s.cfg.memSize)
    (hb0 : b0 = accImmOpcode op (b0.getLsbD 0)) :
    DecodedAs s (decodeAccImm op b0 (ahead 5 (advance 1 s)))
      (measured s (specDecodeAccImm b0 (started (.accImm op) b0 s) (advance 1 s))) := by
  refine withImm_decodedAs (mk := aluAccImm op (b0.getLsbD 0)) hin (exec_aluAccImm op _) rfl fun imm n => ?_
  rw [accImmRecord, ← hb0]
  rfl

theorem decodeRegImm_decodedAs {b0 : Byte} {s : State} (hin : s.ip + 1 ≤ s.cfg.memSize)
    (hb0 : b0 = regImmOpcode (b0.getLsbD 3) (b0.extractLsb' 0 3)) :
    DecodedAs s (decodeRegImm b0 (ahead 5 (advance 1 s)))
      (measured s (specDecodeRegImm b0 (started .movRegImm b0 s) (advance 1 s))) := by
  refine withImm_decodedAs (mk := .movRegImm (b0.getLsbD 3) (b0.extractLsb' 0 3)) hin (fun _ _ => rfl) rfl fun imm n => ?_
  rw [regImmRecord, ← hb0]
  rfl

/-- The immediate of format `RM_IMM` (R171): two bytes when s = 0 and w = 1, else one, sign-extended when s = w = 1. -/
theorem specDecodeRmImm_eq (b0 b1 : Byte) (r : DecodedInstr) (s : State) :
    specDecodeRmImm b0 b1 r s =
      (specDecodeOperand b1 { r with w := b0.getLsbD 0, s := b0.getLsbD 1 } s).bind fun r s =>
        (fetch (if !r.s && r.w then 2 else 1) s).bind fun v s =>
          .ok { r with hasModrm := true, immSize := if !r.s && r.w then .szTwo else .szOne,
                       imm := if r.s && r.w then sext16 (lowByte v) else v } s := by
  rw [specDecodeRmImm]
  congr 1
  funext r s
  cases hs : r.s <;> cases hw : r.w <;> simp

/-- Only a byte is ever sign-extended (30_encoding.md R68). -/
theorem sext16_lowByte_value {sx w : Bool} {imm : Imm} (h : imm.size = if !sx && w then .szTwo else .szOne) :
    (if sx && w then sext16 (lowByte (imm.value false)) else imm.value false) = imm.value (sx && w) := by
  cases hext : sx && w with
  | false => rfl
  | true =>
    obtain ⟨rfl, rfl⟩ := Bool.and_eq_true_iff.mp hext
    cases imm with
    | byte v => simp [Imm.value]
    | word v => cases h

/-- Format `RM_IMM` (R171), after its two bytes `b0` and `m`. -/
theorem decodeRmImm_decodedAs {op : AluOp} {sx w : Bool} {m : Byte} {s : State} (hin : s.ip + 2 ≤ s.cfg.memSize)
    (hop : (split m).2.1 = op.index) :
    DecodedAs s (decodeRmImm op (rmImmOpcode sx w) m (ahead 4 (advance 2 s)))
      (measured s (specDecodeRmImm (rmImmOpcode sx w) m (started (.rmImm op) (rmImmOpcode sx w) s) (advance 2 s))) := by
  rw [specDecodeRmImm_eq, decodeRmImm, rmImmOpcode_s, rmImmOpcode_w]
  obtain ⟨htake, hspec⟩ | ⟨disp, hsize, hdisp, htake, hspec⟩ :=
    takeDisp_ahead (parseMode (split m).1 (split m).2.2).2 (advance 2 s)
  · rw [htake, specDecodeOperand_of_raised hspec]
    exact .truncated 2 (.inr hin)
  · have hdispLen := Disp.bytes_le disp
    have hdispIn : s.ip + (2 + disp.size.bytes) ≤ s.cfg.memSize := by
      simp only [advance_ip, advance_cfg] at hdisp; omega
    rw [htake, specDecodeOperand_of_disp hspec, advance_advance, ← hsize, hop, Attempt.bind_ok,
      show 4 - disp.size.bytes = 2 - disp.size.bytes + 2 by omega]
    obtain ⟨htakeImm, hfetch⟩ | ⟨imm, rest, himmSize, himm, htakeImm, hfetch⟩ :=
      takeImm_ahead (!sx && w) (2 - disp.size.bytes) (advance (2 + disp.size.bytes) s)
    · simp only [htakeImm, hfetch]
      exact .truncated _ (.inr hdispIn)
    · simp only [htakeImm, hfetch, ← himmSize, Attempt.bind_ok, advance_advance, sext16_lowByte_value himmSize]
      have himmLen := Imm.bytes_range imm
      have h := DecodedAs.record (s := s) _ rest _ _ (2 + disp.size.bytes + imm.size.bytes)
        (by simp [Disp.fetches_sum, Imm.fetches_sum, ← Nat.add_assoc])
        (exec_aluRmImm op sx w (split m).1 (split m).2.2 disp imm)
        ⟨by omega, by omega⟩ (by simp only [advance_ip, advance_cfg] at himm; omega)
      simpa [measured, placed, started, rmImmRecord] using h

/-- `DecodeRest` (R161) is the handler of the format, then the measured length. -/
theorem specDecodeRest_of_format {b0 b1 : Byte} {f : Format} {s t u : State} (hsecond : specSecondByte b0 t = .ok b1 u)
    (hformat : formatOf (resolve b0 b1) = some f) :
    specDecodeRest s.ip b0 t = measured s (specHandler f b0 b1 (started (resolve b0 b1) b0 s) u) := by
  rw [specDecodeRest, hsecond, Attempt.bind_ok, hformat]
  rfl

/-- The 0x80 to 0x83 family: the resolver's second byte is the addressing byte (R93, R171). -/
theorem decodeRest_rmImm_decodedAs {sx w : Bool} {s : State} (hin : s.ip + 1 ≤ s.cfg.memSize) :
    DecodedAs s (decodeRest (rmImmOpcode sx w) (ahead 5 (advance 1 s)))
      (specDecodeRest s.ip (rmImmOpcode sx w) (advance 1 s)) := by
  have hsecond := needsSecond_rmImmOpcode sx w
  by_cases hm : (advance 1 s).ip + 1 ≤ (advance 1 s).cfg.memSize
  · have hspec : specSecondByte (rmImmOpcode sx w) (advance 1 s) =
        .ok ((advance 1 s).mem.read (advance 1 s).ip) (advance 2 s) := by
      rw [specSecondByte, if_pos hsecond, fetch_one_in hm, Attempt.bind_ok, lowByte_zext16, advance_advance]
    rw [ahead_succ hm, decodeRest_cons_of_needsSecond hsecond, advance_advance,
      specDecodeRest_of_format (f := .rmImm) hspec (by rw [resolve_rmImmOpcode]; rfl), resolve_rmImmOpcode]
    exact decodeRmImm_decodedAs hm (AluOp.index_ofIndex _).symm
  · have hend : (advance 1 s).cfg.memSize < (advance 1 s).ip + 1 := by omega
    rw [ahead_of_end hend, decodeRest_nil_of_needsSecond hsecond, specDecodeRest, specSecondByte, if_pos hsecond,
      fetch_out hend]
    exact .truncated 1 (.inr hin)

/-- Format `NOOPERAND` (R182). -/
theorem decodeNoOperand_decodedAs {b0 : Byte} {s : State} (hin : s.ip + 1 ≤ s.cfg.memSize)
    (hformat : formatOf (resolve b0 0) = some .noOperand) (rest : List Byte) :
    DecodedAs s (decodeTag (resolve b0 0) b0 0 rest) (measured s (.ok (started (resolve b0 0) b0 s) (advance 1 s))) := by
  obtain ⟨c, hc, hb0, htag⟩ := exists_noOperandInstruction hformat
  rw [htag, decodeTag_noOperandInstructions c hc, hb0]
  have h := DecodedAs.record (s := s) c.1 rest _ _ 1 rfl (exec_noOperandInstructions c hc) (by decide) hin
  simpa [measured, placed, started, noOperandRecord] using h

/-- The opcode bytes that need no second one, by the tag the resolver gives (R160, R161). -/
theorem decodeRest_decodedAs {s : State} (hin : s.ip + 1 ≤ s.cfg.memSize)
    (hneeds : needsSecond (s.mem.read s.ip) = false) :
    DecodedAs s (decodeRest (s.mem.read s.ip) (ahead 5 (advance 1 s)))
      (specDecodeRest s.ip (s.mem.read s.ip) (advance 1 s)) := by
  rw [decodeRest_of_not_needsSecond hneeds]
  have hsecond := specSecondByte_of_not_needsSecond hneeds (advance 1 s)
  cases htag : resolve (s.mem.read s.ip) 0 with
  | rmReg op =>
    rw [specDecodeRest_of_format hsecond (by rw [htag]; rfl), htag]
    refine decodeStd_decodedAs hin fun mod reg rm disp t => ?_
    rw [exec_aluRmReg, ← eq_aluStdOpcode_of_resolve htag]
  | movRmReg =>
    rw [specDecodeRest_of_format hsecond (by rw [htag]; rfl), htag]
    refine decodeStd_decodedAs hin fun mod reg rm disp t => ?_
    rw [exec, execMovRmReg, ← eq_movStdOpcode_of_resolve htag]
  | accImm op =>
    rw [specDecodeRest_of_format hsecond (by rw [htag]; rfl), htag]
    exact decodeAccImm_decodedAs hin (eq_accImmOpcode_of_resolve htag)
  | movRegImm =>
    rw [specDecodeRest_of_format hsecond (by rw [htag]; rfl), htag]
    exact decodeRegImm_decodedAs hin (eq_regImmOpcode_of_resolve htag)
  | rmImm op => exact absurd htag (resolve_ne_rmImm_of_not_needsSecond hneeds op)
  | unrecognized =>
    rw [specDecodeRest, hsecond, Attempt.bind_ok, htag]
    exact .unrecognized _ hin
  | nop | hlt | cmc | clc | stc | cli | sti | cld | std =>
    have hformat : formatOf (resolve (s.mem.read s.ip) 0) = some .noOperand := by rw [htag]; rfl
    rw [specDecodeRest_of_format hsecond hformat, ← htag]
    exact decodeNoOperand_decodedAs hin hformat _

/-- The stand-alone decoder on the window is the spec's `DecodeOne` (R161). -/
theorem decodeOne_decodedAs (s : State) : DecodedAs s (decodeOne (window s)) (specDecodeOne s) := by
  rw [specDecodeOne, window_eq_ahead]
  by_cases hin : s.ip + 1 ≤ s.cfg.memSize
  · rw [ahead_succ hin, fetch_one_in hin, Attempt.bind_ok, lowByte_zext16, decodeOne]
    cases hneeds : needsSecond (s.mem.read s.ip) with
    | false => exact decodeRest_decodedAs hin hneeds
    | true =>
      obtain ⟨sx, w, hb0⟩ := (needsSecond_iff_rmImmOpcode _).mp hneeds
      rw [hb0]
      exact decodeRest_rmImm_decodedAs hin
  · have hend : s.cfg.memSize < s.ip + 1 := by omega
    rw [ahead_of_end hend, fetch_out hend]
    exact .truncated 0 (.inl rfl)

end Sys2Proof.Machine
end

section
/-! The step (R202): away from the sentinel the machine's step and the pseudocode's step are both the loop's conclusion of
what `DecodeOne` answers. From this, once, all that a step can do. -/

namespace Sys2Proof.Machine

/-- The loop's sentinel test (R201): the byte 0x00 stands at the instruction pointer. -/
def AtSentinel (s : State) : Prop := s.ip + 1 ≤ s.cfg.memSize ∧ s.mem.read s.ip = 0

theorem decode_window_of_sentinel {s : State} (h : AtSentinel s) :
    decode (window s) = .ok .sentinel (ahead 5 (advance 1 s)) := by
  obtain ⟨hin, hbyte⟩ := h
  rw [window_eq_ahead, ahead_succ hin, hbyte, decode, if_pos rfl]

/-- Away from the sentinel the loop decodes as the stand-alone decoder does (R214). -/
theorem decode_window_of_not_sentinel {s : State} (h : ¬ AtSentinel s) : decode (window s) = decodeOne (window s) := by
  rw [window_eq_ahead]
  by_cases hin : s.ip + 1 ≤ s.cfg.memSize
  · rw [ahead_succ hin, decode, if_neg fun hbyte => h ⟨hin, hbyte⟩, decodeOne]
  · rw [ahead_of_end (by omega), decode, decodeOne]

theorem specAttempt_of_sentinel {s : State} (h : AtSentinel s) : specAttempt s = .ok none (advance 1 s) := by
  obtain ⟨hin, hbyte⟩ := h
  rw [specAttempt, fetch_one_in hin, Attempt.bind_ok, lowByte_zext16, if_pos hbyte]

theorem specAttempt_of_not_sentinel {s : State} (h : ¬ AtSentinel s) :
    specAttempt s = (specDecodeOne s).bind fun r t =>
      if t.cfg.trace then (append (line r) t).bind fun _ t => .ok (some r) t else .ok (some r) t := by
  by_cases hin : s.ip + 1 ≤ s.cfg.memSize
  · rw [specAttempt, specDecodeOne, fetch_one_in hin, Attempt.bind_ok, Attempt.bind_ok, lowByte_zext16,
      if_neg fun hbyte => h ⟨hin, hbyte⟩]
  · rw [specAttempt, specDecodeOne, fetch_out (by omega), Attempt.bind_raised, Attempt.bind_raised, Attempt.bind_raised]

/-- Away from the sentinel the pseudocode's step is the loop's conclusion of what `DecodeOne` answers. -/
theorem specStep_of_not_sentinel {s : State} (h : ¬ AtSentinel s) : specStep s = conclude s.ip (specDecodeOne s) := by
  rw [specStep, specAttempt_of_not_sentinel h]
  cases specDecodeOne s with
  | raised k t => rfl
  | ok r t =>
    rw [Attempt.bind_ok, conclude, traceStage]
    by_cases htrace : t.cfg.trace = true
    · rw [if_pos htrace, if_pos htrace]
      cases append (line r) t <;> rfl
    · rw [if_neg htrace, if_neg htrace]
      rfl

theorem step_of_sentinel {s : State} (hready : Ready s) (h : AtSentinel s) :
    step s = .next { advance 1 s with loop := .done } := by
  rw [step_eq_exec_of_decode hready (decode_window_of_sentinel h)]
  obtain ⟨-, heq⟩ | ⟨hout, -⟩ := exec_sentinel_cases s
  · exact heq
  · exact absurd h.1 (by omega)

theorem step_of_truncated {s : State} {n : Nat} (hready : Ready s) (h : decode (window s) = .truncated n) :
    step s = .next (trap .outOfBounds s.ip (advance n s)) := by
  obtain ⟨hvalid, hrunning⟩ := hready
  rw [step, loopStep, if_pos hvalid, if_pos hrunning, h]
  rfl

theorem step_of_not_ready {s : State} (h : ¬ Ready s) :
    step s = if s.cfg.Valid then .next s else .refused .parametersOutOfRange := by
  rw [step, loopStep]
  by_cases hvalid : s.cfg.Valid
  · rw [if_pos hvalid, if_pos hvalid, if_neg fun hrunning => h ⟨hvalid, hrunning⟩]
  · rw [if_neg hvalid, if_neg hvalid]

theorem retire_eq_conclude {ns : List Nat} {r : DecodedInstr} {s : State} (hin : s.ip + ns.sum ≤ s.cfg.memSize) :
    retire ns r s = .next (conclude s.ip (.ok (placed r s ns.sum) (advance ns.sum s))) := by
  rw [retire, consume_in ns hin, Attempt.bind_ok]
  simp [placed, advance]

/-- Away from the sentinel the machine's step is the loop's conclusion of what `DecodeOne` answers (R202). -/
theorem step_of_not_sentinel {s : State} (hready : Ready s) (h : ¬ AtSentinel s) :
    step s = .next (conclude s.ip (specDecodeOne s)) := by
  have hagree := decodeOne_decodedAs s
  generalize hdecode : decodeOne (window s) = d at hagree
  rw [← decode_window_of_not_sentinel h] at hdecode
  generalize specDecodeOne s = x at hagree ⊢
  cases hagree with
  | truncated n => exact step_of_truncated hready hdecode
  | unrecognized rest hin => exact (step_eq_exec_of_decode hready hdecode).trans (exec_unrecognized _ hin)
  | record i rest ns r n hsum hexec _ hin =>
    subst hsum
    rw [step_eq_exec_of_decode hready hdecode, hexec, retire_eq_conclude hin]

/-- The machine's step is the spec's (R202). -/
theorem step_eq_specStep {s : State} (hready : Ready s) : step s = .next (specStep s) := by
  by_cases h : AtSentinel s
  · rw [step_of_sentinel hready h, specStep, specAttempt_of_sentinel h]
  · rw [step_of_not_sentinel hready h, specStep_of_not_sentinel h]

/-- What a step that is taken can do, from the state `s` at the boundary of an instruction. -/
inductive StepOutcome (s : State) : State → Prop
  /-- The sentinel was consumed (R203, R206). -/
  | sentinel (h : AtSentinel s) : StepOutcome s { advance 1 s with loop := .done }
  /-- The instruction was decoded completely and its line appended (R202, R263). -/
  | record (r : DecodedInstr) (hdecoded : specDecodeOne s = .ok r (advance r.len s)) (haddr : r.addr = s.ip)
      (hlen : 1 ≤ r.len ∧ r.len ≤ 6) (hin : s.ip + r.len ≤ s.cfg.memSize) (hfits : LineFits s (line r).length) :
      StepOutcome s (retired s r.len r)
  /-- A fetch ran off the image after `n` good bytes, or the line of an instruction of `n` bytes did not fit. -/
  | failed (n : Nat) (k : ErrKind) (hk : k = .outOfBounds ∨ k = .bufferExhausted)
      (hin : n = 0 ∨ s.ip + n ≤ s.cfg.memSize) : StepOutcome s (failedAt s n k)
  /-- The opcode byte is unrecognised (R192). -/
  | unrecognized (hin : s.ip + 1 ≤ s.cfg.memSize) :
      StepOutcome s (failedAt (logEvent s.ip (s.mem.read s.ip) s) 1 .unresolvedTag)

theorem conclude_stepOutcome (s : State) : StepOutcome s (conclude s.ip (specDecodeOne s)) := by
  have hagree := decodeOne_decodedAs s
  generalize hdecoded : specDecodeOne s = x at hagree
  generalize decodeOne (window s) = d at hagree
  cases hagree with
  | truncated n hin => exact .failed n .outOfBounds (.inl rfl) hin
  | unrecognized rest hin => exact .unrecognized hin
  | record i rest ns r n hsum hexec hlen hin =>
    obtain ⟨hfits, heq⟩ | ⟨-, -, heq⟩ := conclude_cases s.ip (placed r s n) (advance n s)
    · rw [heq]
      exact .record (placed r s n) hdecoded rfl hlen hin hfits
    · rw [heq]
      exact .failed n .bufferExhausted (.inr rfl) (.inr hin)

theorem step_outcome {s t : State} (hready : Ready s) (h : step s = .next t) : StepOutcome s t := by
  by_cases hsentinel : AtSentinel s
  · cases (step_of_sentinel hready hsentinel).symm.trans h
    exact .sentinel hsentinel
  · cases (step_of_not_sentinel hready hsentinel).symm.trans h
    exact conclude_stepOutcome s

/-- Settles O48: the step is the pseudocode's (`step_eq_specStep`), whose last line on a raise is `trap`; that `trap` sets its
three fields and nothing else is its definition. -/
theorem trapEntryRecordsCauseAndAddress : Obligations.TrapEntryRecordsCauseAndAddress := by
  refine ⟨fun s u k hready hraise => ?_, fun k ip0 u => ⟨rfl, rfl, rfl, rfl, rfl⟩⟩
  rw [step_eq_specStep hready, specStep, hraise]
  rfl

/-- Settles O45: of what a step can do (`step_outcome`), only the case of a record adds to `emitted`, and it holds the answer
of `DecodeOne` and the line that fits. -/
theorem recordOnlyWhenDecodedAndTraced : Obligations.RecordOnlyWhenDecodedAndTraced := by
  intro s t h
  obtain ⟨-, rfl⟩ | ⟨hready, -⟩ := step_cases h
  · exact .inl rfl
  · cases step_outcome hready h with
    | sentinel | failed | unrecognized => exact .inl rfl
    | record r hdecoded _ _ _ hfits =>
      exact .inr ⟨r, _, hdecoded, rfl, rfl, rfl, fun htrace =>
        ⟨hfits htrace, by rw [retired_cur, if_pos htrace], by rw [retired_out, if_pos htrace]⟩⟩

end Sys2Proof.Machine
end

section
/-! `BUFFER_EXHAUSTED` (R253): an instruction of any format whose line does not fit is consumed and leaves nothing. -/

namespace Sys2Proof.Machine

/-- `retire_exhausted` for an instruction of `n` bytes whose line is that of `r'`. -/
theorem retire_noRoom {ns : List Nat} {r r' : DecodedInstr} {n : Nat} {s : State} (hsum : ns.sum = n)
    (hline : line r = line r') (hin : s.ip + n ≤ s.cfg.memSize) (htrace : s.cfg.trace = true)
    (hroom : s.cfg.outCap - s.cur < (line r').length) : retire ns r s = .next (failedAt s n .bufferExhausted) := by
  subst hsum
  exact retire_exhausted hin htrace (by rwa [line_placed, hline])

/-- Only an append raises `BUFFER_EXHAUSTED`, and only the trace stage appends (R220, R253). -/
theorem trace_of_bufferExhausted {i : Instr} {s t : State} (h : exec i s = .next t) (herr : t.err = .bufferExhausted) :
    s.err = .bufferExhausted ∨ s.cfg.trace = true := by
  obtain ⟨ns, r, hretire⟩ | rfl | ⟨b0, rfl⟩ := exec_eq_retire i
  · rw [hretire] at h
    obtain ⟨-, -, heq⟩ | ⟨-, htrace, -, -⟩ | ⟨k, -, -, heq⟩ := retire_cases ns r s
    · cases heq.symm.trans h
      exact .inl herr
    · exact .inr htrace
    · cases heq.symm.trans h
      cases herr
  · obtain ⟨-, heq⟩ | ⟨-, heq⟩ := exec_sentinel_cases s
    · cases heq.symm.trans h
      exact .inl herr
    · cases heq.symm.trans h
      cases herr
  · obtain ⟨-, heq⟩ | ⟨-, heq⟩ := exec_unrecognized_cases b0 s
    all_goals
      cases heq.symm.trans h
      cases herr

/-- Settles O31: in every format the instruction is `retire` of its record, which the bytes fit and the line does not
(`retire_noRoom`); the last clause is `trace_of_bufferExhausted`. -/
theorem noRoomNoRecord : Obligations.NoRoomNoRecord := by
  refine ⟨fun c hc d w mod reg rm disp s hin htrace hroom => ?_, fun op sx w mod rm disp imm s hin htrace hroom => ?_,
    fun op w imm s hin htrace hroom => ?_, fun w reg imm s hin htrace hroom => ?_, fun c hc s hin htrace hroom => ?_,
    fun _ _ _ => trace_of_bufferExhausted⟩
  · obtain ⟨opc, hexec⟩ := exec_stdInstructions c hc d w mod reg rm disp
    rw [hexec]
    exact retire_noRoom (by simp [Disp.fetches_sum, ← Nat.add_assoc]) rfl (by omega) htrace hroom
  · rw [exec_aluRmImm]
    exact retire_noRoom (by simp [Disp.fetches_sum, Imm.fetches_sum, ← Nat.add_assoc]) rfl (by omega) htrace hroom
  · rw [exec_aluAccImm]
    exact retire_noRoom (by simp [Imm.fetches_sum]) rfl (by omega) htrace hroom
  · exact retire_noRoom (by simp [Imm.fetches_sum]) rfl (by omega) htrace hroom
  · rw [exec_noOperandInstructions c hc]
    exact retire_noRoom rfl rfl hin htrace hroom

end Sys2Proof.Machine
end

section
/-! What a step does not read (R269, R272): a change of the state that touches only such fields passes through a step. -/

namespace Sys2Proof.Machine

/-- `F` changes nothing that a step reads, and it commutes with every update a step makes. -/
structure Unobserved (F : State → State) : Prop where
  cfg : ∀ s, (F s).cfg = s.cfg
  ip : ∀ s, (F s).ip = s.ip
  loop : ∀ s, (F s).loop = s.loop
  cur : ∀ s, (F s).cur = s.cur
  mem : ∀ s, (F s).mem = s.mem
  advance : ∀ n s, advance n (F s) = F (advance n s)
  done : ∀ s, { F s with loop := .done } = F { s with loop := .done }
  retired : ∀ n r s, retired (F s) n r = F (retired s n r)
  trap : ∀ k a s, trap k a (F s) = F (trap k a s)
  logEvent : ∀ a b s, logEvent a b (F s) = F (logEvent a b s)

/-- The map `F` on the state an operation leaves. -/
def Attempt.mapState {α : Type} (F : State → State) : Attempt α → Attempt α
  | .ok a s => .ok a (F s)
  | .raised k s => .raised k (F s)

/-- The map `F` on the next state of a step. -/
def mapNext (F : State → State) : Result → Result
  | .next s => .next (F s)
  | .fault r => .fault r
  | .refused r => .refused r

section
variable {F : State → State} (hF : Unobserved F)
include hF

theorem Unobserved.window_map (s : State) : window (F s) = window s := by
  rw [window, window, hF.mem, hF.ip, hF.cfg]

theorem Unobserved.consume_map (ns : List Nat) : ∀ s, consume ns (F s) = (consume ns s).mapState F := by
  induction ns with
  | nil => exact fun _ => rfl
  | cons n ns ih =>
    intro s
    rw [consume, consume]
    by_cases h : s.cfg.memSize < s.ip + n
    · rw [fetch_out h, fetch_out (by rwa [hF.cfg, hF.ip])]
      rfl
    · rw [fetch_in (Nat.le_of_not_lt h), fetch_in (by rw [hF.cfg, hF.ip]; omega)]
      exact (congrArg (consume ns) (hF.advance n s)).trans (ih _)

theorem Unobserved.conclude_map (a : Nat) (x : Attempt DecodedInstr) :
    conclude a (x.mapState F) = F (conclude a x) := by
  cases x with
  | raised k s => exact hF.trap k a s
  | ok r s =>
    rw [Attempt.mapState]
    obtain ⟨hfits, heq⟩ | ⟨htrace, hroom, heq⟩ := conclude_cases a r s
    · rw [heq, conclude_fits (by rwa [LineFits, hF.cfg, hF.cur])]
      exact hF.retired 0 r s
    · rw [heq, conclude_exhausted (by rwa [hF.cfg]) (by rwa [hF.cfg, hF.cur])]
      exact hF.trap .bufferExhausted a s

theorem Unobserved.retire_map (ns : List Nat) (r : DecodedInstr) (s : State) :
    retire ns r (F s) = mapNext F (retire ns r s) := by
  rw [retire, retire, mapNext, hF.consume_map, hF.ip, ← hF.conclude_map]
  cases consume ns s with
  | raised k t => rfl
  | ok _ t => rw [Attempt.mapState, Attempt.bind_ok, Attempt.bind_ok, hF.ip]; rfl

theorem Unobserved.exec_map (i : Instr) (s : State) : exec i (F s) = mapNext F (exec i s) := by
  obtain ⟨ns, r, hretire⟩ | rfl | ⟨b0, rfl⟩ := exec_eq_retire i
  · rw [hretire, hretire, hF.retire_map]
  · rw [exec, exec, execSentinel, execSentinel, mapNext, hF.consume_map, hF.ip]
    cases consume [1] s with
    | raised k t => exact congrArg _ (hF.trap k s.ip t)
    | ok _ t => exact congrArg _ (hF.done t)
  · rw [exec, exec, execUnrecognized, execUnrecognized, mapNext, hF.consume_map, hF.ip, ← hF.conclude_map]
    cases consume [1] s with
    | raised k t => rfl
    | ok _ t => rw [Attempt.mapState, Attempt.bind_ok, Attempt.bind_ok, hF.logEvent]; rfl

theorem Unobserved.step_map (s : State) : step (F s) = mapNext F (step s) := by
  by_cases hready : Ready s
  · have hready' : Ready (F s) := by rwa [Ready, hF.cfg, hF.loop]
    cases hdecode : decode (window s) with
    | ok i rest =>
      have hdecode' : decode (window (F s)) = .ok i rest := by rwa [hF.window_map]
      rw [step_eq_exec_of_decode hready hdecode, step_eq_exec_of_decode hready' hdecode', hF.exec_map]
    | truncated n =>
      have hdecode' : decode (window (F s)) = .truncated n := by rwa [hF.window_map]
      rw [step_of_truncated hready hdecode, step_of_truncated hready' hdecode', hF.ip, hF.advance, hF.trap, mapNext]
  · have hready' : ¬ Ready (F s) := by rwa [Ready, hF.cfg, hF.loop]
    rw [step_of_not_ready hready, step_of_not_ready hready', hF.cfg]
    split <;> rfl

end

/-- The register file and the stack region replaced (R17, R19, R20, R22). -/
def withRegisterFile (x : Regs) (g : SegRegs) (f : Word) (k : Memory) (s : State) : State :=
  { s with regs := x, segs := g, flags := f, stack := k }

theorem unobserved_withRegisterFile (x : Regs) (g : SegRegs) (f : Word) (k : Memory) :
    Unobserved (withRegisterFile x g f k) where
  cfg _ := rfl
  ip _ := rfl
  loop _ := rfl
  cur _ := rfl
  mem _ := rfl
  advance _ _ := rfl
  done _ := rfl
  retired _ _ _ := rfl
  trap _ _ _ := rfl
  logEvent _ _ _ := rfl

/-- Events put in front of the log. -/
def prependLog (l : List (Nat × Byte)) (s : State) : State := { s with log := l ++ s.log }

theorem unobserved_prependLog (l : List (Nat × Byte)) : Unobserved (prependLog l) where
  cfg _ := rfl
  ip _ := rfl
  loop _ := rfl
  cur _ := rfl
  mem _ := rfl
  advance _ _ := rfl
  done _ := rfl
  retired _ _ _ := rfl
  trap _ _ _ := rfl
  logEvent a b s := by simp [prependLog, logEvent]

/-- A step reads and changes no flag: replacing the register file by itself changes nothing, before and after it. -/
theorem exec_flags {i : Instr} {s t : State} (h : exec i s = .next t) : t.flags = s.flags := by
  have hmap := (unobserved_withRegisterFile s.regs s.segs s.flags s.stack).exec_map i s
  rw [h] at hmap
  have hsame : t = withRegisterFile s.regs s.segs s.flags s.stack t := Host.Outcome.next.inj (h.symm.trans hmap)
  have hflags := congrArg State.flags hsame
  exact hflags

/-- Settles O57: the replaced register file is unobserved, so it passes through the step; flags by `exec_flags`; `Init` clears
them all. -/
theorem registerFileDoesNotInfluence : Obligations.RegisterFileDoesNotInfluence := by
  refine ⟨fun s t x g f k h => ?_, fun _ _ _ => exec_flags, fun s f => by simp [flagSet]⟩
  exact ((unobserved_withRegisterFile x g f k).step_map s).trans (congrArg _ h)

theorem exists_of_mapNext_eq_next {F : State → State} {x : Result} {t : State} (h : mapNext F x = .next t) :
    ∃ u, x = .next u ∧ F u = t := by
  cases x with
  | next u => exact ⟨u, rfl, Host.Outcome.next.inj h⟩
  | fault | refused => cases h

/-- The step from the empty log decides the step from every log. -/
theorem step_withLog (s : State) (l : List (Nat × Byte)) :
    step { s with log := l } = mapNext (prependLog l) (step { s with log := [] }) := by
  rw [← (unobserved_prependLog l).step_map, prependLog, List.append_nil]

/-- Settles O58: a step from `s` is the step from the empty log with the old events in front, whose own events are what is
appended, whatever the old log was. -/
theorem logIsWriteOnly : Obligations.LogIsWriteOnly := by
  intro s t h
  obtain ⟨t0, hstep, rfl⟩ := exists_of_mapNext_eq_next ((step_withLog s s.log).symm.trans h)
  exact ⟨t0.log, rfl, fun l => by rw [step_withLog, hstep]; rfl⟩

end Sys2Proof.Machine
end

section
/-! A session ends (R266): every step keeps the invariant of R32, every step that goes on consumes a byte, and the states of
the invariant where no step is taken are the two outcomes of a session. -/

namespace Sys2Proof.Machine

theorem tiles_append_singleton {r : DecodedInstr} (hlen : 1 ≤ r.len ∧ r.len ≤ 6) (rs : List DecodedInstr) :
    ∀ {a : Nat}, Tiles a rs r.addr → Tiles a (rs ++ [r]) (r.addr + r.len) := by
  induction rs with
  | nil => rintro a rfl; exact ⟨rfl, hlen.1, hlen.2, rfl⟩
  | cons q rs ih =>
    rintro a ⟨haddr, hpos, hle, htiles⟩
    exact ⟨haddr, hpos, hle, ih htiles⟩

/-- A text that fits is appended to the text produced so far (R234). -/
theorem bytes_writeAll_append {m : Memory} {bound c : Nat} {u : List Byte} (hwf : m.wf bound = true)
    (hfits : c + u.length ≤ bound) : (m.writeAll c u).bytes 0 (c + u.length) = m.bytes 0 c ++ u := by
  rw [Memory.bytes_append, Nat.zero_add, Memory.bytes_writeAll u hwf hfits,
    Memory.bytes_congr c fun b _ hb => Memory.read_writeAll_outside u hwf hfits (.inl (by omega))]

/-- The invariant of a session in a state where a step is taken, with what its items say there. -/
structure RunningInv (s : State) : Prop where
  pointers : PointersInRange s
  running : s.loop.running = true
  err : s.err = .none
  errAddr : s.errAddr = 0
  tiles : Tiles s.cfg.programStart s.emitted s.ip
  text : TextIsLines s
  log : s.log = []
  registers : RegisterFileAtReset s
  buffers : BuffersCanonical s

theorem LoopState.ne_failed_of_running {l : LoopState} (h : l.running = true) : l ≠ .failed := by
  rintro rfl
  cases h

theorem SessionInv.runningInv {s : State} (h : SessionInv s) (hrunning : s.loop.running = true) : RunningInv s := by
  obtain ⟨hpointers, ⟨herr, -, herrAddr⟩, -, htile, htext, hlog, hregisters, hbuffers⟩ := h
  have hfailed : s.loop ≠ .failed := LoopState.ne_failed_of_running hrunning
  have herr : s.err = .none := herr.mpr hfailed
  have htiles : Tiles s.cfg.programStart s.emitted s.ip := by
    rw [EmittedTile] at htile
    cases hloop : s.loop with
    | fetching | continuing => rw [hloop] at htile; exact htile
    | done | failed => rw [hloop] at hrunning; cases hrunning
  have hlog : s.log = [] := by rw [hlog, herr]; rfl
  exact ⟨hpointers, hrunning, herr, herrAddr hfailed, htiles, htext, hlog, hregisters, hbuffers⟩

theorem RunningInv.ready {s : State} (h : RunningInv s) : Ready s := ⟨h.pointers.1, h.running⟩

theorem textIsLines_retired {s : State} {r : DecodedInstr} (h : TextIsLines s) (n : Nat)
    (hwf : s.out.wf s.cfg.outCap = true) (hcur : s.cur ≤ s.cfg.outCap) (hfits : LineFits s (line r).length) :
    TextIsLines (retired s n r) := by
  rw [TextIsLines, traceText] at h ⊢
  rw [retired_cfg, retired_out, retired_cur, retired_emitted]
  cases htrace : s.cfg.trace with
  | false => simpa [htrace] using h
  | true =>
    have hline : s.cur + (line r).length ≤ s.cfg.outCap := by
      have := hfits htrace
      omega
    rw [htrace, if_pos rfl] at h
    simp only [if_true, List.flatMap_append, List.flatMap_singleton]
    rw [bytes_writeAll_append hwf hline, h]

/-- An instruction that completes adds one tile and one line. -/
theorem RunningInv.sessionInv_retired {s : State} {r : DecodedInstr} (h : RunningInv s) (haddr : r.addr = s.ip)
    (hlen : 1 ≤ r.len ∧ r.len ≤ 6) (hin : s.ip + r.len ≤ s.cfg.memSize) (hfits : LineFits s (line r).length) :
    SessionInv (retired s r.len r) := by
  obtain ⟨⟨hvalid, hstart, -, hcur⟩, -, herr, herrAddr, htiles, htext, hlog, hregisters, hmem, hout, hstack⟩ := h
  obtain ⟨-, hcur', -, hout'⟩ := (appendsText_retired r.len hfits).frame hout hcur
  have htiles' : Tiles s.cfg.programStart (s.emitted ++ [r]) (s.ip + r.len) := by
    rw [← haddr] at htiles ⊢
    exact tiles_append_singleton hlen s.emitted htiles
  exact ⟨⟨hvalid, Nat.le_add_right_of_le hstart, hin, hcur'⟩, ⟨by simp [herr], by simp [herr], fun _ => herrAddr⟩,
    by simp [FreshWhileFetching], htiles', textIsLines_retired htext r.len hout hcur hfits,
    by simp [LogHoldsEvent, herr, hlog], hregisters, hmem, hout', hstack⟩

/-- The entry into `FAILED` with one of the codes 1 to 3, where the log is what the code asks for (R268). -/
theorem RunningInv.sessionInv_failedAt {s : State} {n : Nat} {k : ErrKind} {l : List (Nat × Byte)} (h : RunningInv s)
    (hin : n = 0 ∨ s.ip + n ≤ s.cfg.memSize) (hnone : k ≠ .none) (hmalformed : k ≠ .malformedAddressing)
    (hlog : l = if k = .unresolvedTag then [(s.ip, s.mem.read s.ip)] else []) :
    SessionInv (failedAt { s with log := l } n k) := by
  obtain ⟨⟨hvalid, hstart, hend, hcur⟩, -, -, -, htiles, htext, -, hregisters, hbuffers⟩ := h
  have hip : s.ip + n ≤ s.cfg.memSize := by omega
  exact ⟨⟨hvalid, Nat.le_add_right_of_le hstart, hip, hcur⟩, ⟨by simp [hnone], hmalformed, by simp⟩,
    by simp [FreshWhileFetching], ⟨htiles, Nat.le_add_right _ _⟩, htext, hlog, hregisters, hbuffers⟩

theorem RunningInv.sessionInv_done {s : State} (h : RunningInv s) (hsentinel : AtSentinel s) :
    SessionInv { advance 1 s with loop := .done } := by
  obtain ⟨⟨hvalid, hstart, -, hcur⟩, -, herr, herrAddr, htiles, htext, hlog, hregisters, hbuffers⟩ := h
  obtain ⟨hin, hbyte⟩ := hsentinel
  exact ⟨⟨hvalid, Nat.le_add_right_of_le hstart, hin, hcur⟩,
    ⟨by simp [advance, herr], by simp [advance, herr], fun _ => herrAddr⟩, by simp [FreshWhileFetching],
    ⟨s.ip, htiles, rfl, hbyte⟩, htext, by simp [LogHoldsEvent, advance, herr, hlog], hregisters, hbuffers⟩

theorem sessionInv_step {s t : State} (h : SessionInv s) (hstep : step s = .next t) : SessionInv t := by
  obtain ⟨-, rfl⟩ | ⟨hready, -⟩ := step_cases hstep
  · exact h
  · have hinv := h.runningInv hready.2
    cases step_outcome hready hstep with
    | sentinel hsentinel => exact hinv.sessionInv_done hsentinel
    | record r _ haddr hlen hin hfits => exact hinv.sessionInv_retired haddr hlen hin hfits
    | failed n k hk hin =>
      obtain rfl | rfl := hk
      · exact hinv.sessionInv_failedAt hin (by decide) (by decide) hinv.log
      · exact hinv.sessionInv_failedAt hin (by decide) (by decide) hinv.log
    | unrecognized hin =>
      refine hinv.sessionInv_failedAt (.inr hin) (by decide) (by decide) ?_
      rw [hinv.log]
      rfl

/-- A step after which the loop goes on has retired an instruction (R203). -/
theorem exists_retired_of_step_running {s t : State} (hready : Ready s) (h : step s = .next t)
    (hrunning : t.loop.running = true) : ∃ r, 1 ≤ r.len ∧ t = retired s r.len r := by
  cases step_outcome hready h with
  | sentinel | failed | unrecognized => cases hrunning
  | record r _ _ hlen => exact ⟨r, hlen.1, rfl⟩

theorem runFor_of_terminal {s : State} (h : s.loop.running = false) (n : Nat) : runFor n s = .next s := by
  cases n with
  | zero => rfl
  | succ n => rw [runFor, h]; rfl

theorem runFor_succ_of_step {s t : State} (hrunning : s.loop.running = true) (hstep : step s = .next t) (n : Nat) :
    runFor (n + 1) s = runFor n t := by
  rw [runFor, if_pos hrunning, hstep]

/-- `runFor` with more steps than bytes are left ends in a terminal state (R209): every step that goes on consumes one. -/
theorem runFor_reaches_terminal (n : Nat) : ∀ {s : State}, SessionInv s → s.cfg.memSize < s.ip + n →
    ∃ t, runFor n s = .next t ∧ SessionInv t ∧ t.loop.running = false := by
  induction n with
  | zero =>
    rintro s ⟨⟨-, -, hend, -⟩, -⟩ hbound
    omega
  | succ n ih =>
    intro s h hbound
    cases hrunning : s.loop.running with
    | false => exact ⟨s, runFor_of_terminal hrunning _, h, hrunning⟩
    | true =>
      have hready := (h.runningInv hrunning).ready
      have hstep := step_eq_specStep hready
      have hinv := sessionInv_step h hstep
      rw [runFor_succ_of_step hrunning hstep]
      cases hgoes : (specStep s).loop.running with
      | false => exact ⟨specStep s, runFor_of_terminal hgoes n, hinv, hgoes⟩
      | true =>
        obtain ⟨r, hlen, hretired⟩ := exists_retired_of_step_running hready hstep hgoes
        refine ih hinv ?_
        rw [hretired, retired_cfg, retired_ip]
        omega

theorem run_reaches_terminal {s : State} (h : SessionInv s) :
    ∃ t, run s = .next t ∧ SessionInv t ∧ t.loop.running = false := by
  have ⟨⟨_, hstart, _, _⟩, _⟩ := h
  exact runFor_reaches_terminal _ h (by omega)

theorem ErrKind.code_range {k : ErrKind} (hnone : k ≠ .none) (hmalformed : k ≠ .malformedAddressing) :
    1 ≤ k.code.toNat ∧ k.code.toNat ≤ 3 := by
  cases k with
  | none => exact absurd rfl hnone
  | malformedAddressing => exact absurd rfl hmalformed
  | outOfBounds | unresolvedTag | bufferExhausted => decide

theorem SessionInv.result_of_terminal {s : State} (h : SessionInv s) (hterminal : s.loop.running = false) :
    s.loop = .done ∧ s.err = .none ∨ s.loop = .failed ∧ 1 ≤ s.err.code.toNat ∧ s.err.code.toNat ≤ 3 := by
  obtain ⟨-, ⟨herr, hmalformed, -⟩, -⟩ := h
  cases hloop : s.loop with
  | fetching | continuing => rw [hloop] at hterminal; cases hterminal
  | done => exact .inl ⟨rfl, herr.mpr (by simp [hloop])⟩
  | failed => exact .inr ⟨rfl, ErrKind.code_range (fun hnone => herr.mp hnone hloop) hmalformed⟩

theorem sessionInv_init {s : State} (hvalid : s.cfg.Valid) (hmem : s.mem.wf s.cfg.memSize = true)
    (hout : s.out.wf s.cfg.outCap = true) : SessionInv (init s) := by
  have htext : TextIsLines (init s) := by
    rw [TextIsLines]
    cases (init s).cfg.trace <;> rfl
  have ⟨_, _, _, hstart⟩ := hvalid
  exact ⟨⟨hvalid, Nat.le_refl _, Nat.le_of_lt hstart, Nat.zero_le _⟩, ⟨by simp, by simp, fun _ => rfl⟩,
    fun _ => ⟨rfl, rfl, rfl⟩, rfl, htext, rfl, ⟨rfl, rfl, rfl, rfl⟩, hmem, hout, rfl⟩

/-- Settles O56: `run` has one step more than bytes are left, so it reaches a terminal state of the invariant
(`run_reaches_terminal`), and there `err` is what R32 says; `Init` starts in the invariant. -/
theorem runReachesTerminalState : Obligations.RunReachesTerminalState := by
  refine ⟨fun s h => ?_, fun s hvalid hmem hout => ?_⟩
  · obtain ⟨t, hrun, hinv, hterminal⟩ := run_reaches_terminal h
    exact ⟨t, hrun, hinv, hinv.result_of_terminal hterminal, decide_eq_true_iff⟩
  · obtain ⟨t, hrun, hinv, hterminal⟩ := run_reaches_terminal (sessionInv_init hvalid hmem hout)
    exact ⟨t, hrun, hinv.result_of_terminal hterminal⟩

end Sys2Proof.Machine
end

section
/-! The families of instructions (R62, R63): every instruction belongs to one, and what its encoding and its check are is
said once for each family. -/

namespace Sys2Proof

open Sys2Proof.Machine

/-- An instruction by its family: the operation of an arithmetic instruction is a parameter of the family. -/
inductive Instr.Family : Instr → Prop
  | aluRmReg (op : AluOp) (d w : Bool) (mod : BitVec 2) (reg rm : BitVec 3) (disp : Disp) :
      Family (aluRmReg op d w mod reg rm disp)
  | movRmReg (d w : Bool) (mod : BitVec 2) (reg rm : BitVec 3) (disp : Disp) : Family (.movRmReg d w mod reg rm disp)
  | accImm (op : AluOp) (w : Bool) (imm : Imm) : Family (aluAccImm op w imm)
  | rmImm (op : AluOp) (s w : Bool) (mod : BitVec 2) (rm : BitVec 3) (disp : Disp) (imm : Imm) :
      Family (aluRmImm op s w mod rm disp imm)
  | movRegImm (w : Bool) (reg : BitVec 3) (imm : Imm) : Family (.movRegImm w reg imm)
  | noOperand (c : Instr × Tag × Byte) (hc : c ∈ noOperandInstructions) : Family c.1
  | sentinel : Family .sentinel
  | unrecognized (b0 : Byte) : Family (.unrecognized b0)

theorem Instr.family (i : Instr) : i.Family := by
  cases i with
  | addRmReg => exact .aluRmReg .add ..
  | orRmReg => exact .aluRmReg .or ..
  | adcRmReg => exact .aluRmReg .adc ..
  | sbbRmReg => exact .aluRmReg .sbb ..
  | andRmReg => exact .aluRmReg .and ..
  | subRmReg => exact .aluRmReg .sub ..
  | xorRmReg => exact .aluRmReg .xor ..
  | cmpRmReg => exact .aluRmReg .cmp ..
  | movRmReg => exact .movRmReg ..
  | addAccImm => exact .accImm .add ..
  | orAccImm => exact .accImm .or ..
  | adcAccImm => exact .accImm .adc ..
  | sbbAccImm => exact .accImm .sbb ..
  | andAccImm => exact .accImm .and ..
  | subAccImm => exact .accImm .sub ..
  | xorAccImm => exact .accImm .xor ..
  | cmpAccImm => exact .accImm .cmp ..
  | addRmImm => exact .rmImm .add ..
  | orRmImm => exact .rmImm .or ..
  | adcRmImm => exact .rmImm .adc ..
  | sbbRmImm => exact .rmImm .sbb ..
  | andRmImm => exact .rmImm .and ..
  | subRmImm => exact .rmImm .sub ..
  | xorRmImm => exact .rmImm .xor ..
  | cmpRmImm => exact .rmImm .cmp ..
  | movRegImm => exact .movRegImm ..
  | nop => exact .noOperand (.nop, .nop, 0x90) (by decide)
  | hlt => exact .noOperand (.hlt, .hlt, 0xF4) (by decide)
  | cmc => exact .noOperand (.cmc, .cmc, 0xF5) (by decide)
  | clc => exact .noOperand (.clc, .clc, 0xF8) (by decide)
  | stc => exact .noOperand (.stc, .stc, 0xF9) (by decide)
  | cli => exact .noOperand (.cli, .cli, 0xFA) (by decide)
  | sti => exact .noOperand (.sti, .sti, 0xFB) (by decide)
  | cld => exact .noOperand (.cld, .cld, 0xFC) (by decide)
  | std => exact .noOperand (.std, .std, 0xFD) (by decide)
  | sentinel => exact .sentinel
  | unrecognized b0 => exact .unrecognized b0

@[simp] theorem encode_aluRmReg (op : AluOp) (d w : Bool) (mod : BitVec 2) (reg rm : BitVec 3) (disp : Disp) :
    encode (aluRmReg op d w mod reg rm disp) = encodeStd (aluStdOpcode op d w) mod reg rm disp := by cases op <;> rfl

@[simp] theorem encode_aluAccImm (op : AluOp) (w : Bool) (imm : Imm) :
    encode (aluAccImm op w imm) = accImmOpcode op w :: imm.encoded := by cases op <;> rfl

@[simp] theorem encode_aluRmImm (op : AluOp) (s w : Bool) (mod : BitVec 2) (rm : BitVec 3) (disp : Disp) (imm : Imm) :
    encode (aluRmImm op s w mod rm disp imm) = encodeRmImm op s w mod rm disp imm := by cases op <;> rfl

theorem encode_noOperand : ∀ c ∈ noOperandInstructions, encode c.1 = [c.2.2] := by decide

@[simp] theorem wellFormed_aluRmReg (op : AluOp) (d w : Bool) (mod : BitVec 2) (reg rm : BitVec 3) (disp : Disp) :
    (aluRmReg op d w mod reg rm disp).wellFormed = dispFits mod rm disp := by cases op <;> rfl

@[simp] theorem wellFormed_aluAccImm (op : AluOp) (w : Bool) (imm : Imm) :
    (aluAccImm op w imm).wellFormed = immFits w imm := by cases op <;> rfl

@[simp] theorem wellFormed_aluRmImm (op : AluOp) (s w : Bool) (mod : BitVec 2) (rm : BitVec 3) (disp : Disp)
    (imm : Imm) : (aluRmImm op s w mod rm disp imm).wellFormed = (dispFits mod rm disp && immFits (!s && w) imm) := by
  cases op <;> rfl

theorem wellFormed_noOperand : ∀ c ∈ noOperandInstructions, c.1.WellFormed := by decide

theorem resolve_noOperand : ∀ c ∈ noOperandInstructions, resolve c.2.2 0 = c.2.1 ∧ needsSecond c.2.2 = false := by decide

/-- The shadowed instruction is the `ADD` with d = 0 and w = 0 (30_encoding.md R77). -/
theorem Instr.shadowed_iff (i : Instr) :
    i.shadowed = true ↔ ∃ mod reg rm disp, i = .addRmReg false false mod reg rm disp := by
  cases i with
  | addRmReg d w mod reg rm disp => cases d <;> cases w <;> simp [shadowed]
  | _ => simp [shadowed]

/-- An instruction has 1 to 6 bytes (R60, R61). -/
theorem encode_length (i : Instr) : 1 ≤ (encode i).length ∧ (encode i).length ≤ 6 := by
  cases i.family with
  | aluRmReg => rw [encode_aluRmReg]; exact encodeStd_length ..
  | movRmReg => exact Laws.Length.movRmReg ..
  | accImm => rw [encode_aluAccImm]; exact withImm_length ..
  | rmImm => rw [encode_aluRmImm]; exact encodeRmImm_length ..
  | movRegImm => exact Laws.Length.movRegImm ..
  | noOperand c hc => simp [encode_noOperand c hc]
  | sentinel => exact Laws.Length.sentinel
  | unrecognized b0 => exact Laws.Length.unrecognized b0

end Sys2Proof
end

section
/-! The stand-alone decoder reads what the encoder writes (R62, R77): one lemma per format, put together by family. -/

namespace Sys2Proof

theorem decodeStd_encoded (mk : Bool → Bool → BitVec 2 → BitVec 3 → BitVec 3 → Disp → Instr) (b0 : Byte)
    {mod : BitVec 2} (reg : BitVec 3) {rm : BitVec 3} {disp : Disp} (h : dispFits mod rm disp = true) (rest : List Byte) :
    decodeStd mk b0 (modRmByte mod reg rm :: (disp.encoded ++ rest)) =
      .ok (mk (b0.getLsbD 1) (b0.getLsbD 0) mod reg rm disp) rest := by
  have hsize : disp.size = (parseMode mod rm).2 := of_decide_eq_true h
  simp only [decodeStd, split_modRmByte, ← hsize, takeDisp_encoded]

theorem decodeRmImm_encoded (op : AluOp) {s w : Bool} {mod : BitVec 2} (reg : BitVec 3) {rm : BitVec 3} {disp : Disp}
    {imm : Imm} (hdisp : dispFits mod rm disp = true) (himm : immFits (!s && w) imm = true) (rest : List Byte) :
    decodeRmImm op (rmImmOpcode s w) (modRmByte mod reg rm) (disp.encoded ++ (imm.encoded ++ rest)) =
      .ok (aluRmImm op s w mod rm disp imm) rest := by
  have hsize : disp.size = (parseMode mod rm).2 := of_decide_eq_true hdisp
  simp only [decodeRmImm, split_modRmByte, ← hsize, takeDisp_encoded, rmImmOpcode_s, rmImmOpcode_w, takeImm_encoded himm]

theorem decodeOne_encode {i : Instr} (hwf : i.WellFormed) (hsentinel : i ≠ .sentinel) (rest : List Byte) :
    decodeOne (encode i ++ rest) = .ok i rest := by
  cases i.family with
  | aluRmReg op d w mod reg rm disp =>
    rw [Instr.WellFormed, wellFormed_aluRmReg] at hwf
    rw [encode_aluRmReg, encodeStd, List.cons_append, decodeOne,
      decodeRest_of_not_needsSecond (needsSecond_aluStdOpcode op d w), resolve_aluStdOpcode]
    exact (decodeStd_encoded _ _ reg hwf rest).trans (by rw [aluStdOpcode_d, aluStdOpcode_w])
  | movRmReg d w mod reg rm disp =>
    rw [encode, encodeStd, List.cons_append, decodeOne,
      decodeRest_of_not_needsSecond (needsSecond_movStdOpcode d w), resolve_movStdOpcode]
    exact (decodeStd_encoded _ _ reg hwf rest).trans (by rw [movStdOpcode_d, movStdOpcode_w])
  | accImm op w imm =>
    rw [Instr.WellFormed, wellFormed_aluAccImm] at hwf
    rw [encode_aluAccImm, List.cons_append, decodeOne,
      decodeRest_of_not_needsSecond (needsSecond_accImmOpcode op w), resolve_accImmOpcode]
    simp only [decodeTag, decodeAccImm, accImmOpcode_w, takeImm_encoded hwf]
  | rmImm op s w mod rm disp imm =>
    rw [Instr.WellFormed, wellFormed_aluRmImm, Bool.and_eq_true] at hwf
    rw [encode_aluRmImm, encodeRmImm, List.cons_append, List.cons_append, List.append_assoc, decodeOne,
      decodeRest_cons_of_needsSecond (needsSecond_rmImmOpcode s w), resolve_rmImmOpcode, subOpcode_modRmByte,
      AluOp.ofIndex_index]
    exact decodeRmImm_encoded op op.index hwf.1 hwf.2 rest
  | movRegImm w reg imm =>
    rw [encode, List.cons_append, decodeOne, decodeRest_of_not_needsSecond (needsSecond_regImmOpcode w reg),
      resolve_regImmOpcode]
    simp only [decodeTag, decodeRegImm, regImmOpcode_w, regImmOpcode_reg, takeImm_encoded (two := w) hwf]
  | noOperand c hc =>
    obtain ⟨htag, hneeds⟩ := resolve_noOperand c hc
    rw [encode_noOperand c hc, List.singleton_append, decodeOne, decodeRest_of_not_needsSecond hneeds, htag]
    exact Machine.decodeTag_noOperandInstructions c hc _ _ _
  | sentinel => exact absurd rfl hsentinel
  | unrecognized b0 =>
    have htag : resolve b0 0 = .unrecognized := of_decide_eq_true hwf
    rw [encode, List.singleton_append, decodeOne,
      decodeRest_of_not_needsSecond (not_needsSecond_of_resolve_unrecognized htag), htag, decodeTag]

/-- Settles O4: family by family, the handler of the resolved tag takes back the bytes that the encoder wrote. -/
theorem standaloneDecodeInvertsEncode : Obligations.StandaloneDecodeInvertsEncode :=
  fun _ rest hwf hsentinel => decodeOne_encode hwf hsentinel rest

end Sys2Proof
end

section
/-! What the decoder reads is the encoding of what it answers (R62, R63, R77): one lemma per format. The loop's decoder and
the encodings cut short follow from both directions. -/

namespace Sys2Proof

open Sys2Proof.Machine

theorem decodeStd_eq_ok {mk : Bool → Bool → BitVec 2 → BitVec 3 → BitVec 3 → Disp → Instr} {b0 : Byte}
    {bs rest : List Byte} {i : Instr} (h : decodeStd mk b0 bs = .ok i rest) :
    ∃ mod reg rm disp, i = mk (b0.getLsbD 1) (b0.getLsbD 0) mod reg rm disp ∧ dispFits mod rm disp = true ∧
      b0 :: bs = encodeStd b0 mod reg rm disp ++ rest := by
  cases bs with
  | nil => cases h
  | cons m bs =>
    rw [decodeStd] at h
    split at h
    · cases h
    · rename_i disp rest' htake
      cases h
      obtain ⟨hsize, rfl⟩ := takeDisp_some htake
      exact ⟨_, _, _, disp, rfl, decide_eq_true hsize, by rw [encodeStd, modRmByte_split]; rfl⟩

theorem decodeRmImm_eq_ok {op : AluOp} {sx w : Bool} {m : Byte} {bs rest : List Byte} {i : Instr}
    (hop : (split m).2.1 = op.index) (h : decodeRmImm op (rmImmOpcode sx w) m bs = .ok i rest) :
    rmImmOpcode sx w :: m :: bs = encode i ++ rest ∧ i.WellFormed := by
  rw [decodeRmImm, rmImmOpcode_s, rmImmOpcode_w] at h
  split at h
  · cases h
  · rename_i disp rest' htake
    split at h
    · cases h
    · rename_i imm rest'' htakeImm
      cases h
      obtain ⟨hsize, rfl⟩ := takeDisp_some htake
      obtain ⟨himm, rfl⟩ := takeImm_some htakeImm
      refine ⟨?_, ?_⟩
      · rw [encode_aluRmImm, encodeRmImm, ← hop, modRmByte_split]
        simp
      · rw [Instr.WellFormed, wellFormed_aluRmImm, himm, Bool.and_true]
        exact decide_eq_true hsize

theorem decodeAccImm_eq_ok {op : AluOp} {b0 : Byte} {bs rest : List Byte} {i : Instr}
    (hb0 : b0 = accImmOpcode op (b0.getLsbD 0)) (h : decodeAccImm op b0 bs = .ok i rest) :
    b0 :: bs = encode i ++ rest ∧ i.WellFormed := by
  rw [decodeAccImm] at h
  split at h
  · cases h
  · rename_i imm rest' htake
    cases h
    obtain ⟨himm, rfl⟩ := takeImm_some htake
    rw [encode_aluAccImm, ← hb0, Instr.WellFormed, wellFormed_aluAccImm]
    exact ⟨rfl, himm⟩

theorem decodeRegImm_eq_ok {b0 : Byte} {bs rest : List Byte} {i : Instr}
    (hb0 : b0 = regImmOpcode (b0.getLsbD 3) (b0.extractLsb' 0 3)) (h : decodeRegImm b0 bs = .ok i rest) :
    b0 :: bs = encode i ++ rest ∧ i.WellFormed := by
  rw [decodeRegImm] at h
  split at h
  · cases h
  · rename_i imm rest' htake
    cases h
    obtain ⟨himm, rfl⟩ := takeImm_some htake
    rw [encode, ← hb0]
    exact ⟨rfl, himm⟩

/-- The opcode bytes that need no second one, by the tag the resolver gives. -/
theorem decodeTag_eq_ok {b0 : Byte} {bs rest : List Byte} {i : Instr} (hneeds : needsSecond b0 = false)
    (h : decodeTag (resolve b0 0) b0 0 bs = .ok i rest) : b0 :: bs = encode i ++ rest ∧ i.WellFormed := by
  cases htag : resolve b0 0 with
  | rmReg op =>
    rw [htag] at h
    obtain ⟨mod, reg, rm, disp, rfl, hfits, hbytes⟩ := decodeStd_eq_ok h
    rw [encode_aluRmReg, ← eq_aluStdOpcode_of_resolve htag, Instr.WellFormed, wellFormed_aluRmReg]
    exact ⟨hbytes, hfits⟩
  | movRmReg =>
    rw [htag] at h
    obtain ⟨mod, reg, rm, disp, rfl, hfits, hbytes⟩ := decodeStd_eq_ok h
    rw [encode, ← eq_movStdOpcode_of_resolve htag]
    exact ⟨hbytes, hfits⟩
  | accImm op =>
    rw [htag] at h
    exact decodeAccImm_eq_ok (eq_accImmOpcode_of_resolve htag) h
  | movRegImm =>
    rw [htag] at h
    exact decodeRegImm_eq_ok (eq_regImmOpcode_of_resolve htag) h
  | rmImm op => exact absurd htag (resolve_ne_rmImm_of_not_needsSecond hneeds op)
  | unrecognized =>
    rw [htag] at h
    cases h
    exact ⟨rfl, decide_eq_true htag⟩
  | nop | hlt | cmc | clc | stc | cli | sti | cld | std =>
    have hformat : formatOf (resolve b0 0) = some .noOperand := by rw [htag]; rfl
    obtain ⟨c, hc, hb0, htag'⟩ := exists_noOperandInstruction hformat
    rw [htag', decodeTag_noOperandInstructions c hc] at h
    cases h
    rw [encode_noOperand c hc, hb0]
    exact ⟨rfl, wellFormed_noOperand c hc⟩

theorem decodeRest_eq_ok {b0 : Byte} {bs rest : List Byte} {i : Instr} (h : decodeRest b0 bs = .ok i rest) :
    b0 :: bs = encode i ++ rest ∧ i.WellFormed := by
  cases hneeds : needsSecond b0 with
  | false =>
    rw [decodeRest_of_not_needsSecond hneeds] at h
    exact decodeTag_eq_ok hneeds h
  | true =>
    obtain ⟨s, w, rfl⟩ := (needsSecond_iff_rmImmOpcode b0).mp hneeds
    cases bs with
    | nil => rw [decodeRest_nil_of_needsSecond hneeds] at h; cases h
    | cons m bs =>
      rw [decodeRest_cons_of_needsSecond hneeds, resolve_rmImmOpcode] at h
      exact decodeRmImm_eq_ok (AluOp.index_ofIndex _).symm h

/-- The byte 0x00 is the opcode byte of the shadowed `ADD` for the stand-alone decoder (R77, R214). -/
theorem shadowed_of_decodeOne_zero {bs rest : List Byte} {i : Instr} (h : decodeOne (0 :: bs) = .ok i rest) :
    ∃ mod reg rm disp, i = .addRmReg false false mod reg rm disp := by
  have hstd : decodeStd (aluRmReg .add) 0 bs = .ok i rest := h
  obtain ⟨mod, reg, rm, disp, rfl, -, -⟩ := decodeStd_eq_ok hstd
  exact ⟨mod, reg, rm, disp, rfl⟩

theorem decode_eq_decodeOne {b0 : Byte} (h : b0 ≠ 0) (rest : List Byte) :
    decode (b0 :: rest) = decodeOne (b0 :: rest) := by
  rw [decode, if_neg h, decodeOne]

/-- Settles O6: the loop's test is for the byte 0x00 alone, which the stand-alone decoder reads as the shadowed `ADD`. -/
theorem entriesDifferOnlyAtSentinel : Obligations.EntriesDifferOnlyAtSentinel :=
  ⟨fun _ rest h => decode_eq_decodeOne h rest, fun _ => rfl, fun _ _ _ h => shadowed_of_decodeOne_zero h⟩

/-- The loop's decoder reads what the encoder writes: it differs from the stand-alone one at the byte 0x00 only, which heads
no encoding but the sentinel's and the shadowed `ADD`'s. -/
theorem decode_encode {i : Instr} (hwf : i.WellFormed) (hshadowed : i.shadowed = false) (rest : List Byte) :
    decode (encode i ++ rest) = .ok i rest := by
  by_cases hsentinel : i = .sentinel
  · subst hsentinel; rfl
  · have hone := decodeOne_encode hwf hsentinel rest
    cases hbytes : encode i ++ rest with
    | nil => rw [hbytes] at hone; cases hone
    | cons b0 bs =>
      rw [hbytes] at hone
      have hb0 : b0 ≠ 0 := by
        rintro rfl
        have := (Instr.shadowed_iff i).mpr (shadowed_of_decodeOne_zero hone)
        rw [hshadowed] at this
        cases this
      rw [decode_eq_decodeOne hb0, hone]

/-- Settles O2: the stand-alone decoder reads the encoding, and the loop's test does not meet it (`decode_encode`). -/
theorem decodeInvertsEncode : Obligations.DecodeInvertsEncode :=
  fun _ rest hwf hshadowed => decode_encode hwf hshadowed rest

theorem decode_eq_ok {bs rest : List Byte} {i : Instr} (h : decode bs = .ok i rest) :
    bs = encode i ++ rest ∧ i.WellFormed ∧ i.shadowed = false := by
  cases bs with
  | nil => cases h
  | cons b0 bs =>
    by_cases hb0 : b0 = 0
    · subst hb0
      cases h
      exact ⟨rfl, rfl, rfl⟩
    · rw [decode_eq_decodeOne hb0] at h
      obtain ⟨hbytes, hwf⟩ := decodeRest_eq_ok h
      refine ⟨hbytes, hwf, Bool.eq_false_iff.mpr fun hshadowed => hb0 ?_⟩
      obtain ⟨mod, reg, rm, disp, rfl⟩ := (Instr.shadowed_iff i).mp hshadowed
      exact List.head_eq_of_cons_eq hbytes

/-- Settles O3: every handler answers an instruction whose encoding it has read (`decode_eq_ok`). -/
theorem encodeInvertsDecode : Obligations.EncodeInvertsDecode := fun _ _ _ => decode_eq_ok

/-! ### Sequences that end inside an instruction -/

theorem decodeStd_truncated_le {mk : Bool → Bool → BitVec 2 → BitVec 3 → BitVec 3 → Disp → Instr} {b0 : Byte}
    {bs : List Byte} {n : Nat} (h : decodeStd mk b0 bs = .truncated n) : n ≤ bs.length + 1 := by
  cases bs with
  | nil => cases h; simp
  | cons m bs =>
    rw [decodeStd] at h
    split at h
    · cases h; simp
    · cases h

theorem decodeRmImm_truncated_le {op : AluOp} {b0 m : Byte} {bs : List Byte} {n : Nat}
    (h : decodeRmImm op b0 m bs = .truncated n) : n ≤ bs.length + 2 := by
  rw [decodeRmImm] at h
  split at h
  · cases h; simp
  · rename_i disp rest htake
    split at h
    · cases h
      obtain ⟨-, rfl⟩ := takeDisp_some htake
      rw [List.length_append, Disp.encoded_length]
      omega
    · cases h

theorem decodeTag_truncated_le {tag : Tag} {b0 b1 : Byte} {bs : List Byte} {n : Nat} (htag : ∀ op, tag ≠ .rmImm op)
    (h : decodeTag tag b0 b1 bs = .truncated n) : n ≤ bs.length + 1 := by
  cases tag with
  | rmReg op => exact decodeStd_truncated_le h
  | movRmReg => exact decodeStd_truncated_le h
  | rmImm op => exact absurd rfl (htag op)
  | accImm op =>
    rw [decodeTag, decodeAccImm] at h
    split at h
    · cases h; omega
    · cases h
  | movRegImm =>
    rw [decodeTag, decodeRegImm] at h
    split at h
    · cases h; omega
    · cases h
  | nop | hlt | cmc | clc | stc | cli | sti | cld | std | unrecognized => cases h

/-- No more bytes are consumed than there are (R41, R133). -/
theorem decode_truncated_le {bs : List Byte} {n : Nat} (h : decode bs = .truncated n) : n ≤ bs.length := by
  cases bs with
  | nil => cases h; rfl
  | cons b0 bs =>
    rw [decode] at h
    split at h
    · cases h
    · cases hneeds : needsSecond b0 with
      | false =>
        rw [decodeRest_of_not_needsSecond hneeds] at h
        exact decodeTag_truncated_le (resolve_ne_rmImm_of_not_needsSecond hneeds) h
      | true =>
        cases bs with
        | nil => rw [decodeRest_nil_of_needsSecond hneeds] at h; cases h; rfl
        | cons m bs =>
          rw [decodeRest_cons_of_needsSecond hneeds, resolve_of_needsSecond hneeds] at h
          exact decodeRmImm_truncated_le h

/-- An encoding cut short is no encoding: what it decoded to would be what the whole decodes to. -/
theorem not_decode_take_ok {i j : Instr} {n : Nat} {rest : List Byte} (hwf : i.WellFormed) (hshadowed : i.shadowed = false)
    (hn : n < (encode i).length) : decode ((encode i).take n) ≠ .ok j rest := by
  intro h
  obtain ⟨hbytes, hwf', hshadowed'⟩ := decode_eq_ok h
  have hj := decode_encode hwf' hshadowed' (rest ++ (encode i).drop n)
  rw [← List.append_assoc, ← hbytes, List.take_append_drop] at hj
  have hi := decode_encode hwf hshadowed []
  rw [List.append_nil, hj] at hi
  obtain ⟨-, hdrop⟩ := List.append_eq_nil_iff.mp (DecodeResult.ok.inj hi).2
  have hlen := congrArg List.length hdrop
  rw [List.length_drop, List.length_nil] at hlen
  omega

/-- Settles O5: an encoding cut short does not decode (`not_decode_take_ok`), and no more is consumed than there is. -/
theorem properPrefixIsTruncated : Obligations.ProperPrefixIsTruncated := by
  intro i n hwf hshadowed hn
  cases h : decode ((encode i).take n) with
  | ok j rest => exact absurd h (not_decode_take_ok hwf hshadowed hn)
  | truncated k =>
    refine ⟨k, ?_, rfl⟩
    have := decode_truncated_le h
    rw [List.length_take] at this
    omega

/-- Settles O1: each word decodes by evaluation. -/
theorem knownWordsDecode : Obligations.KnownWordsDecode := by
  unfold Obligations.KnownWordsDecode
  decide

end Sys2Proof
end

section
/-! What a step depends on: the parameters, the instruction pointer, the loop state, the cursor and the bytes of the window.
Two states that agree in these decode alike and step alike (R33, R263, R286). -/

namespace Sys2Proof.Machine

/-- A state where any instruction of at most `n` bytes completes: room in the image, and no trace stage. -/
def roomy (n : Nat) : State :=
  { State.reset with cfg := { Config.atReset with memSize := n, trace := false }, ip := 0 }

theorem lineFits_roomy (n k : Nat) : LineFits (roomy n) k := fun h => Bool.noConfusion h

theorem retire_roomy {ns : List Nat} {n : Nat} (r : DecodedInstr) (h : ns.sum ≤ n) :
    retire ns r (roomy n) = .next (retired (roomy n) ns.sum (placed r (roomy n) ns.sum)) :=
  retire_completes (by rw [show (roomy n).ip = 0 from rfl, Nat.zero_add]; exact h) (lineFits_roomy n _)

/-- The meaning of an instruction decides its length and its record. -/
theorem retire_injective {ns ns' : List Nat} {r r' : DecodedInstr} (h : ∀ s, retire ns r s = retire ns' r' s) :
    ns.sum = ns'.sum ∧ ∀ s n, placed r s n = placed r' s n := by
  have heq := h (roomy (ns.sum + ns'.sum))
  rw [retire_roomy r (Nat.le_add_right _ _), retire_roomy r' (Nat.le_add_left _ _)] at heq
  have hnext := Host.Outcome.next.inj heq
  have hip := congrArg State.ip hnext
  have hemitted := congrArg State.emitted hnext
  rw [retired_ip, retired_ip] at hip
  rw [retired_emitted, retired_emitted] at hemitted
  have hrecord := List.singleton_inj.mp (List.append_cancel_left hemitted)
  refine ⟨Nat.add_left_cancel hip, fun s n => ?_⟩
  have hplaced := congrArg (placed · s n) hrecord
  exact hplaced

/-- An unrecognised byte has no record (R192). -/
theorem exec_unrecognized_ne_retire {b0 : Byte} {ns : List Nat} {r : DecodedInstr} :
    ¬ ∀ s, exec (.unrecognized b0) s = retire ns r s := by
  intro h
  have heq := h (roomy (1 + ns.sum))
  have hin : (roomy (1 + ns.sum)).ip + 1 ≤ (roomy (1 + ns.sum)).cfg.memSize := by
    show 0 + 1 ≤ 1 + ns.sum
    omega
  rw [exec_unrecognized b0 hin, retire_roomy r (Nat.le_add_left _ _)] at heq
  have hloop := congrArg State.loop (Host.Outcome.next.inj heq)
  cases hloop

/-- What `DecodeOne` answers at `s` and at `t` is the same, each in the state that its fetches left. -/
inductive DecodedAlike (s t : State) : Attempt DecodedInstr → Attempt DecodedInstr → Prop
  | record (r : DecodedInstr) (n : Nat) : DecodedAlike s t (.ok r (advance n s)) (.ok r (advance n t))
  | outOfBounds (n : Nat) : DecodedAlike s t (.raised .outOfBounds (advance n s)) (.raised .outOfBounds (advance n t))
  | unrecognized (b0 : Byte) : DecodedAlike s t (.raised .unresolvedTag (logEvent s.ip b0 (advance 1 s)))
      (.raised .unresolvedTag (logEvent s.ip b0 (advance 1 t)))

theorem specDecodeOne_alike {s t : State} (hip : t.ip = s.ip) (hwindow : window t = window s) :
    DecodedAlike s t (specDecodeOne s) (specDecodeOne t) := by
  have hs := decodeOne_decodedAs s
  have ht := decodeOne_decodedAs t
  rw [hwindow] at ht
  generalize decodeOne (window s) = d at hs ht
  generalize specDecodeOne s = x at hs ⊢
  generalize specDecodeOne t = y at ht ⊢
  cases hs with
  | truncated n =>
    cases ht with
    | truncated => exact .outOfBounds n
  | unrecognized rest =>
    generalize hi : Instr.unrecognized (s.mem.read s.ip) = i at ht
    cases ht with
    | unrecognized =>
      rw [← Instr.unrecognized.inj hi, hip]
      exact .unrecognized _
    | record _ _ ns r n _ hexec =>
      rw [← hi] at hexec
      exact absurd hexec exec_unrecognized_ne_retire
  | record i rest ns r n hsum hexec =>
    cases ht with
    | unrecognized => exact absurd hexec exec_unrecognized_ne_retire
    | record _ _ ns' r' n' hsum' hexec' =>
      obtain ⟨hlen, hrecord⟩ := retire_injective fun u => (hexec u).symm.trans (hexec' u)
      obtain rfl : n = n' := by omega
      rw [show placed r' t n = placed r s n by rw [← hrecord, placed, placed, hip]]
      exact .record _ n

/-- A record that `DecodeOne` gives at an address it gives there in every state with the same image. -/
theorem exists_specDecodeOne_of_image {s t : State} {r : DecodedInstr} {a : Nat} (hcfg : t.cfg = s.cfg)
    (hmem : t.mem = s.mem) (h : ∃ u, specDecodeOne { s with ip := a } = .ok r u) :
    ∃ u, specDecodeOne { t with ip := a } = .ok r u := by
  obtain ⟨u, hu⟩ := h
  have halike := specDecodeOne_alike (s := { s with ip := a }) (t := { t with ip := a }) rfl
    (by simp only [window, hcfg, hmem])
  rw [hu] at halike
  generalize specDecodeOne { t with ip := a } = y at halike ⊢
  cases halike with
  | record r n => exact ⟨_, rfl⟩

/-- A state with the same image keeps the records already emitted. -/
theorem RecordsFromImage.of_image {s t : State} (h : RecordsFromImage s) (hcfg : t.cfg = s.cfg) (hmem : t.mem = s.mem)
    (hemitted : t.emitted = s.emitted) : RecordsFromImage t := by
  intro r hr
  rw [hemitted] at hr
  exact exists_specDecodeOne_of_image hcfg hmem (h r hr)

theorem recordsFromImage_step {s t : State} (h : RecordsFromImage s) (hstep : step s = .next t) : RecordsFromImage t := by
  obtain ⟨-, rfl⟩ | ⟨hready, -⟩ := step_cases hstep
  · exact h
  · cases step_outcome hready hstep with
    | sentinel | failed | unrecognized => exact h.of_image rfl rfl rfl
    | record r hdecoded haddr =>
      intro q hq
      obtain hq | hq := List.mem_append.mp hq
      · exact exists_specDecodeOne_of_image (s := s) rfl rfl (h q hq)
      · rw [List.mem_singleton.mp hq]
        exact exists_specDecodeOne_of_image (s := s) rfl rfl ⟨_, by rw [haddr]; exact hdecoded⟩

/-- Settles O55: the image never changes, so the old records stay what the decoder gives, and the new one is its answer. -/
theorem stepKeepsRecordsFromImage : Obligations.StepKeepsRecordsFromImage := fun _ _ => recordsFromImage_step

/-- Settles O44: `step_eq_specStep`, from the agreement of the two decoders at every state. -/
theorem stepIsTheSpecsStep : Obligations.StepIsTheSpecsStep := fun _ => step_eq_specStep

/-- Settles O54: each outcome of a step keeps every item of the invariant (`sessionInv_step`). -/
theorem stepKeepsInvariant : Obligations.StepKeepsInvariant := fun _ _ => sessionInv_step

/-- All that a step reads is the same in `s` and `t`. -/
structure SameView (s t : State) : Prop where
  cfg : t.cfg = s.cfg
  ip : t.ip = s.ip
  loop : t.loop = s.loop
  cur : t.cur = s.cur
  window : window t = window s

theorem SameView.symm {s t : State} (h : SameView s t) : SameView t s :=
  ⟨h.cfg.symm, h.ip.symm, h.loop.symm, h.cur.symm, h.window.symm⟩

theorem SameView.ready {s t : State} (h : SameView s t) (hready : Ready s) : Ready t := by
  rwa [Ready, h.cfg, h.loop]

theorem SameView.atSentinel {s t : State} (h : SameView s t) (hsentinel : AtSentinel s) : AtSentinel t := by
  obtain ⟨hin, hbyte⟩ := hsentinel
  have hin' : t.ip + 1 ≤ t.cfg.memSize := by rwa [h.ip, h.cfg]
  have hwindow := h.window
  rw [window_eq_ahead, window_eq_ahead, ahead_succ hin, ahead_succ hin'] at hwindow
  exact ⟨hin', (List.head_eq_of_cons_eq hwindow).trans hbyte⟩

/-- The results of a step from `s` and from `t` are the same update of each. -/
inductive SameResult (s t : State) : Result → Result → Prop
  | refused (r : Refusal) : SameResult s t (.refused r) (.refused r)
  | unchanged : SameResult s t (.next s) (.next t)
  | sentinel : SameResult s t (.next { advance 1 s with loop := .done }) (.next { advance 1 t with loop := .done })
  | retired (n : Nat) (r : DecodedInstr) : SameResult s t (.next (retired s n r)) (.next (retired t n r))
  | failed (a n : Nat) (k : ErrKind) : SameResult s t (.next (trap k a (advance n s))) (.next (trap k a (advance n t)))
  | unrecognized (a : Nat) (b0 : Byte) :
      SameResult s t (.next (trap .unresolvedTag a (logEvent a b0 (advance 1 s))))
        (.next (trap .unresolvedTag a (logEvent a b0 (advance 1 t))))

/-- The loop's conclusion reads the parameters and the cursor only. -/
theorem SameView.conclude {s t : State} (h : SameView s t) {x y : Attempt DecodedInstr} (hxy : DecodedAlike s t x y) :
    SameResult s t (.next (conclude s.ip x)) (.next (conclude t.ip y)) := by
  rw [h.ip]
  cases hxy with
  | outOfBounds n => exact .failed s.ip n .outOfBounds
  | unrecognized b0 => exact .unrecognized s.ip b0
  | record r n =>
    obtain ⟨hfits, heq⟩ | ⟨htrace, hroom, heq⟩ := conclude_cases s.ip r (advance n s)
    · have hfits' : LineFits (advance n t) (line r).length := by
        show t.cfg.trace = true → (line r).length ≤ t.cfg.outCap - t.cur
        rw [h.cfg, h.cur]
        exact hfits
      rw [heq, conclude_fits hfits']
      exact .retired n r
    · rw [heq, conclude_exhausted (s := advance n t) (by rw [advance_cfg, h.cfg]; exact htrace)
        (by show t.cfg.outCap - t.cur < (line r).length; rw [h.cfg, h.cur]; exact hroom)]
      exact .failed s.ip n .bufferExhausted

theorem SameView.step {s t : State} (h : SameView s t) : SameResult s t (step s) (step t) := by
  by_cases hready : Ready s
  · by_cases hsentinel : AtSentinel s
    · rw [step_of_sentinel hready hsentinel, step_of_sentinel (h.ready hready) (h.atSentinel hsentinel)]
      exact .sentinel
    · rw [step_of_not_sentinel hready hsentinel,
        step_of_not_sentinel (h.ready hready) fun hc => hsentinel (h.symm.atSentinel hc)]
      exact h.conclude (specDecodeOne_alike h.ip h.window)
  · rw [step_of_not_ready hready, step_of_not_ready fun hc => hready (h.symm.ready hc), h.cfg]
    split
    · exact .unchanged
    · exact .refused _

/-- Settles O59: with the same bytes from the instruction pointer on the window is the same. -/
theorem onlyBytesAheadMatter : Obligations.OnlyBytesAheadMatter := by
  intro s t m hbytes hstep
  have hwindow : window { s with mem := m } = window s :=
    Memory.bytes_congr (a := s.ip) (min 6 (s.cfg.memSize - s.ip)) fun a ha ha' => hbytes a ha (by omega)
  have hresult := SameView.step (s := s) (t := { s with mem := m }) ⟨rfl, rfl, rfl, rfl, hwindow⟩
  rw [hstep] at hresult
  generalize step { s with mem := m } = y at hresult ⊢
  cases hresult <;> rfl

/-- Settles O60: the buffer is no part of the view. -/
theorem traceBufferIsNeverRead : Obligations.TraceBufferIsNeverRead := by
  intro s t o hstep
  have hresult := SameView.step (s := s) (t := { s with out := o }) ⟨rfl, rfl, rfl, rfl, rfl⟩
  rw [hstep] at hresult
  generalize step { s with out := o } = y at hresult ⊢
  cases hresult <;> exact ⟨_, rfl⟩

end Sys2Proof.Machine
end

section
/-! What the meaning of an instruction can do, said once (R160, R202): it retires with a record that has the length, the
opcode byte and the format of its encoding, it fails, or it is one of the two that end a session. -/

namespace Sys2Proof

/-- `DispBytes` (R61) is the size that `ParseMode` gives (R121). -/
theorem dispBytes_eq (m : Byte) : dispBytes m = (parseMode (split m).1 (split m).2.2).2.bytes := by
  revert m; decide

theorem dispBytes_modRmByte {mod : BitVec 2} (reg : BitVec 3) {rm : BitVec 3} {disp : Disp}
    (h : dispFits mod rm disp = true) : dispBytes (modRmByte mod reg rm) = disp.size.bytes := by
  rw [dispBytes_eq, split_modRmByte, of_decide_eq_true h]

theorem bytes_of_immFits {two : Bool} {imm : Imm} (h : immFits two imm = true) :
    imm.size.bytes = if two then 2 else 1 := by
  rw [of_decide_eq_true h]
  cases two <;> rfl

theorem rmImmOpcode_extract (s w : Bool) : (rmImmOpcode s w).extractLsb' 0 2 = 1 ↔ (!s && w) = true := by
  cases s <;> cases w <;> simp [rmImmOpcode]

end Sys2Proof

namespace Sys2Proof.Machine

/-- The meaning of `i` is to retire with the record `r`, whose length, opcode byte and format are those of the encoding. -/
structure RetiresAs (i : Instr) (r : DecodedInstr) (f : Format) : Prop where
  exec : ∃ ns : List Nat, ns.sum = (encode i).length ∧ ∀ s, exec i s = retire ns r s
  opcode : (encode i).head? = some r.opcode
  format : formatOf r.tag = some f
  length : i.WellFormed → (encode i).length = lengthOf f ((encode i).getD 1 0) r.opcode

theorem retiresAs_std {i : Instr} {tag : Tag} {opc : Byte} {d w : Bool} {mod : BitVec 2} {reg rm : BitVec 3} {disp : Disp}
    (hencode : encode i = encodeStd opc mod reg rm disp) (hwf : i.wellFormed = dispFits mod rm disp)
    (hformat : formatOf tag = some .std) (hexec : ∀ s, exec i s = retireStd tag opc d w mod reg rm disp s) :
    RetiresAs i (stdRecord tag opc d w mod reg rm disp) .std := by
  refine ⟨⟨_, ?_, hexec⟩, by rw [hencode]; rfl, hformat, fun h => ?_⟩
  · simp [hencode, encodeStd, Disp.fetches_sum, Disp.encoded_length]
    omega
  · rw [Instr.WellFormed, hwf] at h
    simp [hencode, encodeStd, lengthOf, dispBytes_modRmByte reg h, Disp.encoded_length]
    omega

theorem retiresAs_rmImm (op : AluOp) (s w : Bool) (mod : BitVec 2) (rm : BitVec 3) (disp : Disp) (imm : Imm) :
    RetiresAs (aluRmImm op s w mod rm disp imm) (rmImmRecord op s w mod rm disp imm) .rmImm := by
  refine ⟨⟨_, ?_, exec_aluRmImm op s w mod rm disp imm⟩, by rw [encode_aluRmImm]; rfl, rfl, fun h => ?_⟩
  · simp [encodeRmImm, Disp.fetches_sum, Imm.fetches_sum, Disp.encoded_length, Imm.encoded_length]
    omega
  · rw [Instr.WellFormed, wellFormed_aluRmImm, Bool.and_eq_true] at h
    obtain ⟨hdisp, himm⟩ := h
    have hbytes := bytes_of_immFits himm
    have hopcode : (rmImmRecord op s w mod rm disp imm).opcode = rmImmOpcode s w := rfl
    simp only [encode_aluRmImm, encodeRmImm, lengthOf, hopcode, rmImmOpcode_extract, List.getD_cons_succ,
      List.getD_cons_zero, dispBytes_modRmByte op.index hdisp, List.length_cons, List.length_append,
      Disp.encoded_length, Imm.encoded_length, hbytes]
    omega

theorem retiresAs_accImm (op : AluOp) (w : Bool) (imm : Imm) :
    RetiresAs (aluAccImm op w imm) (accImmRecord op w imm) .accImm := by
  refine ⟨⟨_, ?_, exec_aluAccImm op w imm⟩, by rw [encode_aluAccImm]; rfl, rfl, fun h => ?_⟩
  · simp [Imm.fetches_sum, Imm.encoded_length]
    omega
  · rw [Instr.WellFormed, wellFormed_aluAccImm] at h
    have hopcode : (accImmRecord op w imm).opcode = accImmOpcode op w := rfl
    rw [encode_aluAccImm, List.length_cons, Imm.encoded_length, bytes_of_immFits h, lengthOf, hopcode, accImmOpcode_w]
    omega

theorem retiresAs_regImm (w : Bool) (reg : BitVec 3) (imm : Imm) :
    RetiresAs (.movRegImm w reg imm) (regImmRecord w reg imm) .regImm := by
  refine ⟨⟨_, ?_, fun _ => rfl⟩, rfl, rfl, fun h => ?_⟩
  · simp [encode, Imm.fetches_sum, Imm.encoded_length]
    omega
  · have hbytes : imm.size.bytes = if w then 2 else 1 := bytes_of_immFits h
    have hopcode : (regImmRecord w reg imm).opcode = regImmOpcode w reg := rfl
    rw [encode, List.length_cons, Imm.encoded_length, hbytes, lengthOf, hopcode, regImmOpcode_w]
    omega

theorem formatOf_noOperand : ∀ c ∈ noOperandInstructions, formatOf c.2.1 = some .noOperand := by decide

theorem retiresAs_noOperand (c : Instr × Tag × Byte) (hc : c ∈ noOperandInstructions) :
    RetiresAs c.1 (noOperandRecord c.2.1 c.2.2) .noOperand := by
  have hencode := encode_noOperand c hc
  refine ⟨⟨_, ?_, exec_noOperandInstructions c hc⟩, by rw [hencode]; rfl, formatOf_noOperand c hc, fun _ => ?_⟩
  · rw [hencode]; rfl
  · rw [hencode]; rfl

theorem retiresAs_cases (i : Instr) : (∃ r f, RetiresAs i r f) ∨ i = .sentinel ∨ ∃ b0, i = .unrecognized b0 := by
  cases i.family with
  | aluRmReg op d w mod reg rm disp =>
    exact .inl ⟨_, _, retiresAs_std (encode_aluRmReg ..) (wellFormed_aluRmReg ..) rfl (exec_aluRmReg op d w mod reg rm disp)⟩
  | movRmReg => exact .inl ⟨_, _, retiresAs_std rfl rfl rfl fun _ => rfl⟩
  | accImm op w imm => exact .inl ⟨_, _, retiresAs_accImm op w imm⟩
  | rmImm op s w mod rm disp imm => exact .inl ⟨_, _, retiresAs_rmImm op s w mod rm disp imm⟩
  | movRegImm w reg imm => exact .inl ⟨_, _, retiresAs_regImm w reg imm⟩
  | noOperand c hc => exact .inl ⟨_, _, retiresAs_noOperand c hc⟩
  | sentinel => exact .inr (.inl rfl)
  | unrecognized b0 => exact .inr (.inr ⟨b0, rfl⟩)

/-- What the meaning of an instruction can do. -/
inductive ExecOutcome (i : Instr) (s : State) : State → Prop
  /-- It completes (R202). -/
  | retired (r : DecodedInstr) (f : Format) (h : RetiresAs i r f) (hfits : LineFits s (line r).length) :
      ExecOutcome i s (retired s (encode i).length (placed r s (encode i).length))
  /-- A fetch runs off the image after `n` bytes, or its line does not fit. -/
  | failed (n : Nat) (k : ErrKind) (hk : k = .outOfBounds ∨ k = .bufferExhausted) (hn : n ≤ (encode i).length) :
      ExecOutcome i s (failedAt s n k)
  /-- It is the unrecognised byte (R192). -/
  | unrecognized (b0 : Byte) (hi : i = .unrecognized b0) :
      ExecOutcome i s (failedAt (logEvent s.ip b0 s) 1 .unresolvedTag)
  /-- It is the sentinel (R206). -/
  | sentinel (hi : i = .sentinel) : ExecOutcome i s { advance 1 s with loop := .done }

theorem exec_outcome {i : Instr} {s t : State} (h : exec i s = .next t) : ExecOutcome i s t := by
  obtain ⟨r, f, hr⟩ | rfl | ⟨b0, rfl⟩ := retiresAs_cases i
  · obtain ⟨ns, hsum, hexec⟩ := hr.exec
    obtain ⟨-, hfits, heq⟩ | ⟨-, -, -, heq⟩ | ⟨k, hk, -, heq⟩ := retire_cases ns r s
    all_goals
      rw [hexec, heq] at h
      cases h
    · rw [hsum]
      exact .retired r f hr hfits
    · exact .failed _ _ (.inr rfl) hsum.le
    · exact .failed _ _ (.inl rfl) (hsum ▸ hk)
  · obtain ⟨-, heq⟩ | ⟨-, heq⟩ := exec_sentinel_cases s
    all_goals cases heq.symm.trans h
    · exact .sentinel rfl
    · exact .failed 0 _ (.inl rfl) (Nat.zero_le _)
  · obtain ⟨-, heq⟩ | ⟨-, heq⟩ := exec_unrecognized_cases b0 s
    all_goals cases heq.symm.trans h
    · exact .unrecognized b0 rfl
    · exact .failed 0 _ (.inl rfl) (Nat.zero_le _)

/-- Settles O32: no update of `ExecOutcome` touches the fields of the frame. -/
theorem instructionFrame : Obligations.InstructionFrame := by
  intro i s t h
  cases exec_outcome h with
  | retired => exact ⟨rfl, rfl, fun _ => rfl, rfl, rfl, rfl, rfl, Nat.le_add_right _ _, .inr ⟨_, rfl⟩, .inl rfl⟩
  | failed => exact ⟨rfl, rfl, fun _ => rfl, rfl, rfl, rfl, rfl, Nat.le_add_right _ _, .inl rfl, .inl rfl⟩
  | unrecognized b0 hi =>
    exact ⟨rfl, rfl, fun _ => rfl, rfl, rfl, rfl, rfl, Nat.le_add_right _ _, .inl rfl, .inr ⟨b0, hi, rfl⟩⟩
  | sentinel => exact ⟨rfl, rfl, fun _ => rfl, rfl, rfl, rfl, rfl, Nat.le_add_right _ _, .inl rfl, .inl rfl⟩

/-- An instruction that emits a record has retired with it. -/
theorem retired_of_emitted {i : Instr} {s t : State} {r : DecodedInstr} (h : exec i s = .next t)
    (hemitted : t.emitted = s.emitted ++ [r]) :
    ∃ r' f, RetiresAs i r' f ∧ r = placed r' s (encode i).length ∧ t = retired s (encode i).length r := by
  cases exec_outcome h with
  | retired r' f hr =>
    have hsame : placed r' s (encode i).length = r := List.singleton_inj.mp (List.append_cancel_left hemitted)
    exact ⟨r', f, hr, hsame.symm, by rw [hsame]⟩
  | failed | unrecognized | sentinel => exact absurd (List.self_eq_append_right.mp hemitted) (List.cons_ne_nil r [])

/-- Settles O34: the record is the one the instruction retires with, which `RetiresAs` ties to the encoding. -/
theorem recordLengthIsEncodedLength : Obligations.RecordLengthIsEncodedLength := by
  intro i s t r hwf h hemitted
  obtain ⟨r', f, hr, rfl, rfl⟩ := retired_of_emitted h hemitted
  exact ⟨rfl, rfl, rfl, hr.opcode, f, hr.format, hr.length hwf⟩

theorem exec_ip_range {i : Instr} {s t : State} (h : exec i s = .next t) :
    s.ip ≤ t.ip ∧ t.ip ≤ s.ip + (encode i).length := by
  have hpos := (encode_length i).1
  cases exec_outcome h with
  | retired => exact ⟨Nat.le_add_right _ _, Nat.le_refl _⟩
  | failed n k hk hn => exact ⟨Nat.le_add_right _ _, Nat.add_le_add_left hn _⟩
  | unrecognized | sentinel => exact ⟨Nat.le_add_right _ _, Nat.add_le_add_left hpos _⟩

theorem exec_err {i : Instr} {s t : State} (h : exec i s = .next t) (herr : t.err = .malformedAddressing) :
    s.err = .malformedAddressing := by
  cases exec_outcome h with
  | retired | sentinel => exact herr
  | failed n k hk => obtain rfl | rfl := hk <;> cases herr
  | unrecognized => cases herr

/-- Settles O52: an instruction raises none but the other three kinds (`exec_err`), and a step outside an instruction none but
`OUT_OF_BOUNDS`. -/
theorem malformedAddressingIsNeverRaised : Obligations.MalformedAddressingIsNeverRaised := by
  refine ⟨fun i s t => exec_err, fun s t h herr => ?_⟩
  obtain ⟨-, rfl⟩ | ⟨-, ⟨i, rest, -, hexec⟩ | ⟨n, -, rfl⟩⟩ := step_cases h
  · exact herr
  · exact exec_err hexec herr
  · cases herr

end Sys2Proof.Machine
end

section
/-! The step: which instruction it runs, how far the instruction pointer goes, how it ends and how it fails (R202, R203,
R208, R261). -/

namespace Sys2Proof.Machine

/-- Settles O42: the two branches of the loop on what the window decodes to. -/
theorem stepRunsDecodedInstruction : Obligations.StepRunsDecodedInstruction :=
  fun _ hready => ⟨fun _ _ => step_eq_exec_of_decode hready, fun _ => step_of_truncated hready⟩

theorem step_eq_exec_of_imageHolds {i : Instr} {s : State} (hready : Ready s) (hwf : i.WellFormed)
    (hshadowed : i.shadowed = false) (himage : ImageHolds s (encode i)) : step s = exec i s := by
  obtain ⟨rest, hwindow⟩ := exists_window_eq_append himage (encode_length i).2
  refine step_eq_exec_of_decode hready (rest := rest) ?_
  rw [hwindow, decode_encode hwf hshadowed]

/-- Settles O43: the encoding heads the window, and the decoder gives the instruction back. -/
theorem stepRunsInstructionAtPointer : Obligations.StepRunsInstructionAtPointer := fun _ _ => step_eq_exec_of_imageHolds

/-- Settles O47: a ready state takes the spec's step, a terminal one stays, and illegal parameters are refused. -/
theorem stepAnswersNextForLegalParameters : Obligations.StepAnswersNextForLegalParameters := by
  intro s
  refine ⟨fun hvalid => ?_, fun hinvalid => ?_⟩
  · by_cases hready : Ready s
    · exact ⟨_, step_eq_specStep hready⟩
    · exact ⟨s, by rw [step_of_not_ready hready, if_pos hvalid]⟩
  · rw [step_of_not_ready fun hready => hinvalid hready.1, if_neg hinvalid]

/-- Settles O46: a terminal state is not ready, and `Run` does not start there. -/
theorem terminalStatesAbsorb : Obligations.TerminalStatesAbsorb := by
  intro s hterminal
  have hrunning : s.loop.running = false := by
    obtain h | h := hterminal
    all_goals rw [h]; rfl
  refine ⟨fun hvalid => ?_, runFor_of_terminal hrunning _⟩
  rw [step_of_not_ready fun hready => Bool.false_ne_true (hrunning.symm.trans hready.2), if_pos hvalid]

theorem step_ip_range {s t : State} (h : step s = .next t) : s.ip ≤ t.ip ∧ t.ip ≤ s.ip + 6 := by
  obtain ⟨-, rfl⟩ | ⟨-, ⟨i, rest, -, hexec⟩ | ⟨n, hdecode, rfl⟩⟩ := step_cases h
  · exact ⟨Nat.le_refl _, Nat.le_add_right _ _⟩
  · have hrange := exec_ip_range hexec
    have hlen := (encode_length i).2
    omega
  · have hle := decode_truncated_le hdecode
    rw [window, Memory.bytes_length] at hle
    rw [failedAt_ip]
    omega

/-- Settles O53: a step that goes on has retired an instruction of 1 to 6 bytes inside the image; every other consumes
nothing or bytes of the image. -/
theorem stepMakesProgress : Obligations.StepMakesProgress := by
  intro s t hready hend hstep
  obtain ⟨hle, hle'⟩ := step_ip_range hstep
  cases step_outcome hready hstep with
  | sentinel h => exact ⟨hle, h.1, fun hrunning => Bool.noConfusion hrunning⟩
  | record r _ _ hlen hin => exact ⟨hle, hin, fun _ => ⟨Nat.add_le_add_left hlen.1 _, hle'⟩⟩
  | failed n k _ hin =>
    refine ⟨hle, ?_, fun hrunning => Bool.noConfusion hrunning⟩
    rw [failedAt_ip]
    omega
  | unrecognized hin => exact ⟨hle, hin, fun hrunning => Bool.noConfusion hrunning⟩

/-- Settles O51: the sentinel ends in `DONE`, and no other outcome of a step does. -/
theorem doneOnlyBySentinel : Obligations.DoneOnlyBySentinel := by
  intro s t hready hstep
  refine ⟨fun hdone => ?_, fun hsentinel => ?_⟩
  · cases step_outcome hready hstep with
    | sentinel h => exact h
    | record | failed | unrecognized => cases hdone
  · cases (step_of_sentinel hready hsentinel).symm.trans hstep
    rfl

/-- A step that ends in `FAILED` is one whose attempt raised. -/
theorem specAttempt_raised_of_failed {s t : State} (hready : Ready s) (hstep : step s = .next t) (hfailed : t.loop = .failed) :
    ∃ k u, specAttempt s = .raised k u ∧ t = trap k s.ip u := by
  rw [step_eq_specStep hready] at hstep
  cases hstep
  rw [specStep] at hfailed ⊢
  cases hattempt : specAttempt s with
  | raised k u => exact ⟨k, u, rfl, rfl⟩
  | ok r u => cases r <;> (rw [hattempt] at hfailed; cases hfailed)

/-- Settles O49: of the outcomes of a step two end in `FAILED`, both with the outputs as they were, and only the unrecognised
byte is logged; the pointer is where the raising attempt left it. -/
theorem failureIsPrecise : Obligations.FailureIsPrecise := by
  intro s t hready hstep hfailed
  obtain ⟨hle, hle'⟩ := step_ip_range hstep
  obtain ⟨k, u, hattempt, htrap⟩ := specAttempt_raised_of_failed hready hstep hfailed
  have hraise : ∃ k u, specAttempt s = .raised k u ∧ t.err = k ∧ t.ip = u.ip :=
    ⟨k, u, hattempt, by rw [htrap, trap_err], by rw [htrap, trap_ip]⟩
  cases step_outcome hready hstep with
  | sentinel | record => cases hfailed
  | failed n k hk =>
    obtain rfl | rfl := hk
    all_goals exact ⟨rfl, rfl, rfl, rfl, by simp, hle, hle', by simp, hraise⟩
  | unrecognized => exact ⟨rfl, rfl, rfl, rfl, by simp, hle, hle', by simp, hraise⟩

/-- Settles O23: the invariant is `sessionInv_init`; there is no record yet. -/
theorem initEstablishesInvariant : Obligations.InitEstablishesInvariant :=
  fun _ hvalid hmem hout => ⟨sessionInv_init hvalid hmem hout, fun _ hr => absurd hr List.not_mem_nil⟩

/-- Settles O22: the reset state is what `Init` makes of itself. -/
theorem resetSatisfiesInvariant : Obligations.ResetSatisfiesInvariant :=
  initEstablishesInvariant State.reset (by decide) rfl rfl

end Sys2Proof.Machine
end

section
/-! Numbers as text (R223): `Decimal` writes the base-ten digits of Mathlib's `Nat.digits`, most significant first. -/

namespace Sys2Proof.Machine

/-- The character of a base-ten digit. -/
def digitByte (d : Nat) : Byte := BitVec.ofNat 8 (0x30 + d)

theorem digitByte_toNat {d : Nat} (h : d < 10) : (digitByte d).toNat = 0x30 + d := by
  rw [digitByte, BitVec.toNat_ofNat]
  omega

theorem decimalLoop_eq_digits (fuel : Nat) : ∀ {n : Nat} (acc : List Byte), 0 < n → n ≤ fuel →
    decimalLoop fuel n acc = ((Nat.digits 10 n).map digitByte).reverse ++ acc := by
  induction fuel with
  | zero => intro n acc hpos hle; omega
  | succ fuel ih =>
    intro n acc hpos hle
    rw [decimalLoop, Nat.digits_def' (by decide) hpos]
    by_cases hlast : n / 10 = 0
    · rw [if_pos hlast, hlast]
      simp [digitByte]
    · rw [if_neg hlast, ih _ (Nat.pos_of_ne_zero hlast) (by omega)]
      simp [digitByte]

theorem decimal_zero : decimal 0 = [0x30] := by decide

theorem decimal_eq_digits {n : Nat} (h : 0 < n) : decimal n = ((Nat.digits 10 n).map digitByte).reverse := by
  rw [decimal, decimalLoop_eq_digits (n + 1) [] h (Nat.le_succ n), List.append_nil]

theorem exists_digit_of_mem_decimal {n : Nat} {b : Byte} (h : b ∈ decimal n) : ∃ d, d < 10 ∧ b = digitByte d := by
  obtain rfl | hpos := Nat.eq_zero_or_pos n
  · rw [decimal_zero, List.mem_singleton] at h
    exact ⟨0, by decide, h⟩
  · rw [decimal_eq_digits hpos, List.mem_reverse, List.mem_map] at h
    obtain ⟨d, hd, rfl⟩ := h
    exact ⟨d, Nat.digits_lt_base (by decide) hd, rfl⟩

theorem foldr_digitByte : ∀ {ds : List Nat}, (∀ d ∈ ds, d < 10) →
    ds.foldr (fun d acc => 10 * acc + ((digitByte d).toNat - 0x30)) 0 = Nat.ofDigits 10 ds
  | [], _ => rfl
  | d :: ds, h => by
    rw [List.foldr_cons, foldr_digitByte fun e he => h e (List.mem_cons_of_mem d he),
      digitByte_toNat (h d List.mem_cons_self), Nat.ofDigits_cons]
    omega

theorem decimal_value (n : Nat) : (decimal n).foldl (fun acc b => 10 * acc + (b.toNat - 0x30)) 0 = n := by
  obtain rfl | hpos := Nat.eq_zero_or_pos n
  · decide
  · rw [decimal_eq_digits hpos, List.foldl_reverse, List.foldr_map,
      foldr_digitByte fun _ => Nat.digits_lt_base (by decide), Nat.ofDigits_digits]

theorem head?_decimal_ne_zero {n : Nat} (h : 0 < n) : (decimal n).head? ≠ some 0x30 := by
  have hne : Nat.digits 10 n ≠ [] := Nat.digits_ne_nil_iff_ne_zero.mpr h.ne'
  have hlast := Nat.getLast_digit_ne_zero 10 h.ne'
  have hlt : (Nat.digits 10 n).getLast hne < 10 := Nat.digits_lt_base (by decide) (List.getLast_mem hne)
  rw [decimal_eq_digits h, List.head?_reverse, List.getLast?_map, List.getLast?_eq_some_getLast hne]
  intro hzero
  have htoNat := congrArg BitVec.toNat (Option.some.inj hzero)
  rw [digitByte_toNat hlt] at htoNat
  exact hlast (by simpa using htoNat)

theorem decimal_length {n : Nat} (h : n < 100000) : (decimal n).length ≤ 5 := by
  obtain rfl | hpos := Nat.eq_zero_or_pos n
  · decide
  · rw [decimal_eq_digits hpos, List.length_reverse, List.length_map]
    exact (Nat.digits_length_le_iff (by decide) n).mpr h

/-- Settles O35: `Decimal` writes `Nat.digits`, whose digits are below ten, have the number as their value and no zero at the
most significant place. -/
theorem decimalDenotesTheNumber : Obligations.DecimalDenotesTheNumber := by
  refine fun n => ⟨decimal_value n, fun b hb => ?_, head?_decimal_ne_zero, decimal_zero⟩
  obtain ⟨d, hd, rfl⟩ := exists_digit_of_mem_decimal hb
  rw [digitByte_toNat hd]
  omega

end Sys2Proof.Machine
end

section
/-! Lines (R221, R224, R236): every piece of text is printable and its length is bounded, and a line is such a text with one
newline at its end. -/

namespace Sys2Proof.Machine

/-- A text of `lo` to `hi` characters, each printable and of 7 bits (R221). -/
abbrev Printable (lo hi : Nat) (u : List Byte) : Prop :=
  (∀ b ∈ u, 0x20 ≤ b.toNat ∧ b.toNat < 0x7F) ∧ lo ≤ u.length ∧ u.length ≤ hi

theorem Printable.append {lo hi lo' hi' : Nat} {u v : List Byte} (hu : Printable lo hi u) (hv : Printable lo' hi' v) :
    Printable (lo + lo') (hi + hi') (u ++ v) := by
  obtain ⟨hchars, hlo, hhi⟩ := hu
  obtain ⟨hchars', hlo', hhi'⟩ := hv
  refine ⟨fun b hb => (List.mem_append.mp hb).elim (hchars b) (hchars' b), ?_⟩
  rw [List.length_append]
  omega

theorem Printable.mono {lo hi lo' hi' : Nat} {u : List Byte} (hu : Printable lo hi u) (hlo : lo' ≤ lo) (hhi : hi ≤ hi') :
    Printable lo' hi' u :=
  ⟨hu.1, hlo.trans hu.2.1, hu.2.2.trans hhi⟩

theorem printable_decimal {n : Nat} (h : n < 100000) : Printable 0 5 (decimal n) := by
  refine ⟨fun b hb => ?_, Nat.zero_le _, decimal_length h⟩
  obtain ⟨d, hd, rfl⟩ := exists_digit_of_mem_decimal hb
  rw [digitByte_toNat hd]
  omega

theorem printable_decimal_word (v : Word) : Printable 0 5 (decimal v.toNat) :=
  printable_decimal (by have := v.isLt; omega)

theorem printable_aluOp (op : AluOp) : Printable 2 3 (AluOp.text op) := by cases op <;> decide

theorem printable_mnemonic {tag : Tag} {mn : List Byte} (h : mnemonic tag = some mn) : Printable 2 3 mn := by
  cases tag with
  | rmReg op | accImm op | rmImm op => cases h; exact printable_aluOp op
  | movRmReg | movRegImm | nop | hlt | cmc | clc | stc | cli | sti | cld | std => cases h; decide
  | unrecognized => cases h

theorem exists_mnemonic_of_format {tag : Tag} {f : Format} (h : formatOf tag = some f) : ∃ mn, mnemonic tag = some mn := by
  cases tag with
  | unrecognized => cases h
  | _ => exact ⟨_, rfl⟩

/-- The single-byte instructions have names of three characters (R97). -/
theorem length_mnemonic_of_noOperand {tag : Tag} {mn : List Byte} (hformat : formatOf tag = some .noOperand)
    (h : mnemonic tag = some mn) : mn.length = 3 := by
  cases tag with
  | rmReg | accImm | rmImm | movRmReg | movRegImm | unrecognized => cases hformat
  | nop | hlt | cmc | clc | stc | cli | sti | cld | std => cases h; rfl

theorem printable_regName (id : BitVec 3) (w : Bool) : Printable 2 2 (regName id w) := by
  revert id w; decide

theorem printable_eaText (rm : BitVec 3) : Printable 2 7 (eaText rm) := by
  revert rm; decide

theorem signed16_range (v : Word) : -32768 ≤ signed16 v ∧ signed16 v < 32768 := by
  have hlt := v.isLt
  rw [signed16]
  split <;> omega

theorem printable_dispText (rm : BitVec 3) (disp : Word) : Printable 0 17 (dispText rm disp) := by
  obtain ⟨hlo, hhi⟩ := signed16_range disp
  have hopen : Printable 3 8 (ascii ['['] ++ eaText rm) := Printable.append (lo := 1) (hi := 1) (by decide) (printable_eaText rm)
  have hclose : Printable 1 1 (ascii [']']) := by decide
  rw [dispText]
  split
  · have hsign := hopen.append (show Printable 3 3 (ascii [' ', '+', ' ']) by decide)
    exact ((hsign.append (printable_decimal (by omega))).append hclose).mono (by decide) (by decide)
  · have hsign := hopen.append (show Printable 3 3 (ascii [' ', '-', ' ']) by decide)
    exact ((hsign.append (printable_decimal (by omega))).append hclose).mono (by decide) (by decide)

theorem printable_brackets {hi : Nat} {u : List Byte} (h : Printable 0 hi u) :
    Printable 0 (hi + 2) (ascii ['['] ++ u ++ ascii [']']) := by
  have hopen := Printable.append (show Printable 1 1 (ascii ['[']) by decide) h
  exact (hopen.append (show Printable 1 1 (ascii [']']) by decide)).mono (by omega) (by omega)

theorem printable_rmText (r : DecodedInstr) : Printable 0 17 (rmText r) := by
  rw [rmText]
  split
  · exact (printable_regName r.rm r.w).mono (by decide) (by decide)
  · exact (printable_brackets (printable_decimal_word r.disp)).mono (by decide) (by decide)
  · exact (printable_brackets ((printable_eaText r.rm).mono (by decide) (Nat.le_refl 7))).mono (by decide) (by decide)
  · exact printable_dispText r.rm r.disp
  · exact printable_dispText r.rm r.disp
  · decide

theorem printable_sizedRmText (r : DecodedInstr) : Printable 0 22 (sizedRmText r) := by
  have hrm := printable_rmText r
  rw [sizedRmText]
  split
  · exact hrm.mono (by decide) (by decide)
  · split
    · exact Printable.append (lo := 0) (hi := 5) (by decide) hrm
    · exact Printable.append (lo := 0) (hi := 5) (by decide) hrm

/-- A line without its newline has 3 to 33 characters. -/
def IsLine (t : List Byte) : Prop := ∃ u, t = u ++ [newline] ∧ Printable 3 33 u

theorem isLine_twoOperandLine {mn a b : List Byte} {m n : Nat} (hmn : Printable 2 3 mn) (ha : Printable 0 m a)
    (hb : Printable 0 n b) (hbound : m + n ≤ 27) : IsLine (twoOperandLine mn a b) := by
  have hspace := hmn.append (show Printable 1 1 (ascii [' ']) by decide)
  have hcomma := (hspace.append ha).append (show Printable 2 2 (ascii [',', ' ']) by decide)
  exact ⟨_, rfl, (hcomma.append hb).mono (by omega) (by omega)⟩

/-- Every record of a format prints as one line. -/
theorem isLine_line {r : DecodedInstr} {f : Format} (h : formatOf r.tag = some f) : IsLine (line r) := by
  obtain ⟨mn, hmn⟩ := exists_mnemonic_of_format h
  have hmnemonic := printable_mnemonic hmn
  have hreg : Printable 0 2 (regName r.reg r.w) := (printable_regName r.reg r.w).mono (by decide) (by decide)
  have himm := printable_decimal_word r.imm
  cases f with
  | std =>
    rw [line_of_std h hmn]
    split
    · exact isLine_twoOperandLine hmnemonic hreg (printable_rmText r) (by decide)
    · exact isLine_twoOperandLine hmnemonic (printable_rmText r) hreg (by decide)
  | rmImm =>
    rw [line, h, hmn]
    exact isLine_twoOperandLine hmnemonic (printable_sizedRmText r) himm (by decide)
  | accImm =>
    rw [line, h, hmn]
    exact isLine_twoOperandLine hmnemonic ((printable_regName 0 r.w).mono (by decide) (Nat.le_refl 2)) himm (by decide)
  | regImm =>
    rw [line, h, hmn]
    exact isLine_twoOperandLine hmnemonic hreg himm (by decide)
  | noOperand =>
    rw [line, h, hmn]
    have hlen := length_mnemonic_of_noOperand h hmn
    exact ⟨mn, rfl, hmnemonic.1, hlen.ge, by omega⟩

theorem IsLine.length {t : List Byte} (h : IsLine t) : 4 ≤ t.length ∧ t.length ≤ 34 := by
  obtain ⟨u, rfl, -, hlo, hhi⟩ := h
  rw [List.length_append, List.length_singleton]
  omega

theorem exists_format_of_recognized {tag : Tag} (h : tag ≠ .unrecognized) : ∃ f, formatOf tag = some f := by
  cases tag with
  | unrecognized => exact absurd rfl h
  | _ => exact ⟨_, rfl⟩

/-- Settles O36: a recognised tag has a format, and a record of a format prints as one line. -/
theorem lineIsOneLine : Obligations.LineIsOneLine := by
  intro r h
  obtain ⟨f, hformat⟩ := exists_format_of_recognized h
  obtain ⟨u, hline, hchars, -⟩ := isLine_line hformat
  exact ⟨u, hline, hchars⟩

theorem RetiresAs.line_length {i : Instr} {r : DecodedInstr} {f : Format} (h : RetiresAs i r f) :
    4 ≤ (line r).length ∧ (line r).length ≤ 34 := (isLine_line h.format).length

/-- Settles O37: the record is one the instruction retires with, so it has a format. -/
theorem lineLengthBounds : Obligations.LineLengthBounds := by
  intro i s t r _ h hemitted
  obtain ⟨r', f, hr, rfl, -⟩ := retired_of_emitted h hemitted
  exact hr.line_length

/-- Settles O40: the text fits or it does not (`append_cases`); what a written text reads as is `Memory.read_writeAll`. -/
theorem appendIsAllOrNothing : Obligations.AppendIsAllOrNothing := by
  intro u s hwf hcur
  refine ⟨fun hroom => by rw [append, if_pos hroom], fun hfits => ⟨s.out.writeAll s.cur u, ?_, fun k hk => ?_, ?_⟩⟩
  · rw [append, if_neg (by omega)]
  · rw [Memory.read_writeAll u hwf (by omega), if_pos (by omega), Nat.add_sub_cancel_left]
  · exact fun _ => Memory.read_writeAll_outside u hwf (by omega)

/-- Settles O41: an instruction that completes has a line of at least 4 characters, which does not fit; every other outcome
leaves the outputs alone and does not go on. -/
theorem noRoomForAnyLine : Obligations.NoRoomForAnyLine := by
  intro s t hready htrace hroom hstep
  obtain ⟨hterminal, -⟩ | ⟨-, ⟨i, rest, -, hexec⟩ | ⟨n, -, rfl⟩⟩ := step_cases hstep
  · exact absurd (hterminal.symm.trans hready.2) Bool.false_ne_true
  · cases exec_outcome hexec with
    | retired r f hr hfits =>
      have hline := hfits htrace
      have hmin := hr.line_length.1
      omega
    | failed | unrecognized | sentinel => exact ⟨LoopState.noConfusion, rfl, rfl, rfl⟩
  · exact ⟨LoopState.noConfusion, rfl, rfl, rfl⟩

end Sys2Proof.Machine
end

section
/-! Instructions that complete (R141, R162, R171, R180, R182, R202): each family's record, written out field by field, is the
one `retire` places, and its opcode byte is the family's base with the bits added. -/

namespace Sys2Proof

open Sys2Proof.Machine

theorem accImmOpcode_add (op : AluOp) (w : Bool) : accImmOpcode op w = accImmOpcode op false + bitByte w := by
  cases op <;> cases w <;> decide

theorem rmImmOpcode_eq_sum (s w : Bool) : rmImmOpcode s w = 0x80 + 2 * bitByte s + bitByte w := by
  cases s <;> cases w <;> decide

theorem regImmOpcode_eq_sum (w : Bool) (reg : BitVec 3) :
    regImmOpcode w reg = 0xB0 + 8 * bitByte w + reg.setWidth 8 := by
  revert w reg; decide

end Sys2Proof

namespace Sys2Proof.Machine

/-- `retire_completes` for a record whose address is that of the instruction and whose length is the sum of the fetches. -/
theorem retire_eq_retired {ns : List Nat} {r r' : DecodedInstr} {s : State} (hsum : ns.sum = r.len)
    (hr : r = placed r' s r.len) (hin : s.ip + r.len ≤ s.cfg.memSize) (hfits : LineFits s (line r).length) :
    retire ns r' s = .next (retired s r.len r) := by
  rw [← hsum] at hin hr ⊢
  rw [hr] at hfits ⊢
  exact retire_completes hin hfits

/-- The meaning of each instruction of format `STD`, with its opcode byte `base + 2 d + w` (R144 to R152). -/
theorem exec_stdInstructions_opcode : ∀ c ∈ stdInstructions, ∀ (d w : Bool) (mod : BitVec 2) (reg rm : BitVec 3)
    (disp : Disp) (s : State), exec (c.1 d w mod reg rm disp) s =
      retireStd c.2.1 (c.2.2 + 2 * bitByte d + bitByte w) d w mod reg rm disp s := by
  intro c hc d w mod reg rm disp s
  simp only [stdInstructions, List.mem_cons, List.not_mem_nil, or_false] at hc
  obtain rfl | rfl | rfl | rfl | rfl | rfl | rfl | rfl | rfl := hc
  all_goals cases d <;> cases w <;> rfl

/-- Settles O24: the meaning is `retire` of the record, which the bytes and the line fit. -/
theorem standardFormatCompletes : Obligations.StandardFormatCompletes := by
  intro c hc d w mod reg rm disp s r _ hr hin hfits
  have hlen : r.len = 2 + disp.size.bytes := by rw [hr]
  rw [exec_stdInstructions_opcode c hc]
  refine retire_eq_retired ?_ ?_ hin hfits
  · simp [hlen, Disp.fetches_sum, ← Nat.add_assoc]
  · rw [hr]; rfl

theorem exists_aluOp_of_mem_rmImmInstructions :
    ∀ c ∈ rmImmInstructions, ∃ op, c.1 = aluRmImm op ∧ c.2.1 = .rmImm op ∧ c.2.2 = op.index := by
  intro c hc
  simp only [rmImmInstructions, List.mem_cons, List.not_mem_nil, or_false] at hc
  obtain rfl | rfl | rfl | rfl | rfl | rfl | rfl | rfl := hc
  exacts [⟨.add, rfl, rfl, rfl⟩, ⟨.or, rfl, rfl, rfl⟩, ⟨.adc, rfl, rfl, rfl⟩, ⟨.sbb, rfl, rfl, rfl⟩,
    ⟨.and, rfl, rfl, rfl⟩, ⟨.sub, rfl, rfl, rfl⟩, ⟨.xor, rfl, rfl, rfl⟩, ⟨.cmp, rfl, rfl, rfl⟩]

/-- Settles O25: the meaning is `retire` of the record, which the bytes and the line fit. -/
theorem registerMemoryImmediateCompletes : Obligations.RegisterMemoryImmediateCompletes := by
  intro c hc sx w mod rm disp imm s r _ _ hr hin hfits
  obtain ⟨op, hinstr, htag, hsub⟩ := exists_aluOp_of_mem_rmImmInstructions c hc
  have hlen : r.len = 2 + disp.size.bytes + imm.size.bytes := by rw [hr]
  rw [hinstr, exec_aluRmImm]
  refine retire_eq_retired ?_ ?_ hin hfits
  · simp [hlen, Disp.fetches_sum, Imm.fetches_sum, ← Nat.add_assoc]
  · rw [hr, htag, hsub, ← rmImmOpcode_eq_sum]; rfl

theorem exists_aluOp_of_mem_accImmInstructions :
    ∀ c ∈ accImmInstructions, ∃ op, c.1 = aluAccImm op ∧ c.2.1 = .accImm op ∧ c.2.2 = accImmOpcode op false := by
  intro c hc
  simp only [accImmInstructions, List.mem_cons, List.not_mem_nil, or_false] at hc
  obtain rfl | rfl | rfl | rfl | rfl | rfl | rfl | rfl := hc
  exacts [⟨.add, rfl, rfl, rfl⟩, ⟨.or, rfl, rfl, rfl⟩, ⟨.adc, rfl, rfl, rfl⟩, ⟨.sbb, rfl, rfl, rfl⟩,
    ⟨.and, rfl, rfl, rfl⟩, ⟨.sub, rfl, rfl, rfl⟩, ⟨.xor, rfl, rfl, rfl⟩, ⟨.cmp, rfl, rfl, rfl⟩]

/-- Settles O26: the meaning is `retire` of the record, which the bytes and the line fit. -/
theorem accumulatorImmediateCompletes : Obligations.AccumulatorImmediateCompletes := by
  intro c hc w imm s r _ hr hin hfits
  obtain ⟨op, hinstr, htag, hopcode⟩ := exists_aluOp_of_mem_accImmInstructions c hc
  have hlen : r.len = 1 + imm.size.bytes := by rw [hr]
  rw [hinstr, exec_aluAccImm]
  refine retire_eq_retired ?_ ?_ hin hfits
  · simp [hlen, Imm.fetches_sum]
  · rw [hr, htag, hopcode, ← accImmOpcode_add]; rfl

/-- Settles O27: the meaning is `retire` of the record, which the bytes and the line fit. -/
theorem registerImmediateCompletes : Obligations.RegisterImmediateCompletes := by
  intro w reg imm s r _ hr hin hfits
  have hlen : r.len = 1 + imm.size.bytes := by rw [hr]
  refine retire_eq_retired ?_ ?_ hin hfits
  · simp [hlen, Imm.fetches_sum]
  · rw [hr, ← regImmOpcode_eq_sum]; rfl

/-- Settles O28: the meaning is `retire` of the record, which the byte and the line fit. -/
theorem noOperandCompletes : Obligations.NoOperandCompletes := by
  intro c hc s r hr hin hfits
  have hlen : r.len = 1 := by rw [hr]
  rw [exec_noOperandInstructions c hc, ← hlen]
  exact retire_eq_retired hlen.symm (by rw [hr]; rfl) (by rwa [hlen]) hfits

/-- Settles O29: the sentinel's one `Fetch` succeeds inside the image, and the loop meets it where the byte 0x00 stands. -/
theorem sentinelEndsTheSession : Obligations.SentinelEndsTheSession := by
  refine ⟨fun s hin => ?_, fun s hready himage => ?_⟩
  · obtain ⟨-, heq⟩ | ⟨hout, -⟩ := exec_sentinel_cases s
    · exact heq
    · omega
  · obtain ⟨hin, hbytes⟩ := himage
    exact step_of_sentinel hready ⟨hin, List.head_eq_of_cons_eq hbytes⟩

/-! ### The round trip of the AND family (R237) -/

theorem directByte_eq (reg rm : BitVec 3) : 0xC0 + 8 * reg.setWidth 8 + rm.setWidth 8 = modRmByte 3 reg rm := by
  revert reg rm; decide

/-- The record of the `AND` of two word registers at the instruction pointer. -/
def andRegisters (reg rm : BitVec 3) (s : State) : DecodedInstr :=
  { stdRecord (.rmReg .and) 0x23 true true 3 reg rm .none with addr := s.ip, len := 2 }

theorem line_andRegisters (reg rm : BitVec 3) (s : State) :
    line (andRegisters reg rm s) =
      ascii ['a', 'n', 'd', ' '] ++ regName reg true ++ ascii [',', ' '] ++ regName rm true ++ [newline] := rfl

theorem line_andRegisters_length (reg rm : BitVec 3) (s : State) : (line (andRegisters reg rm s)).length = 11 := by
  have hname (id : BitVec 3) : (regName id true).length = 2 :=
    Nat.le_antisymm (printable_regName id true).2.2 (printable_regName id true).2.1
  rw [line_andRegisters]
  simp [hname, ascii]

theorem step_andRegisters {reg rm : BitVec 3} {s : State} (hready : Ready s)
    (himage : ImageHolds s [0x23, 0xC0 + 8 * reg.setWidth 8 + rm.setWidth 8]) (hfits : LineFits s 11) :
    step s = .next (retired s 2 (andRegisters reg rm s)) := by
  rw [directByte_eq] at himage
  rw [step_eq_exec_of_imageHolds (i := .andRmReg true true 3 reg rm .none) hready rfl rfl himage]
  refine standardFormatCompletes (.andRmReg, .rmReg .and, 0x20) (by simp [stdInstructions]) true true 3 reg rm .none s
    (andRegisters reg rm s) rfl rfl himage.1 ?_
  rwa [line_andRegisters_length]

/-- Settles O39: the step retires the record of the `AND`, whose line is the two names, and a line that fits is appended to
the text. -/
theorem andRegistersRoundTrip : Obligations.AndRegistersRoundTrip := by
  intro reg rm s hready himage htrace hwf hroom
  have hlen := line_andRegisters_length reg rm s
  have hstep := step_andRegisters hready himage fun _ => by omega
  refine ⟨_, andRegisters reg rm s, hstep, rfl, rfl, rfl, rfl, rfl, rfl, rfl, ?_⟩
  rw [traceText, retired_out, retired_cur, if_pos htrace, if_pos htrace,
    bytes_writeAll_append hwf (by rw [hlen]; exact hroom), traceText, line_andRegisters]
  simp only [List.append_assoc]
  rfl

end Sys2Proof.Machine
end

section
/-! `OUT_OF_BOUNDS` by the fetch that fails (R256, R262): the decoder stops at the first read that the bytes ahead do not
reach, format by format. -/

namespace Sys2Proof.Machine

theorem SizeTag.bytes_le (size : SizeTag) : size.bytes ≤ 2 := by cases size <;> decide

/-- A displacement that ends beyond the image is not taken. -/
theorem takeDisp_ahead_out {m : Byte} {s : State} (hin : s.ip ≤ s.cfg.memSize) (h : s.cfg.memSize < s.ip + dispBytes m) :
    takeDisp (parseMode (split m).1 (split m).2.2).2 (ahead 4 s) = none := by
  obtain ⟨htake, -⟩ | ⟨disp, hsize, hdisp, -⟩ := takeDisp_ahead (parseMode (split m).1 (split m).2.2).2 s
  · exact htake
  · rw [dispBytes_eq, ← hsize] at h
    omega

/-- A displacement that ends inside the image is taken. -/
theorem takeDisp_ahead_in {m : Byte} {s : State} (h : s.ip + dispBytes m ≤ s.cfg.memSize) :
    ∃ disp : Disp, disp.size.bytes = dispBytes m ∧ takeDisp (parseMode (split m).1 (split m).2.2).2 (ahead 4 s) =
      some (disp, ahead (2 - disp.size.bytes + 2) (advance disp.size.bytes s)) := by
  rw [dispBytes_eq] at h ⊢
  obtain ⟨htake, -⟩ | ⟨disp, hsize, -, htake, -⟩ := takeDisp_ahead (parseMode (split m).1 (split m).2.2).2 s
  · have hshort := takeDisp_none htake
    have hle := SizeTag.bytes_le (parseMode (split m).1 (split m).2.2).2
    rw [ahead, Memory.bytes_length] at hshort
    omega
  · have hle := Disp.bytes_le disp
    refine ⟨disp, by rw [hsize], ?_⟩
    rw [htake, show 4 - disp.size.bytes = 2 - disp.size.bytes + 2 by omega]

/-- An immediate that ends beyond the image is not taken. -/
theorem takeImm_ahead_out {two : Bool} {c : Nat} {s : State} (h : s.cfg.memSize < s.ip + if two then 2 else 1) :
    takeImm two (ahead (c + 2) s) = none := by
  obtain ⟨htake, -⟩ | ⟨imm, rest, hsize, himm, -⟩ := takeImm_ahead two c s
  · exact htake
  · rw [bytes_of_immFits (decide_eq_true hsize)] at himm
    omega

theorem ImageHolds.window_one {s : State} {b0 : Byte} (h : ImageHolds s [b0]) :
    window s = b0 :: ahead 5 (advance 1 s) := by
  obtain ⟨hin, hbytes⟩ := h
  have hbyte : s.mem.read s.ip = b0 := List.head_eq_of_cons_eq hbytes
  rw [window_eq_ahead, ahead_succ hin, hbyte]

/-- The last byte of the image stands alone in the window. -/
theorem ImageHolds.window_last {s : State} {b0 : Byte} (h : ImageHolds s [b0]) (hend : s.ip + 1 = s.cfg.memSize) :
    window s = [b0] := by
  have hlast : (advance 1 s).cfg.memSize < (advance 1 s).ip + 1 := by
    rw [advance_cfg, advance_ip]
    omega
  rw [h.window_one, ahead_of_end hlast]

theorem ImageHolds.window_two {s : State} {b0 m : Byte} (h : ImageHolds s [b0, m]) :
    s.ip + 2 ≤ s.cfg.memSize ∧ window s = b0 :: m :: ahead 4 (advance 2 s) := by
  obtain ⟨hin, hbytes⟩ := h
  obtain ⟨hb0, htail⟩ := List.cons_eq_cons.mp hbytes
  exact ⟨hin, by rw [window_eq_ahead, ahead_succ_succ hin, hb0, List.head_eq_of_cons_eq htail]⟩

theorem ne_zero_of_needsSecond {b0 : Byte} (h : needsSecond b0 = true) : b0 ≠ 0 := by
  rintro rfl
  cases h

/-- Only the family's tags have its format, and only they depend on the second byte. -/
theorem needsSecond_of_format {b0 b1 : Byte} {f : Format} (h : formatOf (resolve b0 b1) = some f) :
    needsSecond b0 = true ↔ f = .rmImm := by
  cases hneeds : needsSecond b0 with
  | true =>
    rw [resolve_of_needsSecond hneeds] at h
    cases h
    simp
  | false =>
    have hnot : f ≠ .rmImm := by
      rintro rfl
      rw [resolve_congr_of_not_needsSecond hneeds b1 0] at h
      cases htag : resolve b0 0 with
      | rmImm op => exact resolve_ne_rmImm_of_not_needsSecond hneeds op htag
      | _ => rw [htag] at h; cases h
    simp [hnot]

/-- An opcode byte of a format without a second byte for the resolver is decoded by the handler of its tag. -/
theorem decode_of_format {b0 b1 : Byte} {f : Format} (hb0 : b0 ≠ 0) (h : formatOf (resolve b0 b1) = some f)
    (hf : f ≠ .rmImm) (rest : List Byte) :
    decode (b0 :: rest) = decodeTag (resolve b0 0) b0 0 rest ∧ formatOf (resolve b0 0) = some f := by
  have hneeds : needsSecond b0 = false := Bool.eq_false_iff.mpr fun hc => hf ((needsSecond_of_format h).mp hc)
  rw [decode, if_neg hb0, decodeRest_of_not_needsSecond hneeds, ← resolve_congr_of_not_needsSecond hneeds b1 0]
  exact ⟨rfl, h⟩

/-- A tag of the standard format is decoded by `DecodeStd`. -/
theorem decodeTag_std {tag : Tag} (h : formatOf tag = some .std) (b0 b1 : Byte) :
    ∃ mk, ∀ rest, decodeTag tag b0 b1 rest = decodeStd mk b0 rest := by
  cases tag with
  | rmReg op => exact ⟨aluRmReg op, fun _ => rfl⟩
  | movRmReg => exact ⟨.movRmReg, fun _ => rfl⟩
  | _ => cases h

theorem decodeTag_accImm {tag : Tag} (h : formatOf tag = some .accImm) (b0 b1 : Byte) :
    ∃ op, ∀ rest, decodeTag tag b0 b1 rest = decodeAccImm op b0 rest := by
  cases tag with
  | accImm op => exact ⟨op, fun _ => rfl⟩
  | _ => cases h

theorem decodeTag_regImm {tag : Tag} (h : formatOf tag = some .regImm) (b0 b1 : Byte) (rest : List Byte) :
    decodeTag tag b0 b1 rest = decodeRegImm b0 rest := by
  cases tag with
  | movRegImm => rfl
  | _ => cases h

/-- The family's two bytes are decoded by `DecodeRmImm`. -/
theorem decode_of_rmImm {b0 m : Byte} (h : formatOf (resolve b0 m) = some .rmImm) :
    ∃ op, ∀ rest, decode (b0 :: m :: rest) = decodeRmImm op b0 m rest := by
  have hneeds := (needsSecond_of_format h).mpr rfl
  refine ⟨AluOp.ofIndex (m.extractLsb' 3 3), fun rest => ?_⟩
  rw [decode, if_neg (ne_zero_of_needsSecond hneeds), decodeRest_cons_of_needsSecond hneeds,
    resolve_of_needsSecond hneeds, decodeTag]

theorem ne_zero_of_format {b0 : Byte} {f : Format} (h : formatOf (resolve b0 0) = some f) (hf : f ≠ .std) : b0 ≠ 0 := by
  rintro rfl
  exact hf (Option.some.inj h).symm

/-- The size of the family's immediate, as `Length` (R61) and as the handler (R68) write it. -/
theorem lengthOf_rmImm {b0 m : Byte} (h : needsSecond b0 = true) :
    lengthOf .rmImm m b0 = 2 + dispBytes m + if !b0.getLsbD 1 && b0.getLsbD 0 then 2 else 1 := by
  obtain ⟨s, w, rfl⟩ := (needsSecond_iff_rmImmOpcode b0).mp h
  simp only [lengthOf, rmImmOpcode_extract, rmImmOpcode_s, rmImmOpcode_w]

section
variable {s : State} {b0 m : Byte} (hready : Ready s)
include hready

/-- A decoding of the window that is cut short after `n` bytes is the failure that the step records. -/
theorem step_of_window_truncated {bs : List Byte} {n : Nat} (hwindow : window s = bs) (h : decode bs = .truncated n) :
    step s = .next (failedAt s n .outOfBounds) :=
  step_of_truncated hready (by rw [hwindow, h])

theorem step_outOfBounds_second (himage : ImageHolds s [b0]) (hneeds : needsSecond b0 = true)
    (hend : s.ip + 1 = s.cfg.memSize) : step s = .next (failedAt s 1 .outOfBounds) := by
  refine step_of_window_truncated hready (himage.window_last hend) ?_
  rw [decode, if_neg (ne_zero_of_needsSecond hneeds), decodeRest_nil_of_needsSecond hneeds]

theorem step_outOfBounds_addressing (himage : ImageHolds s [b0]) (hb0 : b0 ≠ 0)
    (hformat : formatOf (resolve b0 0) = some .std) (hend : s.ip + 1 = s.cfg.memSize) :
    step s = .next (failedAt s 1 .outOfBounds) := by
  obtain ⟨mk, hmk⟩ := decodeTag_std hformat b0 0
  refine step_of_window_truncated hready (himage.window_last hend) ?_
  rw [(decode_of_format hb0 hformat (by decide) []).1, hmk, decodeStd]

theorem step_outOfBounds_displacement (himage : ImageHolds s [b0, m]) (hb0 : b0 ≠ 0)
    (hformat : formatOf (resolve b0 m) = some .std ∨ formatOf (resolve b0 m) = some .rmImm)
    (hend : s.cfg.memSize < s.ip + 2 + dispBytes m) : step s = .next (failedAt s 2 .outOfBounds) := by
  obtain ⟨hin, hwindow⟩ := himage.window_two
  have htake := takeDisp_ahead_out (s := advance 2 s) hin hend
  refine step_of_window_truncated hready hwindow ?_
  obtain hstd | hrmImm := hformat
  · obtain ⟨hdecode, hstd'⟩ := decode_of_format hb0 hstd (by decide) (m :: ahead 4 (advance 2 s))
    obtain ⟨mk, hmk⟩ := decodeTag_std hstd' b0 0
    rw [hdecode, hmk, decodeStd, htake]
  · obtain ⟨op, hop⟩ := decode_of_rmImm hrmImm
    rw [hop, decodeRmImm, htake]

theorem step_outOfBounds_accImm (himage : ImageHolds s [b0]) (hformat : formatOf (resolve b0 0) = some .accImm)
    (hend : s.cfg.memSize < s.ip + lengthOf .accImm 0 b0) : step s = .next (failedAt s 1 .outOfBounds) := by
  obtain ⟨op, hop⟩ := decodeTag_accImm hformat b0 0
  have htake : takeImm (b0.getLsbD 0) (ahead 5 (advance 1 s)) = none :=
    takeImm_ahead_out (c := 3) (by rw [advance_cfg, advance_ip, Nat.add_assoc]; exact hend)
  refine step_of_window_truncated hready himage.window_one ?_
  rw [(decode_of_format (ne_zero_of_format hformat (by decide)) hformat (by decide) _).1, hop, decodeAccImm, htake]

theorem step_outOfBounds_regImm (himage : ImageHolds s [b0]) (hformat : formatOf (resolve b0 0) = some .regImm)
    (hend : s.cfg.memSize < s.ip + lengthOf .regImm 0 b0) : step s = .next (failedAt s 1 .outOfBounds) := by
  have htake : takeImm (b0.getLsbD 3) (ahead 5 (advance 1 s)) = none :=
    takeImm_ahead_out (c := 3) (by rw [advance_cfg, advance_ip, Nat.add_assoc]; exact hend)
  refine step_of_window_truncated hready himage.window_one ?_
  rw [(decode_of_format (ne_zero_of_format hformat (by decide)) hformat (by decide) _).1, decodeTag_regImm hformat,
    decodeRegImm, htake]

theorem step_outOfBounds_rmImm (himage : ImageHolds s [b0, m]) (hformat : formatOf (resolve b0 m) = some .rmImm)
    (hin : s.ip + 2 + dispBytes m ≤ s.cfg.memSize) (hend : s.cfg.memSize < s.ip + lengthOf .rmImm m b0) :
    step s = .next (failedAt s (2 + dispBytes m) .outOfBounds) := by
  obtain ⟨-, hwindow⟩ := himage.window_two
  obtain ⟨op, hop⟩ := decode_of_rmImm hformat
  obtain ⟨disp, hbytes, htake⟩ := takeDisp_ahead_in (s := advance 2 s) hin
  have htakeImm : takeImm (!b0.getLsbD 1 && b0.getLsbD 0) (ahead (2 - disp.size.bytes + 2)
      (advance disp.size.bytes (advance 2 s))) = none := by
    refine takeImm_ahead_out ?_
    rw [lengthOf_rmImm ((needsSecond_of_format hformat).mpr rfl)] at hend
    rw [advance_advance, advance_cfg, advance_ip, hbytes, Nat.add_assoc]
    exact hend
  refine step_of_window_truncated hready hwindow ?_
  rw [hop, decodeRmImm, htake, ← hbytes]
  simp only [htakeImm]

end

/-- Settles O50: one lemma per fetch; before the first there is no byte in the window. -/
theorem outOfBoundsByFetchSite : Obligations.OutOfBoundsByFetchSite := fun _ hready =>
  ⟨fun hend => step_of_window_truncated hready (ahead_of_end (by omega) 6) rfl,
    fun _ => step_outOfBounds_second hready, fun _ => step_outOfBounds_addressing hready,
    fun _ _ => step_outOfBounds_displacement hready, fun _ => step_outOfBounds_accImm hready,
    fun _ => step_outOfBounds_regImm hready, fun _ _ => step_outOfBounds_rmImm hready⟩

end Sys2Proof.Machine
end

section
/-! The resolver's set of unrecognised bytes (R74) and the opcode table as data (R78): the bytes a row reads, and the one row
that matches. -/

namespace Sys2Proof

/-- Whether `Resolve` answers `UNRECOGNIZED` is decided by the opcode byte (R91, R94). -/
theorem resolve_eq_unrecognized_iff (b0 b1 : Byte) : resolve b0 b1 = .unrecognized ↔ resolve b0 0 = .unrecognized := by
  cases hneeds : needsSecond b0 with
  | false => rw [resolve_congr_of_not_needsSecond hneeds b1 0]
  | true => simp [resolve_of_needsSecond hneeds]

/-- Settles O7: the second byte does not matter, and the 256 opcode bytes are compared with the ranges one by one. -/
theorem unrecognizedOpcodes : Obligations.UnrecognizedOpcodes := by
  refine ⟨fun b0 b1 => ?_, rfl⟩
  rw [resolve_eq_unrecognized_iff]
  revert b0; decide

theorem word_eq_iff (v u : Word) : v = u ↔ highByte v = highByte u ∧ lowByte v = lowByte u := by
  refine ⟨fun h => ⟨congrArg highByte h, congrArg lowByte h⟩, fun ⟨hhigh, hlow⟩ => ?_⟩
  rw [← joinBytes_low_high v, ← joinBytes_low_high u, hhigh, hlow]

theorem highByte_and (v u : Word) : highByte (v &&& u) = highByte v &&& highByte u := BitVec.extractLsb'_and

theorem lowByte_and (v u : Word) : lowByte (v &&& u) = lowByte v &&& lowByte u := BitVec.extractLsb'_and

/-- A row matches byte by byte: b0 is the high byte of the word (R78). -/
theorem hits_iff (r : TableRow) (b0 b1 : Byte) :
    r.hits b0 b1 = true ↔ b0 &&& highByte r.mask = highByte r.pattern ∧ b1 &&& lowByte r.mask = lowByte r.pattern := by
  have hhigh : highByte (b0 ++ b1 : Word) = b0 := highByte_joinBytes b1 b0
  have hlow : lowByte (b0 ++ b1 : Word) = b1 := lowByte_joinBytes b1 b0
  rw [TableRow.hits, beq_iff_eq, word_eq_iff, highByte_and, lowByte_and, hhigh, hlow]

/-- Of the second byte a row reads the sub-opcode at most, and only for an opcode byte of the family 0x80 to 0x83. -/
theorem opcodeTable_masks : ∀ r ∈ opcodeTable, lowByte r.mask = 0 ∨
    lowByte r.mask = 0x38 ∧ highByte r.mask = 0xFC ∧ highByte r.pattern = 0x80 := by decide

theorem hits_congr_of_not_needsSecond {b0 : Byte} (h : needsSecond b0 = false) (b1 b1' : Byte) :
    ∀ r ∈ opcodeTable, r.hits b0 b1 = r.hits b0 b1' := by
  intro r hr
  rw [Bool.eq_iff_iff, hits_iff, hits_iff]
  obtain hmask | ⟨-, hmask, hpattern⟩ := opcodeTable_masks r hr
  · simp [hmask]
  · have hguard : ¬ b0 &&& 0xFC = 0x80 := beq_eq_false_iff_ne.mp h
    rw [hmask, hpattern]
    exact iff_of_false (fun hhits => hguard hhits.1) fun hhits => hguard hhits.1

theorem hits_congr_of_subOpcode {b1 b1' : Byte} (h : b1 &&& 0x38 = b1' &&& 0x38) (b0 : Byte) :
    ∀ r ∈ opcodeTable, r.hits b0 b1 = r.hits b0 b1' := by
  intro r hr
  rw [Bool.eq_iff_iff, hits_iff, hits_iff]
  obtain hmask | ⟨hmask, -, -⟩ := opcodeTable_masks r hr
  · simp [hmask]
  · rw [hmask, h]

/-- The tags of the rows that match two bytes. -/
def tagsHit (b0 b1 : Byte) : List Tag := (opcodeTable.filter fun r => r.hits b0 b1).map (·.tag)

theorem tagsHit_congr {b0 b1 b1' : Byte} (h : ∀ r ∈ opcodeTable, r.hits b0 b1 = r.hits b0 b1') :
    tagsHit b0 b1 = tagsHit b0 b1' := by
  rw [tagsHit, tagsHit, List.filter_congr h]

theorem tagsHit_of_not_needsSecond : ∀ {b0 : Byte}, needsSecond b0 = false → tagsHit b0 0 = [resolve b0 0] := by decide

theorem tagsHit_of_subOpcode (s w : Bool) (op : AluOp) :
    tagsHit (rmImmOpcode s w) (modRmByte 0 op.index 0) = [.rmImm op] := by
  revert s w
  cases op <;> decide

theorem subOpcode_and (b1 : Byte) : b1 &&& 0x38 = modRmByte 0 (b1.extractLsb' 3 3) 0 &&& 0x38 := by
  revert b1; decide

/-- The rows that match are one, and its tag is the resolver's. -/
theorem tagsHit_eq (b0 b1 : Byte) : tagsHit b0 b1 = [resolve b0 b1] := by
  cases hneeds : needsSecond b0 with
  | false =>
    rw [tagsHit_congr (hits_congr_of_not_needsSecond hneeds b1 0), tagsHit_of_not_needsSecond hneeds,
      resolve_congr_of_not_needsSecond hneeds b1 0]
  | true =>
    obtain ⟨s, w, rfl⟩ := (needsSecond_iff_rmImmOpcode b0).mp hneeds
    have htags := tagsHit_of_subOpcode s w (AluOp.ofIndex (b1.extractLsb' 3 3))
    rw [AluOp.index_ofIndex] at htags
    rw [tagsHit_congr (hits_congr_of_subOpcode (subOpcode_and b1) _), htags, resolve_rmImmOpcode]

/-- Settles O9: the list of matching rows has the resolver's tag and no other (`tagsHit_eq`). -/
theorem tableIsTheResolver : Obligations.TableIsTheResolver := by
  intro b0 b1
  have htags := tagsHit_eq b0 b1
  refine ⟨?_, ?_⟩
  · rw [tableTag, ← List.head?_filter, ← List.head?_map, ← tagsHit, htags, List.head?_singleton]
  · rw [← List.length_map (·.tag), ← tagsHit, htags, List.length_singleton]

end Sys2Proof
end

section
/-! The addressing modes (R121, R123) and the effective address (R127, R131). -/

namespace Sys2Proof

/-- R131: the sign-extended byte is the signed number modulo 2^16. -/
theorem sext16_toNat (v : Byte) : ((sext16 v).toNat : Int) = v.toInt % 65536 := by
  revert v; decide

end Sys2Proof

namespace Sys2Proof.Machine

/-- Settles O11: the 32 pairs of mod and rm one by one, and the table of R123 row by row. -/
theorem addressingModes : Obligations.AddressingModes :=
  ⟨by decide, ⟨rfl, rfl⟩, ⟨rfl, rfl⟩, ⟨rfl, rfl⟩, ⟨rfl, rfl⟩, ⟨rfl, rfl⟩, ⟨rfl, rfl⟩, ⟨rfl, rfl⟩, ⟨rfl, rfl⟩⟩

theorem effectiveAddress_of_direct {r : DecodedInstr} (h : r.amode = .memDirect) (x : Regs) :
    effectiveAddress r x = r.disp := by
  rw [effectiveAddress, addressOf, if_pos h]

theorem effectiveAddress_toNat {r : DecodedInstr} (h : r.amode ≠ .memDirect) (x : Regs) :
    (effectiveAddress r x).toNat =
      ((x.readOpt (eaBase r.rm)).toNat + (x.readOpt (eaIndex r.rm)).toNat + r.disp.toNat) % 65536 := by
  rw [effectiveAddress, addressOf, if_neg h, BitVec.toNat_add, BitVec.toNat_add, Nat.mod_add_mod]

/-- Settles O12: the sum of bit vectors is the sum of numbers modulo 2^16, and so the sign-extended byte counts as its signed
number (`sext16_toNat`). -/
theorem effectiveAddressIsSignedSum : Obligations.EffectiveAddressIsSignedSum := by
  refine fun r x => ⟨fun h => effectiveAddress_of_direct h x, fun h => effectiveAddress_toNat h x, fun v h hdisp => ?_⟩
  have hbyte : (r.disp.toNat : Int) = v.toInt % 65536 := by rw [hdisp]; exact sext16_toNat v
  rw [effectiveAddress_toNat h x]
  omega

end Sys2Proof.Machine
end

section
/-! `MemRead` and `MemWrite` (R43, R44, R45). -/

namespace Sys2Proof

theorem zext16_lowByte (v : Word) : zext16 (lowByte v) = v &&& 0x00FF := by
  apply BitVec.eq_of_toNat_eq
  have hand : v.toNat &&& 255 = v.toNat % 2 ^ 8 := Nat.and_two_pow_sub_one_eq_mod v.toNat 8
  rw [zext16_toNat, lowByte, BitVec.extractLsb'_toNat, BitVec.toNat_and, Nat.shiftRight_zero]
  exact hand.symm

theorem zext16_highByte (v : Word) : zext16 (highByte v) = v >>> 8 := by
  apply BitVec.eq_of_toNat_eq
  have hlt := v.isLt
  rw [zext16_toNat, highByte, BitVec.extractLsb'_toNat, BitVec.toNat_ushiftRight, Nat.shiftRight_eq_div_pow]
  omega

end Sys2Proof

namespace Sys2Proof.Machine

/-- Settles O15: out of bounds neither access is made; inside, a byte reads as it was last written (`Memory.read_write`). -/
theorem memWriteThenMemRead : Obligations.MemWriteThenMemRead := by
  intro s a n v hwf hn
  refine ⟨fun hout => ⟨by rw [memWrite, if_pos hout], by rw [memRead, if_pos hout]⟩, fun hin => ?_⟩
  have hin' : ¬ s.cfg.memSize < a + n := by omega
  have hwf1 : (s.mem.write a (lowByte v)).wf s.cfg.memSize = true := Memory.wf_write hwf (by omega)
  have hlow := Memory.read_write hwf a (lowByte v)
  obtain rfl | rfl := hn
  · refine ⟨s.mem.write a (lowByte v), by rw [memWrite, if_neg hin', if_pos rfl], ?_, ?_, fun b hb => ?_, hwf1⟩
    · rw [memRead, if_neg hin', if_pos rfl, if_pos rfl, hlow, if_pos rfl, zext16_lowByte]
    · rw [hlow, if_pos rfl]; rfl
    · rw [hlow, if_neg (by omega)]
  · have hboth := Memory.read_write hwf1 (a + 1) (highByte v)
    have hfirst : ((s.mem.write a (lowByte v)).write (a + 1) (highByte v)).read a = lowByte v := by
      rw [hboth, if_neg (by omega), hlow, if_pos rfl]
    refine ⟨(s.mem.write a (lowByte v)).write (a + 1) (highByte v), ?_, ?_, hfirst, fun b hb => ?_,
      Memory.wf_write hwf1 (by omega)⟩
    · rw [memWrite, if_neg hin', if_neg (by decide)]
    · rw [memRead, if_neg hin', if_neg (by decide), if_neg (by decide), hfirst, hboth, if_pos rfl, joinBytes_low_high]
    · rw [hboth, if_neg (by omega), hlow, if_neg (by omega)]

end Sys2Proof.Machine
end

section
/-! The register file (R17, R18): one rule for a word register read after a write; the byte registers are halves of words,
and the ids name both. -/

namespace Sys2Proof.Machine

theorem Regs.read16_write16 (x : Regs) (v : Word) (r q : Reg16) :
    (x.write16 v r).read16 q = if q = r then v else x.read16 q := by
  cases r <;> cases q <;> rfl

/-- A byte register is determined by its word and its half. -/
theorem Reg8.eq_iff (q r : Reg8) : q = r ↔ q.whole = r.whole ∧ q.high = r.high := by
  cases q <;> cases r <;> decide

/-- The word `u` with the byte `v` as its high or its low half. -/
def replaceHalf (high : Bool) (v : Byte) (u : Word) : Word :=
  if high then joinBytes (lowByte u) v else joinBytes v (highByte u)

theorem Regs.write8_eq (x : Regs) (v : Byte) (r : Reg8) :
    x.write8 v r = x.write16 (replaceHalf r.high v (x.read16 r.whole)) r.whole := by
  rw [write8, replaceHalf]
  split <;> rfl

theorem Regs.read16_write8 (x : Regs) (v : Byte) (r : Reg8) (q : Reg16) :
    (x.write8 v r).read16 q = if q = r.whole then replaceHalf r.high v (x.read16 r.whole) else x.read16 q := by
  rw [write8_eq, read16_write16]

theorem highByte_replaceHalf (high : Bool) (v : Byte) (u : Word) :
    highByte (replaceHalf high v u) = if high then v else highByte u := by
  cases high <;> simp [replaceHalf]

theorem lowByte_replaceHalf (high : Bool) (v : Byte) (u : Word) :
    lowByte (replaceHalf high v u) = if high then lowByte u else v := by
  cases high <;> simp [replaceHalf]

/-- A byte written reads back; every other byte register, the other half included, is unchanged (R17). -/
theorem Regs.read8_write8 (x : Regs) (v : Byte) (r q : Reg8) :
    (x.write8 v r).read8 q = if q = r then v else x.read8 q := by
  rw [read8, read8, read16_write8]
  by_cases hwhole : q.whole = r.whole
  · rw [if_pos hwhole, highByte_replaceHalf, lowByte_replaceHalf, hwhole]
    cases hq : q.high <;> cases hr : r.high <;> simp [Reg8.eq_iff, hwhole, hq, hr]
  · have hne : q ≠ r := fun h => hwhole (congrArg Reg8.whole h)
    rw [if_neg hwhole, if_neg hne]

/-- Settles O16: a byte register is a half of its word, and the write replaces that half alone. -/
theorem byteRegistersAlias : Obligations.ByteRegistersAlias := by
  refine fun x v r => ⟨x.read8_write8 v r, fun q hq => ?_, ?_⟩
  · rw [Regs.read16_write8, if_neg hq]
  · rw [Regs.read16_write8, if_pos rfl]
    rfl

theorem Reg16.ofId_injective : ∀ {id k : BitVec 3}, Reg16.ofId k = Reg16.ofId id → k = id := by decide

/-- R18: the byte ids 0 to 3 are the low halves and 4 to 7 the high halves of the words 0 to 3. -/
theorem Reg8.ofId_halves : ∀ {id : BitVec 3}, id.toNat < 4 →
    ((Reg8.ofId id).whole = Reg16.ofId id ∧ (Reg8.ofId id).high = false) ∧
      (Reg8.ofId (id + 4)).whole = Reg16.ofId id ∧ (Reg8.ofId (id + 4)).high = true := by decide

/-- Settles O17: through an id a register is read and written by the rules of its width, and the byte ids are the halves of
the words (`Reg8.ofId_halves`). -/
theorem registerIdsNameRegisters : Obligations.RegisterIdsNameRegisters := by
  refine ⟨fun x id v => ?_, fun x id v => ?_, fun x id k v hk => ?_, fun x id hid => ?_, fun x id hid => ?_⟩
  · rw [Regs.readId, Regs.writeId, if_pos rfl, if_pos rfl, Regs.read16_write16, if_pos rfl]
  · rw [Regs.readId, Regs.writeId, if_neg Bool.false_ne_true, if_neg Bool.false_ne_true, Regs.read8_write8, if_pos rfl,
      zext16_lowByte]
  · rw [Regs.readId, Regs.readId, Regs.writeId, if_pos rfl, if_pos rfl, if_pos rfl, Regs.read16_write16,
      if_neg fun h => hk (Reg16.ofId_injective h)]
  · obtain ⟨⟨hwhole, hhigh⟩, -⟩ := Reg8.ofId_halves hid
    rw [Regs.readId, Regs.readId, if_neg Bool.false_ne_true, if_pos rfl, Regs.read8, hhigh, hwhole,
      if_neg Bool.false_ne_true, zext16_lowByte]
  · obtain ⟨-, hwhole, hhigh⟩ := Reg8.ofId_halves hid
    rw [Regs.readId, Regs.readId, if_neg Bool.false_ne_true, if_pos rfl, Regs.read8, hhigh, hwhole, if_pos rfl,
      zext16_highByte]

end Sys2Proof.Machine
end

section
/-! The flags register (R20), the status port (R12, R13, R21) and `Init` (R280, R283). -/

namespace Sys2Proof.Machine

theorem Flag.bit_lt (f : Flag) : f.bit < 16 := by cases f <;> decide

theorem Flag.bit_injective (f g : Flag) : g.bit = f.bit → g = f := by
  cases f <;> cases g <;> decide

/-- The mask of a flag has its own bit alone. -/
theorem Flag.getLsbD_mask (f : Flag) (k : Nat) : f.mask.getLsbD k = decide (k = f.bit) := by
  have hbit := f.bit_lt
  rw [Flag.mask, BitVec.getLsbD_shiftLeft, BitVec.getLsbD_one, Bool.eq_iff_iff]
  simp
  omega

/-- Settles O18: the masks have one bit each (`Flag.getLsbD_mask`), and bits at or beyond 16 are 0. -/
theorem flagsChangeByMaskOnly : Obligations.FlagsChangeByMaskOnly := by
  refine fun f s => ⟨fun k => ?_, fun k => ?_, ⟨_, rfl⟩, ⟨_, rfl⟩, f.bit_injective⟩
  · rw [setFlag_flags, BitVec.getLsbD_or, f.getLsbD_mask, Bool.or_comm]
  · rw [clearFlag_flags, BitVec.getLsbD_and, BitVec.getLsbD_not, f.getLsbD_mask]
    by_cases hk : k < 16
    · rw [decide_eq_true hk, Bool.true_and, Bool.and_comm]
    · rw [BitVec.getLsbD_of_ge s.flags k (by omega), Bool.false_and, Bool.and_false]

/-- Settles O19: the codes are the constants of the definitions, and 16 bits of a number are its remainder. -/
theorem statusPort : Obligations.StatusPort :=
  ⟨rfl, rfl, rfl, rfl, rfl, rfl, rfl, rfl, rfl, fun s => BitVec.toNat_ofNat s.ip 16⟩

/-- Settles O20: the fields of `init`, one by one. -/
theorem initSetsResetValues : Obligations.InitSetsResetValues := fun s =>
  ⟨init_regs s, init_segs s, init_flags s, init_ip s, fun a => by rw [init_stack]; rfl, init_loop s, init_err s,
    init_errAddr s, init_cur s, init_emitted s, init_log s, init_mem s, init_out s⟩

/-- Settles O21: what `Init` reads, the parameters, the image and the buffer, it leaves as it is. -/
theorem initIsIdempotent : Obligations.InitIsIdempotent := ⟨fun _ => ⟨rfl, rfl⟩, rfl⟩

end Sys2Proof.Machine
end
